-- ==== Sys2Proof/Word.lean ====
section
/-! DEFINITION. Words of the BPFA: registers and bus data are 32 bits wide (00_scope.md R4), memory bytes 8 bits. -/

namespace Sys2Proof

/-- A register, a command word, an address or one beat of bus data (00_scope.md R4; 20_memory.md R60). -/
abbrev Word := BitVec 32

/-- One byte of IN_MEM or OUT_MEM (10_state.md R45, R46). -/
abbrev Byte := BitVec 8

end Sys2Proof
end

