-- ==== Sys2Proof/Syntax.lean ====
section
/-! DEFINITION. The seven commands of the BPFA, one constructor per row of the opcode map (30_encoding.md R93). -/

namespace Sys2Proof

/-- The source buffer of GETBIT, field SRC of the command word (30_encoding.md R91). -/
inductive Src
  /-- SRC = 0, `GETBIT.I`: the input BitBuffer. -/
  | ibuf
  /-- SRC = 1, `GETBIT.O`: the output BitBuffer. -/
  | obuf
deriving DecidableEq, Repr

/-- The commands (30_encoding.md R93). A width operand is the unbiased number of its 6-bit field (R92); whether it is
a legal pattern width is checked when the command runs. -/
inductive Instr
  /-- NOP (40_bitbuffer.md R110). -/
  | nop
  /-- LOAD (40_bitbuffer.md R112). -/
  | load
  /-- GETBIT, with its source buffer (40_bitbuffer.md R114). -/
  | getbit (src : Src)
  /-- HIST, with the width in field WA (41_histogram.md R124). -/
  | hist (wa : Nat)
  /-- ESCSEARCH, Mode A (42_width_selector.md R142). -/
  | escsearch
  /-- VICSEARCH, Mode B (42_width_selector.md R150). -/
  | vicsearch
  /-- ENCODE, with the victim width in WA and the replacement width in WB (43_encoder.md R168). -/
  | encode (wa wb : Nat)
deriving DecidableEq, Repr

end Sys2Proof
end

