-- ==== Sys2Proof/WellFormed.lean ====
section
/-! DEFINITION. Which terms of Instr a command word can carry: a width operand is a 6-bit field (30_encoding.md R91,
R92), and the assembler refuses one outside 0 to 63 (R96). -/

namespace Sys2Proof

/-- A width operand fits its 6-bit field (30_encoding.md R92, R96). -/
abbrev widthFits (w : Nat) : Prop := w ≤ 63

/-- The operands of the command fit its word (30_encoding.md R92, R96). -/
def Instr.wellFormed : Instr → Bool
  | .nop => true
  | .load => true
  | .getbit _ => true
  | .hist wa => decide (widthFits wa)
  | .escsearch => true
  | .vicsearch => true
  | .encode wa wb => decide (widthFits wa) && decide (widthFits wb)

end Sys2Proof
end

