-- ==== Sys2Proof/Decode.lean ====
section
/-! DEFINITION. Decoding and encoding of the command word (30_encoding.md R90 to R95): every 32-bit word is one row of
the opcode map with its fields, or illegal, by name. -/

namespace Sys2Proof

/-- Why a word is illegal (30_encoding.md R94). Both reasons complete with the one code IllegalCommand (R182). -/
inductive Illegal
  /-- OP is 0x7 to 0xF. -/
  | reservedOp
  /-- A reserved field, or a field the word's OP does not use, is not zero. -/
  | nonzeroField
deriving DecidableEq, Repr

/-- Field OP, bits [3:0] (30_encoding.md R91). -/
def fieldOp (c : Word) : Nat := (c.extractLsb' 0 4).toNat

/-- Field SRC, bit [4] (30_encoding.md R91). -/
def fieldSrc (c : Word) : Src := if c.getLsbD 4 then .obuf else .ibuf

/-- Field WA, bits [13:8], zero-extended (30_encoding.md R91, R92). -/
def fieldWa (c : Word) : Nat := (c.extractLsb' 8 6).toNat

/-- Field WB, bits [21:16], zero-extended (30_encoding.md R91, R92). -/
def fieldWb (c : Word) : Nat := (c.extractLsb' 16 6).toNat

/-- The column `mask` of 30_encoding.md R93: the bits of the word that the row fixes. -/
def rowMask : Instr → Word
  | .nop => 0xFFFFFFFF#32
  | .load => 0xFFFFFFFF#32
  | .getbit _ => 0xFFFFFFEF#32
  | .hist _ => 0xFFFFC0FF#32
  | .escsearch => 0xFFFFFFFF#32
  | .vicsearch => 0xFFFFFFFF#32
  | .encode _ _ => 0xFFC0C0FF#32

/-- The column `match` of 30_encoding.md R93: the word with every used field 0. -/
def rowMatch : Instr → Word
  | .nop => 0x00000000#32
  | .load => 0x00000001#32
  | .getbit _ => 0x00000002#32
  | .hist _ => 0x00000003#32
  | .escsearch => 0x00000004#32
  | .vicsearch => 0x00000005#32
  | .encode _ _ => 0x00000006#32

/-- The command `i`, when the fixed bits of its row agree with the word `c` (30_encoding.md R93, R95). -/
def decodeRow (c : Word) (i : Instr) : Except Illegal Instr :=
  if c &&& rowMask i = rowMatch i then .ok i else .error .nonzeroField

/-- The decoder, total on 32-bit words (30_encoding.md R95). -/
def decode (c : Word) : Except Illegal Instr :=
  match fieldOp c with
  | 0 => decodeRow c .nop
  | 1 => decodeRow c .load
  | 2 => decodeRow c (.getbit (fieldSrc c))
  | 3 => decodeRow c (.hist (fieldWa c))
  | 4 => decodeRow c .escsearch
  | 5 => decodeRow c .vicsearch
  | 6 => decodeRow c (.encode (fieldWa c) (fieldWb c))
  | _ => .error .reservedOp

/-- Bit [4] of a GETBIT word (30_encoding.md R91). -/
def srcBit : Src → Word
  | .ibuf => 0x00000000#32
  | .obuf => 0x00000010#32

/-- The word of a well-formed command (30_encoding.md R91, R96). -/
def encode : Instr → Word
  | .nop => 0x00000000#32
  | .load => 0x00000001#32
  | .getbit src => 0x00000002#32 ||| srcBit src
  | .hist wa => 0x00000003#32 ||| (BitVec.ofNat 32 wa <<< 8)
  | .escsearch => 0x00000004#32
  | .vicsearch => 0x00000005#32
  | .encode wa wb => 0x00000006#32 ||| (BitVec.ofNat 32 wa <<< 8) ||| (BitVec.ofNat 32 wb <<< 16)

/-- The assembler of 30_encoding.md R96: it refuses a width operand outside 0 to 63. -/
def assemble (i : Instr) : Option Word := if i.wellFormed then some (encode i) else none

/-- The command word made of the low `nbits` bits of `w`, numbered as the opcode table numbers them, every bit above
them 0. A command is one 32-bit word (30_encoding.md R90). -/
def tableWord (nbits w : Nat) : Word := BitVec.ofNat 32 (w % 2 ^ nbits)

/-- What the decoder reads from the opcode table's bits `w`. -/
def decodeTableWord (nbits w : Nat) : Option Instr := (decode (tableWord nbits w)).toOption

end Sys2Proof
end

