-- ==== Sys2Proof/Config.lean ====
section
/-! DEFINITION. What a build of the BPFA fixes (00_scope.md R3) and the free values of the model: what the spec marks
UNSPECIFIED (00_scope.md R11, 93_implementation_defined.md U1 to U5). -/

namespace Sys2Proof

/-- The implementation parameters of 00_scope.md R3, fixed when the block is built. -/
structure Params where
  /-- `MAX_WIDTH_HW`: the largest pattern width the hardware supports. -/
  maxWidthHw : Nat
  /-- `HIST_VIS_W`: log2 of the number of host-readable counters of HIST_MEM. -/
  histVisW : Nat
  /-- `IN_CAP_BYTES`: the capacity of IN_MEM in bytes. -/
  inCapBytes : Nat
  /-- `OUT_CAP_BITS`: the capacity of OUT_MEM in bits. -/
  outCapBits : Nat
deriving DecidableEq, Repr

/-- The legal values of the parameters, the table of 00_scope.md R3. -/
abbrev Params.legal (p : Params) : Prop :=
  (1 ≤ p.maxWidthHw ∧ p.maxWidthHw ≤ 32) ∧ (1 ≤ p.histVisW ∧ p.histVisW ≤ 28) ∧
    (1 ≤ p.inCapBytes ∧ p.inCapBytes ≤ 2 ^ 27) ∧
    (8 * p.inCapBytes + 74 ≤ p.outCapBits ∧ p.outCapBits ≤ 2 ^ 31 - 1)

/-- The default values of 00_scope.md R3. -/
def Params.default : Params :=
  { maxWidthHw := 32, histVisW := 16, inCapBytes := 2 ^ 20, outCapBits := 2 ^ 24 }

/-- The number of bytes of OUT_MEM, `ceil(OUT_CAP_BITS / 8)` (10_state.md R46). -/
def Params.outBytes (p : Params) : Nat := (p.outCapBits + 7) / 8

/-- The constant of register ID (10_state.md R24). -/
def Config.idValue : Word := 0x42504641#32

/-- Free value: what an unwritten byte of IN_MEM holds, by the number of the draw and the byte's index (10_state.md
R45; 93 U1). Nothing constrains it. Log 4. -/
opaque Config.freeInByte (draw index : Nat) : Byte

/-- Free value: what a byte of OUT_MEM holds that the spec calls UNSPECIFIED (10_state.md R46, R49; 93 U1, U3, U5).
Nothing constrains it. Logs 4, 9, 10. -/
opaque Config.freeOutByte (draw index : Nat) : Byte

/-- Free value: what a counter of HIST_MEM holds that the spec calls UNSPECIFIED (10_state.md R47; 42_width_selector.md
R141; 93 U1, U4). Nothing constrains it. Logs 4, 10. -/
opaque Config.freeCounter (draw index : Nat) : Word

/-- Free value: the word a host read returns, while a command runs, from that command's write set (20_memory.md R71;
93 U2), one per read. Nothing constrains it. Log 8. -/
opaque Config.freeRead (draw : Nat) : Word

end Sys2Proof
end

