-- ==== Sys2Proof/Machine/State.lean ====
section
/-! DEFINITION. The state of the BPFA (10_state.md) as plain data, the reasons a step can stop, and the state after
reset (10_state.md R53; 70_reset_and_hazards.md R211). -/

namespace Sys2Proof.Machine

/-- The error codes of STATUS.CODE (60_exceptions.md R181). Codes 8 to 15 are never produced, so they have no name. -/
inductive ErrorCode
  /-- 0: the command completed as its rule says. -/
  | success
  /-- 1: a GETBIT index at or above the length of the selected buffer. -/
  | indexOutOfRange
  /-- 2: a width operand is 0 or above MAXW. -/
  | invalidPatternWidth
  /-- 3: Mode A found no zero count at any width, or reached a width with no data. -/
  | noEscapeFound
  /-- 4: Mode B found no width whose output is shorter than IBUF. -/
  | noBeneficialSubstitution
  /-- 5: the command word matches no row of the opcode map. -/
  | illegalCommand
  /-- 6: an ENCODE value is not below 2 to the power of its width. -/
  | invalidPatternValue
  /-- 7: a LOAD of more bytes than IN_CAP_BYTES, or an ENCODE output longer than OUT_CAP_BITS. -/
  | capacityExceeded
deriving DecidableEq, Repr

/-- The fields of STATUS (10_state.md R29). Its reserved bits read 0 and are no state. -/
structure Status where
  /-- BUSY: 1 from the acceptance of a command to its completion. -/
  busy : Bool
  /-- DONE: set at every completion. -/
  done : Bool
  /-- ERR: the last completed command ended with a code other than 0. -/
  err : Bool
  /-- HAZ: a host write was dropped because BUSY was 1. -/
  haz : Bool
  /-- CODE: the code of the last completed command. -/
  code : ErrorCode
  /-- LASTOP: bits [3:0] of the last accepted command word. -/
  lastop : BitVec 4
deriving DecidableEq, Repr

/-- The fields of HIST_W (10_state.md R37). Its reserved bits read 0 and are no state. -/
structure HistW where
  /-- WIDTH: the width of the last successful HIST. -/
  width : BitVec 6
  /-- HVALID: HIST_MEM holds the histogram of the last successful HIST. -/
  hvalid : Bool
  /-- NODATA: the last HIST counted no window. -/
  nodata : Bool
  /-- ZFOUND: the last HIST found a value with count 0. -/
  zfound : Bool
deriving DecidableEq, Repr

/-- What an index that a memory does not list holds. -/
inductive Fill
  /-- The value 0. -/
  | zero
  /-- No value the spec fixes: free draw number `n` (00_scope.md R11, log 4). -/
  | drawn (n : Nat)
deriving DecidableEq, Repr

/-- A memory of `n`-bit locations: the listed (index, value) pairs, and what every other index holds. For `n = 8` a
pair is a `Host.Cell`. -/
structure Memory (n : Nat) where
  /-- The listed locations, indices strictly rising. -/
  cells : List (Nat × BitVec n)
  /-- What an unlisted index holds. -/
  fill : Fill
deriving DecidableEq, Repr

/-- The canonical form: indices strictly rise, and where an unlisted index holds 0 no listed one does. Where an unlisted
index holds a free draw it has no value of its own, so a listed value never equals it. -/
abbrev Memory.wf {n : Nat} (m : Memory n) : Prop :=
  m.cells.Pairwise (fun c d => c.1 < d.1) ∧ (m.fill = .zero → ∀ c ∈ m.cells, c.2 ≠ 0)

/-- One thing the outside world does to the BPFA (20_memory.md R60; 70_reset_and_hazards.md R210). -/
inductive Input
  /-- A host read of the word at a byte address. -/
  | read (addr : Word)
  /-- A host write of a word with its four byte strobes. -/
  | write (addr data : Word) (be : BitVec 4)
  /-- The reset input is asserted. -/
  | reset
deriving DecidableEq, Repr

/-- A pending input and where it falls among the engine's steps (60_exceptions.md R188): a late input waits for the
completion of the command in flight, an early one comes before it. Log 1. -/
structure Turn where
  /-- The input comes after the completion of the command in flight, if there is one. -/
  late : Bool
  /-- What happens. -/
  input : Input
deriving DecidableEq, Repr

/-- The state of the BPFA: every register, field and memory of 10_state.md, the build parameters of 00_scope.md R3,
and three fields of the model's own (`turns`, `draws`, `rdata`). ID and the PARAM registers are constants computed
from `params` (R24 to R27); a reserved bit reads 0 and is no state (R28, R29, R31, R36, R37, R39 to R41). -/
structure State where
  /-- The build parameters (00_scope.md R3), what the PARAM registers show. Log 3. -/
  params : Params
  /-- CTRL.IE (10_state.md R28). -/
  ie : Bool
  /-- STATUS (10_state.md R29). -/
  status : Status
  /-- CMD: the last accepted command word (10_state.md R30). -/
  cmd : Word
  /-- MAXW, bits [5:0] (10_state.md R31). -/
  maxw : BitVec 6
  /-- IN_NBYTES (10_state.md R32). -/
  inNbytes : Word
  /-- IN_LEN (10_state.md R33). -/
  inLen : Word
  /-- ARG_INDEX (10_state.md R34). -/
  argIndex : Word
  /-- VAL_A (10_state.md R35). -/
  valA : Word
  /-- VAL_B (10_state.md R35). -/
  valB : Word
  /-- RESULT_BIT, bit [0] (10_state.md R36). -/
  resultBit : Bool
  /-- HIST_W (10_state.md R37). -/
  histW : HistW
  /-- HIST_SUM (10_state.md R38). -/
  histSum : Word
  /-- HIST_MAX (10_state.md R38). -/
  histMax : Word
  /-- HIST_MAXVAL (10_state.md R38). -/
  histMaxval : Word
  /-- HIST_ZEROVAL (10_state.md R38). -/
  histZeroval : Word
  /-- ESC_W, bits [5:0] (10_state.md R39). -/
  escW : BitVec 6
  /-- ESC_VAL (10_state.md R39). -/
  escVal : Word
  /-- BEST_W, bits [5:0] (10_state.md R40). -/
  bestW : BitVec 6
  /-- BEST_VAL (10_state.md R40). -/
  bestVal : Word
  /-- BEST_COUNT (10_state.md R40). -/
  bestCount : Word
  /-- VIC_W, bits [5:0] (10_state.md R41). -/
  vicW : BitVec 6
  /-- VIC_VAL (10_state.md R41). -/
  vicVal : Word
  /-- OUT_LEN (10_state.md R42). -/
  outLen : Word
  /-- MATCHES (10_state.md R42). -/
  matchCount : Word
  /-- DELTA, two's complement (10_state.md R43). -/
  delta : Word
  /-- CLOSEST_DELTA, two's complement (10_state.md R43). -/
  closestDelta : Word
  /-- IN_MEM, by byte index (10_state.md R45). -/
  inMem : Memory 8
  /-- OUT_MEM, by byte index (10_state.md R46). -/
  outMem : Memory 8
  /-- HIST_MEM, by counter index (10_state.md R47). -/
  histMem : Memory 32
  /-- The model's own: the pending inputs, first to come first. Log 1. -/
  turns : List Turn
  /-- The model's own: the number of the next free draw. Log 5. -/
  draws : Nat
  /-- The model's own: the word the last read transaction returned. Log 6. -/
  rdata : Word
deriving DecidableEq, Repr

/-- Why a step could stop with a fault: never. Every transaction completes and the port never signals an error
(20_memory.md R60), and an error of a command ends that command and is reported in STATUS (60_exceptions.md R180), so
nothing raises a fault (safe). -/
inductive Fault
deriving DecidableEq, Repr

/-- Why a step could be refused. -/
inductive Refusal
  /-- Raised only by an arm of exec whose command has no meaning yet; no arm uses it (safe: the run stops). -/
  | notModelled (mnemonic : String)
deriving DecidableEq, Repr

/-- STATUS after reset (10_state.md R29, R53). -/
def Status.reset : Status :=
  { busy := false, done := false, err := false, haz := false, code := .success, lastop := 0#4 }

/-- HIST_W after reset (10_state.md R37, R53). -/
def HistW.reset : HistW := { width := 0#6, hvalid := false, nodata := false, zfound := false }

/-- A memory whose contents are UNSPECIFIED: nothing listed, everything free draw number `d` (log 4). -/
def Memory.unspecified (n d : Nat) : Memory n := { cells := [], fill := .drawn d }

/-- The reset state of a build (10_state.md R53; 70_reset_and_hazards.md R210, R211), its memories UNSPECIFIED as free
draw number `d`. The build parameters are not changed by reset. -/
def State.resetWith (p : Params) (d : Nat) : State :=
  { params := p
    ie := false, status := Status.reset, cmd := 0#32
    maxw := BitVec.ofNat 6 p.maxWidthHw
    inNbytes := 0#32, inLen := 0#32, argIndex := 0#32, valA := 0#32, valB := 0#32
    resultBit := false
    histW := HistW.reset, histSum := 0#32, histMax := 0#32, histMaxval := 0#32, histZeroval := 0#32
    escW := 0#6, escVal := 0#32, bestW := 0#6, bestVal := 0#32, bestCount := 0#32
    vicW := 0#6, vicVal := 0#32
    outLen := 0#32, matchCount := 0#32, delta := 0#32, closestDelta := 0#32
    inMem := Memory.unspecified 8 d, outMem := Memory.unspecified 8 d, histMem := Memory.unspecified 32 d
    turns := [], draws := d + 1, rdata := 0#32 }

/-- The BPFA with the default parameters of 00_scope.md R3, right after reset (10_state.md R53). -/
def State.reset : State := State.resetWith Params.default 0

end Sys2Proof.Machine
end

