-- ==== Sys2Proof/Machine/Flags.lean ====
section
/-! DEFINITION. The flags of the BPFA: the fields of STATUS and HIST_W, what sets and clears each, and the interrupt
output (10_state.md R28, R29, R37, R44; 20_memory.md R70, R72; 60_exceptions.md R181, R187). -/

namespace Sys2Proof.Machine

/-- The number of an error code in STATUS.CODE (60_exceptions.md R181). -/
def ErrorCode.num : ErrorCode → BitVec 4
  | .success => 0#4
  | .indexOutOfRange => 1#4
  | .invalidPatternWidth => 2#4
  | .noEscapeFound => 3#4
  | .noBeneficialSubstitution => 4#4
  | .illegalCommand => 5#4
  | .invalidPatternValue => 6#4
  | .capacityExceeded => 7#4

/-- The word a read of STATUS returns (10_state.md R29). -/
def Status.word (t : Status) : Word :=
  0#20 ++ t.lastop ++ t.code.num ++ BitVec.ofBool t.haz ++ BitVec.ofBool t.err ++ BitVec.ofBool t.done ++
    BitVec.ofBool t.busy

/-- The word a read of HIST_W returns (10_state.md R37). -/
def HistW.word (h : HistW) : Word :=
  0#21 ++ BitVec.ofBool h.zfound ++ BitVec.ofBool h.nodata ++ BitVec.ofBool h.hvalid ++ 0#2 ++ h.width

/-- STATUS at the acceptance of the word `c`; HAZ is unchanged (20_memory.md R70). -/
def Status.accept (c : Word) (t : Status) : Status :=
  { busy := true, done := false, err := false, haz := t.haz, code := .success, lastop := c.extractLsb' 0 4 }

/-- STATUS at a completion with code `e`; HAZ and LASTOP are unchanged (20_memory.md R70). -/
def Status.complete (e : ErrorCode) (t : Status) : Status :=
  { busy := false, done := true, err := decide (e ≠ .success), haz := t.haz, code := e, lastop := t.lastop }

/-- A host write of `d` to STATUS: a 1 clears DONE (bit 1) or HAZ (bit 3), and nothing else changes (10_state.md R29). -/
def Status.writeOneToClear (d : Word) (t : Status) : Status :=
  { t with done := t.done && !d.getLsbD 1, haz := t.haz && !d.getLsbD 3 }

/-- A host write was dropped because BUSY was 1: HAZ <- 1 (20_memory.md R72). -/
def setHaz (s : State) : State := { s with status := { s.status with haz := true } }

/-- HIST_W.HVALID <- 0, the other fields kept (10_state.md R37; 42_width_selector.md R141). -/
def clearHvalid (s : State) : State := { s with histW := { s.histW with hvalid := false } }

/-- HIST_W after a HIST of width `w` that counted `n` windows (41_histogram.md R124). -/
def histFlags (w n : Nat) (zfound : Bool) : HistW :=
  { width := BitVec.ofNat 6 w, hvalid := true, nodata := decide (n = 0), zfound := zfound }

/-- The interrupt output, a level (60_exceptions.md R187). -/
def State.irq (s : State) : Bool := s.ie && s.status.done

end Sys2Proof.Machine
end

