-- ==== Sys2Proof/Machine/Ops.lean ====
section
/-! DEFINITION. The named operations over memories and registers: reading and writing one location, the acceptance and
the completion of a command (20_memory.md R70), ending a command with an error (60_exceptions.md R180), writing OBUF
(10_state.md R49). -/

namespace Sys2Proof.Machine

/-- The listed value at index `k`, if there is one. -/
def cellAt {n : Nat} : List (Nat × BitVec n) → Nat → Option (BitVec n)
  | [], _ => none
  | (a, v) :: rest, k => if a = k then some v else cellAt rest k

/-- `cells` with the value `v` at index `k`, in rising order of index. -/
def putCell {n : Nat} (k : Nat) (v : BitVec n) : List (Nat × BitVec n) → List (Nat × BitVec n)
  | [] => [(k, v)]
  | (a, u) :: rest =>
    if a < k then (a, u) :: putCell k v rest
    else if a = k then (k, v) :: rest
    else (k, v) :: (a, u) :: rest

/-- `cells` without index `k`. -/
def dropCell {n : Nat} (k : Nat) : List (Nat × BitVec n) → List (Nat × BitVec n)
  | [] => []
  | (a, u) :: rest => if a = k then rest else (a, u) :: dropCell k rest

/-- What an unlisted index `k` reads as: 0, or the free draw that `free` gives (log 4). -/
def Fill.value {n : Nat} (free : Nat → Nat → BitVec n) (k : Nat) : Fill → BitVec n
  | .zero => 0
  | .drawn d => free d k

/-- The value at index `k` of a memory whose free values are `free`. -/
def Memory.read {n : Nat} (free : Nat → Nat → BitVec n) (m : Memory n) (k : Nat) : BitVec n :=
  (cellAt m.cells k).getD (m.fill.value free k)

/-- The memory with `v` at index `k`, in canonical form. -/
def Memory.write {n : Nat} (m : Memory n) (k : Nat) (v : BitVec n) : Memory n :=
  if m.fill = .zero ∧ v = 0 then { m with cells := dropCell k m.cells } else { m with cells := putCell k v m.cells }

/-- `IN_MEM[k]` (00_scope.md R6; 10_state.md R45). -/
def State.inByte (s : State) (k : Nat) : Byte := s.inMem.read Config.freeInByte k

/-- `OUT_MEM[k]` (00_scope.md R6; 10_state.md R46). -/
def State.outByte (s : State) (k : Nat) : Byte := s.outMem.read Config.freeOutByte k

/-- `HIST_MEM[k]` (00_scope.md R6; 10_state.md R47). -/
def State.histCounter (s : State) (k : Nat) : Word := s.histMem.read Config.freeCounter k

/-- The word the engine decodes: the one that was accepted (10_state.md R22, R30; 20_memory.md R76). -/
def fetchWord (s : State) : Word := s.cmd

/-- `c` is a legal ESCSEARCH or VICSEARCH word (20_memory.md R70). -/
def isSearchWord (c : Word) : Bool :=
  match decode c with
  | .ok .escsearch => true
  | .ok .vicsearch => true
  | _ => false

/-- Acceptance of the command word `c`, one step (20_memory.md R70): a legal search word also clears HIST_W.HVALID. -/
def accept (c : Word) (s : State) : State :=
  { s with
    cmd := c
    status := s.status.accept c
    histW := { s.histW with hvalid := s.histW.hvalid && !isSearchWord c } }

/-- Completion with code `e`, one step with the results already written (20_memory.md R70). -/
def complete (e : ErrorCode) (s : State) : State := { s with status := s.status.complete e }

/-- A command's own completion step: its results are `s`, its code is 0. -/
def succeed (s : State) : Host.Outcome State Fault Refusal := .next (complete .success s)

/-- `raise E`: the command ends at once with code `e`; `s` holds what its rule writes on that error. Nothing is saved,
no address is recorded, no mode changes and no handler runs, so there is no return operation either (60_exceptions.md
R180, R186; 00_scope.md R6). -/
def raiseError (e : ErrorCode) (s : State) : Host.Outcome State Fault Refusal := .next (complete e s)

/-- The number whose bit `j` is element `j` of the list. -/
def bitsToNat : List Bool → Nat
  | [] => 0
  | b :: rest => b.toNat + 2 * bitsToNat rest

/-- Byte `k` of the packing of the bit sequence `x`, least significant bit first; bits past its end are 0
(10_state.md R49). -/
def packByte (x : List Bool) (k : Nat) : Byte := BitVec.ofNat 8 (bitsToNat ((x.drop (8 * k)).take 8))

/-- The number of bytes that `n` bits take, `ceil(n / 8)` (10_state.md R49). -/
def bytesFor (n : Nat) : Nat := (n + 7) / 8

/-- OUT_MEM becomes UNSPECIFIED: a new free draw (10_state.md R49; 43_encoder.md R171; logs 9, 10). -/
def drawOutMem (s : State) : State := { s with outMem := Memory.unspecified 8 s.draws, draws := s.draws + 1 }

/-- HIST_MEM becomes UNSPECIFIED: a new free draw (42_width_selector.md R141; log 10). -/
def drawHistMem (s : State) : State := { s with histMem := Memory.unspecified 32 s.draws, draws := s.draws + 1 }

/-- `OBUF <- x` (10_state.md R49): OUT_LEN, the bytes that hold `x` with the unused high bits of the last one 0, and
every later byte UNSPECIFIED. -/
def putObuf (x : List Bool) (s : State) : State :=
  { s with
    outLen := BitVec.ofNat 32 x.length
    outMem :=
      { cells := (List.range (bytesFor x.length)).map (fun k => (k, packByte x k))
        fill := .drawn s.draws }
    draws := s.draws + 1 }

/-- Asserting reset (70_reset_and_hazards.md R210): any command in flight is abandoned and every piece of the BPFA's
state is put in its reset state, the memories as new free draws. What is outside it stays: the pending inputs and the
word the port last returned. -/
def assertReset (s : State) : State :=
  { State.resetWith s.params s.draws with turns := s.turns, rdata := s.rdata }

end Sys2Proof.Machine
end

