-- ==== Sys2Proof/Machine/Operands.lean ====
section
/-! DEFINITION. The operands of the commands: the two BitBuffers and their bits, windows as numbers, values as bit
sequences, width and value checks (00_scope.md R6, R7; 10_state.md R48, R49; 43_encoder.md R161, R162). -/

namespace Sys2Proof.Machine

/-- Bit `k` of a byte array packed least significant bit first (10_state.md R48, R49). -/
def packedBit (byte : Nat → Byte) (k : Nat) : Bool := (byte (k / 8)).getLsbD (k % 8)

/-- `IBUF(k)`: a live view of IN_MEM (10_state.md R48). -/
def State.ibuf (s : State) (k : Nat) : Bool := packedBit s.inByte k

/-- `OBUF(k)`: a view of OUT_MEM (10_state.md R49). -/
def State.obuf (s : State) (k : Nat) : Bool := packedBit s.outByte k

/-- `L`, the bit length of IBUF (10_state.md R33; 00_scope.md R6). -/
def State.inBits (s : State) : Nat := s.inLen.toNat

/-- The buffer and the length that field SRC selects (40_bitbuffer.md R114). -/
def sourceBuffer (s : State) : Src → Nat × (Nat → Bool)
  | .ibuf => (s.inLen.toNat, s.ibuf)
  | .obuf => (s.outLen.toNat, s.obuf)

/-- `window(b, i, w)`: the earliest bit is the most significant (00_scope.md R7). -/
def window (b : Nat → Bool) (i : Nat) : Nat → Nat
  | 0 => 0
  | w + 1 => 2 * window b i w + (b (i + w)).toNat

/-- The bits `b(i), …, b(i + n - 1)`. -/
def slice (b : Nat → Bool) (i n : Nat) : List Bool := (List.range n).map (fun k => b (i + k))

/-- `bits_msb(v, n)`: the `n` low bits of `v`, most significant first (00_scope.md R6). -/
def bitsMsb (v n : Nat) : List Bool := (List.range n).map (fun k => v.testBit (n - 1 - k))

/-- A width operand is legal: `1 <= w <= MAXW` (41_histogram.md R124; 43_encoder.md R161). -/
abbrev widthLegal (s : State) (w : Nat) : Prop := 1 ≤ w ∧ w ≤ s.maxw.toNat

/-- A pattern value is legal for its width: `v < 2^w` (43_encoder.md R162). -/
abbrev valueLegal (v w : Nat) : Prop := v < 2 ^ w

/-- A signed delta as its 32-bit two's-complement pattern (00_scope.md R6; 10_state.md R43). -/
def deltaWord (d : Int) : Word := BitVec.ofInt 32 d

end Sys2Proof.Machine
end

