-- ==== Sys2Proof/Machine/BitBuffer.lean ====
section
/-! DEFINITION. NOP, LOAD and GETBIT (40_bitbuffer.md). -/

namespace Sys2Proof.Machine

/-- NOP (40_bitbuffer.md R110). -/
def execNop (s : State) : Host.Outcome State Fault Refusal := succeed s

/-- LOAD (40_bitbuffer.md R112). -/
def execLoad (s : State) : Host.Outcome State Fault Refusal :=
  if s.params.inCapBytes < s.inNbytes.toNat then raiseError .capacityExceeded s
  else succeed { s with inLen := BitVec.ofNat 32 (8 * s.inNbytes.toNat) }

/-- GETBIT (40_bitbuffer.md R114). -/
def execGetbit (src : Src) (s : State) : Host.Outcome State Fault Refusal :=
  if (sourceBuffer s src).1 ≤ s.argIndex.toNat then raiseError .indexOutOfRange s
  else succeed { s with resultBit := (sourceBuffer s src).2 s.argIndex.toNat }

end Sys2Proof.Machine
end

