-- ==== Sys2Proof/Machine/Encoder.lean ====
section
/-! DEFINITION. The substitution encoder: header, output image, ENCODE (43_encoder.md). -/

namespace Sys2Proof.Machine

/-- The header (43_encoder.md R163, R164). -/
def header (vv vw rv rw : Nat) : List Bool :=
  bitsMsb (vw - 1) 5 ++ bitsMsb vv vw ++ bitsMsb (rw - 1) 5 ++ bitsMsb rv rw

/-- The body of the output from position `i` and the number of matches in it: at each start with a full window, the
replacement for a match and one copied bit otherwise, then the tail (43_encoder.md R166, R167). Each round moves on by
at least one bit, so `fuel = len` is enough. -/
def encodeBody (b : Nat → Bool) (len vv vw : Nat) (repl : List Bool) : (fuel i : Nat) → List Bool × Nat
  | 0, i => (slice b i (len - i), 0)
  | fuel + 1, i =>
    if i + vw ≤ len then
      if window b i vw = vv then
        let r := encodeBody b len vv vw repl fuel (i + vw)
        (repl ++ r.1, r.2 + 1)
      else
        let r := encodeBody b len vv vw repl fuel (i + 1)
        (b i :: r.1, r.2)
    else (slice b i (len - i), 0)

/-- `encodeImage(vv, vw, rv, rw)` of the buffer `b` with `len` bits: the output and the match count (43_encoder.md
R166). -/
def encodeImage (b : Nat → Bool) (len vv vw rv rw : Nat) : List Bool × Nat :=
  let r := encodeBody b len vv vw (bitsMsb rv rw) len 0
  (header vv vw rv rw ++ r.1, r.2)

/-- `len(s) - L`, the net bit delta (10_state.md R43; 43_encoder.md R169). -/
def imageDelta (len : Nat) (x : List Bool) : Int := (x.length : Int) - (len : Int)

/-- OBUF, MATCHES and DELTA after an output `x` with `n` matches (43_encoder.md R168). -/
def putImage (x : List Bool) (n : Nat) (s : State) : State :=
  { putObuf x s with
    matchCount := BitVec.ofNat 32 n
    delta := deltaWord (imageDelta s.inBits x) }

/-- What an ENCODE whose output does not fit leaves (43_encoder.md R168, R171). -/
def putTooLong (s : State) : State :=
  { drawOutMem s with outLen := 0#32, matchCount := 0#32, delta := 0#32 }

/-- ENCODE (43_encoder.md R168), its checks in the order of 60_exceptions.md R183. -/
def execEncode (wa wb : Nat) (s : State) : Host.Outcome State Fault Refusal :=
  if widthLegal s wa ∧ widthLegal s wb then
    if valueLegal s.valA.toNat wa ∧ valueLegal s.valB.toNat wb then
      let r := encodeImage s.ibuf s.inBits s.valA.toNat wa s.valB.toNat wb
      if s.params.outCapBits < r.1.length then raiseError .capacityExceeded (putTooLong s)
      else succeed (putImage r.1 r.2 s)
    else raiseError .invalidPatternValue s
  else raiseError .invalidPatternWidth s

end Sys2Proof.Machine
end

