-- ==== Sys2Proof/Machine/Histogram.lean ====
section
/-! DEFINITION. Counting windows and HIST (41_histogram.md), with the selections over a histogram that the searches
share (42_width_selector.md R140). A histogram is held as the list of its counted windows. -/

namespace Sys2Proof.Machine

/-- The values of the counted windows, in order of their start `0 .. L - w - 1` (41_histogram.md R120). -/
def countedWindows (b : Nat → Bool) (len w : Nat) : List Nat := (List.range (len - w)).map (fun i => window b i w)

/-- The largest count, 0 when no window is counted (41_histogram.md R124; 42_width_selector.md R140). -/
def maxCount (ws : List Nat) : Nat := ws.foldr (fun p m => max (ws.count p) m) 0

/-- The counted values whose count is `m`. -/
def valuesWithCount (ws : List Nat) (m : Nat) : List Nat := ws.filter (fun p => ws.count p = m)

/-- The lowest value with the largest count; 0 when no window is counted (41_histogram.md R124; 42_width_selector.md
R140). -/
def mostFreq (ws : List Nat) : Nat := ((valuesWithCount ws (maxCount ws)).min?).getD 0

/-- The lowest number that is not a counted value; among the first `N + 1` numbers one is not. -/
def firstAbsent (ws : List Nat) : Nat := ((List.range (ws.length + 1)).find? (fun p => !ws.contains p)).getD 0

/-- Some value of width `w` has count 0 (42_width_selector.md R140). -/
abbrev hasZero (ws : List Nat) (w : Nat) : Prop := firstAbsent ws < 2 ^ w

/-- HIST_MEM after a HIST with these counted windows: the visible counters, 0 elsewhere (41_histogram.md R125). -/
def histMemOf (visW : Nat) (ws : List Nat) : Memory 32 :=
  (ws.filter (fun p => p < 2 ^ visW)).foldl (fun m p => m.write p (BitVec.ofNat 32 (ws.count p)))
    { cells := [], fill := .zero }

/-- The results of a HIST of width `w` with the counted windows `ws` (41_histogram.md R124). -/
def putHist (w : Nat) (ws : List Nat) (s : State) : State :=
  { s with
    histMem := histMemOf s.params.histVisW ws
    histW := histFlags w ws.length (decide (hasZero ws w))
    histSum := BitVec.ofNat 32 ws.length
    histMax := BitVec.ofNat 32 (maxCount ws)
    histMaxval := BitVec.ofNat 32 (mostFreq ws)
    histZeroval := if hasZero ws w then BitVec.ofNat 32 (firstAbsent ws) else 0#32 }

/-- HIST (41_histogram.md R124). -/
def execHist (wa : Nat) (s : State) : Host.Outcome State Fault Refusal :=
  if widthLegal s wa then succeed (putHist wa (countedWindows s.ibuf s.inBits wa) s)
  else raiseError .invalidPatternWidth s

end Sys2Proof.Machine
end

