-- ==== Sys2Proof/Machine/WidthSelector.lean ====
section
/-! DEFINITION. ESCSEARCH (Mode A) and VICSEARCH (Mode B) (42_width_selector.md). -/

namespace Sys2Proof.Machine

/-- A pattern with its count: Mode A's most frequent pattern, `(bc, bw, bv)` of 42_width_selector.md R142. -/
structure Best where
  /-- `bc`, the count. -/
  count : Nat
  /-- `bw`, the width. -/
  width : Nat
  /-- `bv`, the value. -/
  value : Nat
deriving DecidableEq, Repr

/-- A pattern: a width and a value of it (00_scope.md R9). -/
structure Pattern where
  /-- The width in bits. -/
  width : Nat
  /-- The value, below `2^width`. -/
  value : Nat
deriving DecidableEq, Repr

/-- What Mode A returns: the escape pattern if it found one, and the most frequent pattern (42_width_selector.md R142). -/
structure ModeA where
  /-- The escape, none when Mode A failed. -/
  escape : Option Pattern
  /-- The best pattern over the widths examined. -/
  best : Best
deriving DecidableEq, Repr

/-- A candidate of Mode B: the delta its output has, and the victim (42_width_selector.md R150). -/
structure Candidate where
  /-- `d = len(s) - L`. -/
  delta : Int
  /-- The victim pattern. -/
  victim : Pattern
deriving DecidableEq, Repr

/-- What Mode B's scan returns (42_width_selector.md R150, R152). -/
inductive ModeB
  /-- A width reduced: the candidate, its output and its matches. -/
  | accepted (c : Candidate) (image : List Bool) (nMatches : Nat)
  /-- No width reduced: the closest candidate, none when no width was evaluated. -/
  | notBeneficial (closest : Option Candidate)
deriving DecidableEq, Repr

/-- The best pattern after a width `w` with the counted windows `ws`: replaced only by a strictly greater count
(42_width_selector.md R144). -/
def betterBest (w : Nat) (ws : List Nat) (best : Best) : Best :=
  if best.count < maxCount ws then { count := maxCount ws, width := w, value := mostFreq ws } else best

/-- Mode A's loop over the widths still to examine (42_width_selector.md R142, R143, R145). -/
def modeALoop (b : Nat → Bool) (len : Nat) : List Nat → Best → ModeA
  | [], best => { escape := none, best := best }
  | w :: rest, best =>
    if len ≤ w then { escape := none, best := best }
    else if hasZero (countedWindows b len w) w then
      { escape := some { width := w, value := firstAbsent (countedWindows b len w) }
        best := betterBest w (countedWindows b len w) best }
    else modeALoop b len rest (betterBest w (countedWindows b len w) best)

/-- `modeA()` with maximum width `maxw`: the widths `1 .. MAXW` ascending (42_width_selector.md R142). -/
def modeA (b : Nat → Bool) (len maxw : Nat) : ModeA :=
  modeALoop b len (List.range' 1 maxw) { count := 0, width := 0, value := 0 }

/-- The closest candidate after evaluating `c`: the smallest delta, the earlier (wider) one on a tie
(42_width_selector.md R150, R152). -/
def closer (c : Candidate) : Option Candidate → Candidate
  | none => c
  | some c' => if c.delta < c'.delta then c else c'

/-- Mode B's loop over the widths still to examine, with escape `e` (42_width_selector.md R150, R151, R153). -/
def modeBLoop (b : Nat → Bool) (len : Nat) (e : Pattern) : List Nat → Option Candidate → ModeB
  | [], closest => .notBeneficial closest
  | v :: rest, closest =>
    if len ≤ v then modeBLoop b len e rest closest
    else
      let mv := mostFreq (countedWindows b len v)
      let r := encodeImage b len mv v e.value e.width
      let c : Candidate := { delta := imageDelta len r.1, victim := { width := v, value := mv } }
      if c.delta < 0 then .accepted c r.1 r.2 else modeBLoop b len e rest (some (closer c closest))

/-- Mode B's scan: the widths `MAXW` down to `w0 + 1` (42_width_selector.md R151). -/
def modeB (b : Nat → Bool) (len maxw : Nat) (e : Pattern) : ModeB :=
  modeBLoop b len e (List.range' (e.width + 1) (maxw - e.width)).reverse none

/-- The results both searches write from Mode A: ESC_*, BEST_*, HIST_MEM UNSPECIFIED, HVALID 0 (42_width_selector.md
R141, R142, R150). HVALID is 0 since the acceptance already (20_memory.md R70). -/
def putModeA (a : ModeA) (s : State) : State :=
  { clearHvalid (drawHistMem s) with
    escW := BitVec.ofNat 6 (a.escape.elim 0 Pattern.width)
    escVal := BitVec.ofNat 32 (a.escape.elim 0 Pattern.value)
    bestW := BitVec.ofNat 6 a.best.width
    bestVal := BitVec.ofNat 32 a.best.value
    bestCount := BitVec.ofNat 32 a.best.count }

/-- VIC_W, VIC_VAL and CLOSEST_DELTA from a candidate, all 0 when there is none (42_width_selector.md R150, R152). -/
def putCandidate (c : Option Candidate) (s : State) : State :=
  { s with
    vicW := BitVec.ofNat 6 (c.elim 0 (fun c => c.victim.width))
    vicVal := BitVec.ofNat 32 (c.elim 0 (fun c => c.victim.value))
    closestDelta := deltaWord (c.elim 0 Candidate.delta) }

/-- `OBUF <- IBUF` with MATCHES and DELTA 0: the original returned unchanged (42_width_selector.md R152). -/
def putOriginal (s : State) : State :=
  { putObuf (slice s.ibuf 0 s.inBits) s with matchCount := 0#32, delta := 0#32 }

/-- Mode A on the state's input (42_width_selector.md R142). -/
def State.modeA (s : State) : ModeA := Sys2Proof.Machine.modeA s.ibuf s.inBits s.maxw.toNat

/-- Mode B on the state's input with escape `e` (42_width_selector.md R150). -/
def State.modeB (s : State) (e : Pattern) : ModeB := Sys2Proof.Machine.modeB s.ibuf s.inBits s.maxw.toNat e

/-- ESCSEARCH (42_width_selector.md R142). -/
def execEscsearch (s : State) : Host.Outcome State Fault Refusal :=
  match s.modeA.escape with
  | none => raiseError .noEscapeFound (putModeA s.modeA s)
  | some _ => succeed (putModeA s.modeA s)

/-- VICSEARCH (42_width_selector.md R150, R152). -/
def execVicsearch (s : State) : Host.Outcome State Fault Refusal :=
  match s.modeA.escape with
  | none => raiseError .noEscapeFound (putCandidate none (putModeA s.modeA s))
  | some e =>
    match s.modeB e with
    | .accepted c x n => succeed (putCandidate (some c) (putImage x n (putModeA s.modeA s)))
    | .notBeneficial closest =>
      raiseError .noBeneficialSubstitution (putCandidate closest (putOriginal (putModeA s.modeA s)))

end Sys2Proof.Machine
end

