-- ==== Sys2Proof/Machine/Dispatch.lean ====
section
/-! DEFINITION. The one dispatch from commands to their meanings. exec answers the completion of the command (20_memory.md
R70): its results written and STATUS with its code. -/

namespace Sys2Proof.Machine

def exec (i : Instr) (s : State) : Host.Outcome State Fault Refusal :=
  match i with
  | .nop => Sys2Proof.Machine.execNop s
  | .load => Sys2Proof.Machine.execLoad s
  | .getbit src => Sys2Proof.Machine.execGetbit src s
  | .hist wa => Sys2Proof.Machine.execHist wa s
  | .escsearch => Sys2Proof.Machine.execEscsearch s
  | .vicsearch => Sys2Proof.Machine.execVicsearch s
  | .encode wa wb => Sys2Proof.Machine.execEncode wa wb s

end Sys2Proof.Machine
end

