-- ==== Sys2Proof/Machine/Port.lean ====
section
/-! DEFINITION. The host port: the address map, register reads and writes, the write sets of the commands, and the step
of one input (10_state.md R23 to R43; 20_memory.md R60 to R72). -/

namespace Sys2Proof.Machine

/-- The registers of 10_state.md R23. -/
inductive Reg
  | id | param0 | param1 | param2 | ctrl | status | cmd | maxw | inNbytes | inLen | argIndex | valA | valB
  | resultBit | histW | histSum | histMax | histMaxval | histZeroval | escW | escVal | bestW | bestVal | bestCount
  | vicW | vicVal | outLen | matchCount | delta | closestDelta
deriving DecidableEq, Repr

/-- The registers in the order of their offsets, 0x000 to 0x074, one word each (10_state.md R23). -/
def regsInOrder : List Reg :=
  [.id, .param0, .param1, .param2, .ctrl, .status, .cmd, .maxw, .inNbytes, .inLen, .argIndex, .valA, .valB, .resultBit,
    .histW, .histSum, .histMax, .histMaxval, .histZeroval, .escW, .escVal, .bestW, .bestVal, .bestCount, .vicW, .vicVal,
    .outLen, .matchCount, .delta, .closestDelta]

/-- The byte offset of a register (10_state.md R23). -/
def Reg.offset (r : Reg) : Nat := 4 * regsInOrder.idxOf r

/-- What a word of the host address space is (20_memory.md R64). -/
inductive Loc
  /-- A register. -/
  | reg (r : Reg)
  /-- Word `m` of IN_MEM. -/
  | inWord (m : Nat)
  /-- Word `m` of OUT_MEM. -/
  | outWord (m : Nat)
  /-- Counter `k` of HIST_MEM. -/
  | counter (k : Nat)
  /-- A reserved address: reads 0, ignores writes. -/
  | reserved
deriving DecidableEq, Repr

/-- The first byte address of IN_MEM (20_memory.md R64). -/
def inBase : Nat := 0x10000000

/-- The first byte address of OUT_MEM (20_memory.md R64). -/
def outBase : Nat := 0x20000000

/-- The first byte address of HIST_MEM (20_memory.md R64). -/
def histBase : Nat := 0x40000000

/-- The number of words that hold `n` bytes. -/
def wordsFor (n : Nat) : Nat := (n + 3) / 4

/-- The location at the word address `a & 0xFFFFFFFC` (20_memory.md R61, R64; 10_state.md R23). -/
def locOf (p : Params) (a : Word) : Loc :=
  let w := a.toNat / 4
  if histBase / 4 ≤ w ∧ w - histBase / 4 < 2 ^ p.histVisW then .counter (w - histBase / 4)
  else if outBase / 4 ≤ w ∧ w - outBase / 4 < wordsFor p.outBytes then .outWord (w - outBase / 4)
  else if inBase / 4 ≤ w ∧ w - inBase / 4 < wordsFor p.inCapBytes then .inWord (w - inBase / 4)
  else (regsInOrder[w]?).elim .reserved Loc.reg

/-- PARAM0 (10_state.md R25). -/
def param0Word (p : Params) : Word :=
  0#18 ++ BitVec.ofNat 6 p.histVisW ++ 0#2 ++ BitVec.ofNat 6 p.maxWidthHw

/-- The word a register read returns; reserved bits read 0 (10_state.md R24 to R43). -/
def regRead (s : State) : Reg → Word
  | .id => Config.idValue
  | .param0 => param0Word s.params
  | .param1 => BitVec.ofNat 32 s.params.inCapBytes
  | .param2 => BitVec.ofNat 32 s.params.outCapBits
  | .ctrl => (BitVec.ofBool s.ie).zeroExtend 32
  | .status => s.status.word
  | .cmd => s.cmd
  | .maxw => s.maxw.zeroExtend 32
  | .inNbytes => s.inNbytes
  | .inLen => s.inLen
  | .argIndex => s.argIndex
  | .valA => s.valA
  | .valB => s.valB
  | .resultBit => (BitVec.ofBool s.resultBit).zeroExtend 32
  | .histW => s.histW.word
  | .histSum => s.histSum
  | .histMax => s.histMax
  | .histMaxval => s.histMaxval
  | .histZeroval => s.histZeroval
  | .escW => s.escW.zeroExtend 32
  | .escVal => s.escVal
  | .bestW => s.bestW.zeroExtend 32
  | .bestVal => s.bestVal
  | .bestCount => s.bestCount
  | .vicW => s.vicW.zeroExtend 32
  | .vicVal => s.vicVal
  | .outLen => s.outLen
  | .matchCount => s.matchCount
  | .delta => s.delta
  | .closestDelta => s.closestDelta

/-- Byte `k` of an array of `cap` bytes: one past the capacity reads 0 (20_memory.md R65, R66). -/
def laneByte (cap : Nat) (byte : Nat → Byte) (k : Nat) : Byte := if k < cap then byte k else 0#8

/-- Word `m` of a byte array of `cap` bytes, little-endian (20_memory.md R65, R66, R68). -/
def laneWord (cap : Nat) (byte : Nat → Byte) (m : Nat) : Word :=
  laneByte cap byte (4 * m + 3) ++ laneByte cap byte (4 * m + 2) ++ laneByte cap byte (4 * m + 1) ++
    laneByte cap byte (4 * m)

/-- The current value of a location (20_memory.md R64 to R67). -/
def locRead (s : State) : Loc → Word
  | .reg r => regRead s r
  | .inWord m => laneWord s.params.inCapBytes s.inByte m
  | .outWord m => laneWord s.params.outBytes s.outByte m
  | .counter k => s.histCounter k
  | .reserved => 0#32

/-- Byte `j` of a word. -/
def byteOf (d : Word) (j : Nat) : Byte := d.extractLsb' (8 * j) 8

/-- What a read of an UNSPECIFIED location returns: free draw `d`, but for byte lanes past the capacity of OUT_MEM, which
do not exist and read 0 (20_memory.md R66, R71; log 8). -/
def unspecifiedRead (s : State) (d : Nat) : Loc → Word
  | .outWord m => laneWord s.params.outBytes (fun k => byteOf (Config.freeRead d) (k % 4)) m
  | _ => Config.freeRead d

/-- The ESCSEARCH row of the write-set table (20_memory.md R71). -/
def searchWrites : Loc → Bool
  | .reg r => [Reg.histW, .escW, .escVal, .bestW, .bestVal, .bestCount].contains r
  | .counter _ => true
  | _ => false

/-- The ENCODE row of the write-set table (20_memory.md R71). -/
def outputWrites : Loc → Bool
  | .reg r => [Reg.outLen, .matchCount, .delta].contains r
  | .outWord _ => true
  | _ => false

/-- The write set of each command (20_memory.md R71). -/
def writeSet : Instr → Loc → Bool
  | .nop, _ => false
  | .load, l => l = .reg .inLen
  | .getbit _, l => l = .reg .resultBit
  | .hist _, .reg r => [Reg.histW, .histSum, .histMax, .histMaxval, .histZeroval].contains r
  | .hist _, .counter _ => true
  | .hist _, _ => false
  | .escsearch, l => searchWrites l
  | .vicsearch, l => searchWrites l || outputWrites l || [Loc.reg .vicW, .reg .vicVal, .reg .closestDelta].contains l
  | .encode _ _, l => outputWrites l

/-- The location is in the write set of the command in flight; an illegal word's set is empty (20_memory.md R71). -/
def inFlightWrites (s : State) (l : Loc) : Bool :=
  s.status.busy && (decode (fetchWord s)).toOption.elim false (fun i => writeSet i l)

/-- A host read: the word it returns, and nothing else (20_memory.md R60, R63, R71). -/
def hostRead (a : Word) (s : State) : State :=
  let l := locOf s.params a
  if inFlightWrites s l then { s with rdata := unspecifiedRead s s.draws l, draws := s.draws + 1 }
  else { s with rdata := locRead s l }

/-- A write that is dropped, with HAZ, while a command runs (20_memory.md R72). -/
def unlessBusy (s s' : State) : State := if s.status.busy then setHaz s else s'

/-- MAXW takes a legal value and ignores any other (10_state.md R31). -/
def writeMaxw (d : Word) (s : State) : State :=
  if d.extractLsb' 6 26 = 0#26 ∧ 1 ≤ (d.extractLsb' 0 6).toNat ∧ (d.extractLsb' 0 6).toNat ≤ s.params.maxWidthHw then
    { s with maxw := d.extractLsb' 0 6 }
  else s

/-- A full-strobe host write to a register; a read-only register ignores it (10_state.md R23 to R43; 20_memory.md R70,
R72). -/
def regWrite (d : Word) (s : State) : Reg → State
  | .ctrl => { s with ie := d.getLsbD 0 }
  | .status => { s with status := s.status.writeOneToClear d }
  | .cmd => unlessBusy s (accept d s)
  | .maxw => unlessBusy s (writeMaxw d s)
  | .inNbytes => unlessBusy s { s with inNbytes := d }
  | .argIndex => unlessBusy s { s with argIndex := d }
  | .valA => unlessBusy s { s with valA := d }
  | .valB => unlessBusy s { s with valB := d }
  | .id => s
  | .param0 => s
  | .param1 => s
  | .param2 => s
  | .inLen => s
  | .resultBit => s
  | .histW => s
  | .histSum => s
  | .histMax => s
  | .histMaxval => s
  | .histZeroval => s
  | .escW => s
  | .escVal => s
  | .bestW => s
  | .bestVal => s
  | .bestCount => s
  | .vicW => s
  | .vicVal => s
  | .outLen => s
  | .matchCount => s
  | .delta => s
  | .closestDelta => s

/-- The byte lanes of word `m` of IN_MEM that a write with strobes `be` reaches: strobed, and inside the capacity
(20_memory.md R62, R65). -/
def inLanes (p : Params) (m : Nat) (be : BitVec 4) : List Nat :=
  (List.range 4).filter (fun j => be.getLsbD j && decide (4 * m + j < p.inCapBytes))

/-- A strobed write of `d` to word `m` of IN_MEM (20_memory.md R62, R65). -/
def inWordWrite (m : Nat) (d : Word) (be : BitVec 4) (s : State) : State :=
  { s with
    inMem := (inLanes s.params m be).foldl (fun mem j => mem.write (4 * m + j) (byteOf d j)) s.inMem }

/-- A host write (20_memory.md R60 to R67, R72). A register write needs all four strobes; OUT_MEM, HIST_MEM and reserved
addresses ignore writes. -/
def hostWrite (a d : Word) (be : BitVec 4) (s : State) : State :=
  match locOf s.params a with
  | .reg r => if be = 0xF#4 then regWrite d s r else s
  | .inWord m => if inLanes s.params m be = [] then s else unlessBusy s (inWordWrite m d be s)
  | .outWord _ => s
  | .counter _ => s
  | .reserved => s

/-- The step of one input (60_exceptions.md R188). -/
def perform (x : Input) (s : State) : State :=
  match x with
  | .read a => hostRead a s
  | .write a d be => hostWrite a d be s
  | .reset => assertReset s

/-- The input whose turn it is, with the state it finds: the first pending one, unless it is late and a command is in
flight (60_exceptions.md R188; log 1). -/
def dueInput (s : State) : Option (Input × State) :=
  match s.turns with
  | [] => none
  | t :: rest => if t.late && s.status.busy then none else some (t.input, { s with turns := rest })

/-- The pending inputs with the first of them put after the completion of the command in flight (log 2). -/
def deferFirst : List Turn → List Turn
  | [] => []
  | t :: rest => { t with late := true } :: rest

/-- The completion of an illegal word: STATUS only (30_encoding.md R94; 60_exceptions.md R182). -/
def illegalStep (s : State) : Host.Outcome State Fault Refusal := raiseError .illegalCommand s

end Sys2Proof.Machine
end

