-- ==== Sys2Proof/Machine/Step.lean ====
section
/-! DEFINITION. One step of the BPFA: an input, the completion of the command in flight, or nothing while the block is
idle with no input (10_state.md R20; 20_memory.md R70; 60_exceptions.md R188, R195). -/

namespace Sys2Proof.Machine

/-- The engine's step: it completes the command in flight (20_memory.md R70; 60_exceptions.md R182). -/
def engineStep (s : State) : Host.Outcome State Fault Refusal :=
  match decode (fetchWord s) with
  | .ok i => exec i s
  | .error _ => illegalStep s

/-- One step. -/
def step (s : State) : Host.Outcome State Fault Refusal :=
  match dueInput s with
  | some (x, s') => .next (perform x s')
  | none => if s.status.busy then engineStep s else .next s

/-- `s` with the command of the opcode table's bits `w` accepted (20_memory.md R70) and its completion the very next
step (log 2). -/
def State.withFetchWord (s : State) (nbits w : Nat) : State :=
  { accept (tableWord nbits w) s with turns := deferFirst s.turns }

end Sys2Proof.Machine
end

