-- ==== Sys2Proof/Machine/HostProgram.lean ====
section
/-! DEFINITION. Host programs (30_encoding.md R96 to R98): their lines, what each line does at the port, and the run of a
program against the machine, move by move. Where a completion falls among the host's transactions is free (60_exceptions.md
R188; 93 U7): every move takes it as an argument. -/

namespace Sys2Proof.Machine

/-- A location of a host operation: a register by name, or an address (30_encoding.md R97). -/
inductive HostLoc
  /-- A register of 10_state.md R23. -/
  | reg (r : Reg)
  /-- A byte address. -/
  | addr (a : Word)
deriving DecidableEq, Repr

/-- A host operation (30_encoding.md R97). -/
inductive HostOp
  /-- `WR loc, v`. -/
  | wr (loc : HostLoc) (v : Word)
  /-- `WRB addr, v`. -/
  | wrb (a : Word) (v : Byte)
  /-- `RD loc`. -/
  | rd (loc : HostLoc)
  /-- A command mnemonic, meaning `WR CMD, word`. -/
  | cmd (i : Instr)
deriving DecidableEq, Repr

/-- A line of a host program: a host operation or a pseudo-instruction (30_encoding.md R97, R98). -/
inductive HostLine
  | op (o : HostOp)
  /-- `WAIT`. -/
  | wait
  /-- `DO cmd`. -/
  | doCmd (i : Instr)
  /-- `ACK`. -/
  | ack
  /-- `SETMAXW w`. -/
  | setMaxw (w : Word)
  /-- `LOADB b0, b1, …`. -/
  | loadb (bytes : List Byte)
  /-- `GET.I k`. -/
  | getI (k : Word)
  /-- `GET.O k`. -/
  | getO (k : Word)
  /-- `ENC vw, vv, rw, rv`. -/
  | enc (vw : Nat) (vv : Word) (rw : Nat) (rv : Word)
deriving DecidableEq, Repr

/-- The byte address of a location (10_state.md R23). -/
def HostLoc.address : HostLoc → Word
  | .reg r => BitVec.ofNat 32 r.offset
  | .addr a => a

/-- The transaction of a host operation (30_encoding.md R97); none where the assembler refuses the command (R96). DESIGN
CHOICE (log 18): the lanes of a WRB that are not strobed carry 0. -/
def HostOp.input : HostOp → Option Input
  | .wr loc v => some (.write loc.address v 0xF#4)
  | .wrb a v => some (.write a (v.zeroExtend 32 <<< (8 * (a.toNat % 4))) (1#4 <<< (a.toNat % 4)))
  | .rd loc => some (.read loc.address)
  | .cmd i => (assemble i).map (fun c => .write (HostLoc.reg .cmd).address c 0xF#4)

/-- What a host program does next, once expanded (30_encoding.md R98). -/
inductive HostAct
  /-- One operation. -/
  | once (o : HostOp)
  /-- `loop: RD STATUS`, repeated while bit [0] of the value read is 1. -/
  | wait
deriving DecidableEq, Repr

/-- `DO cmd` (30_encoding.md R98). -/
def doActs (i : Instr) : List HostAct := [.once (.cmd i), .wait]

/-- The word of four bytes from index `4m`, missing bytes 0 (30_encoding.md R98, LOADB). -/
def loadbWord (bytes : List Byte) (m : Nat) : Word :=
  bytes.getD (4 * m + 3) 0#8 ++ bytes.getD (4 * m + 2) 0#8 ++ bytes.getD (4 * m + 1) 0#8 ++ bytes.getD (4 * m) 0#8

/-- The expansion of a line, the table of 30_encoding.md R98. DESIGN CHOICE (log 20): for a LOADB so long that the address
of a word or the count of bytes does not fit 32 bits, R98 names no WR, and the model takes each modulo 2^32. -/
def HostLine.acts : HostLine → List HostAct
  | .op o => [.once o]
  | .wait => [.wait]
  | .doCmd i => doActs i
  | .ack => [.once (.wr (.reg .status) 0x00000002#32)]
  | .setMaxw w => [.once (.wr (.reg .maxw) w)]
  | .loadb bytes =>
    (List.range (wordsFor bytes.length)).map
        (fun m => HostAct.once (.wr (.addr (BitVec.ofNat 32 (inBase + 4 * m))) (loadbWord bytes m))) ++
      .once (.wr (.reg .inNbytes) (BitVec.ofNat 32 bytes.length)) :: doActs .load
  | .getI k => .once (.wr (.reg .argIndex) k) :: doActs (.getbit .ibuf) ++ [.once (.rd (.reg .resultBit))]
  | .getO k => .once (.wr (.reg .argIndex) k) :: doActs (.getbit .obuf) ++ [.once (.rd (.reg .resultBit))]
  | .enc vw vv rw rv => .once (.wr (.reg .valA) vv) :: .once (.wr (.reg .valB) rv) :: doActs (.encode vw rw)

/-- The input of an act: its transaction, and for a WAIT the read of STATUS. -/
def HostAct.input : HostAct → Option Input
  | .once o => o.input
  | .wait => (HostOp.rd (.reg .status)).input

/-- The assembled program: its acts, each with its input; none where the assembler refuses a command of it (30_encoding.md
R96). -/
def assembleProgram (lines : List HostLine) : Option (List (HostAct × Input)) :=
  (lines.flatMap HostLine.acts).mapM (fun a => a.input.map (fun x => (a, x)))

/-- A host program at work: what it has still to do, and the machine. -/
structure Session where
  /-- The acts to come, each with its input. -/
  acts : List (HostAct × Input)
  /-- The machine, whose inputs are the program's own: a move sets its pending inputs. -/
  machine : State
deriving DecidableEq, Repr

/-- The engine completes the command in flight before the host's next transaction: the free choice `engineFirst` of
60_exceptions.md R188, where there is a command in flight. -/
def Session.completes (engineFirst : Bool) (c : Session) : Bool := engineFirst && c.machine.status.busy

/-- The pending inputs of a move: none where the engine completes first, else the next input of the program. -/
def Session.turns (engineFirst : Bool) (c : Session) : List Turn :=
  if c.completes engineFirst then [] else (c.acts.take 1).map (fun a => { late := false, input := a.2 })

/-- What the program has still to do after its next transaction left the machine `t`: a WAIT repeats while bit [0] of the
word it read is 1 (30_encoding.md R98). -/
def actsAfter (t : State) : List (HostAct × Input) → List (HostAct × Input)
  | [] => []
  | (.once _, _) :: rest => rest
  | (.wait, x) :: rest => if t.rdata.getLsbD 0 then (.wait, x) :: rest else rest

/-- One move of a host program and the machine: one step of the machine, on the input the program issues or on none. Where
the completion of a command falls among the host's transactions is free (60_exceptions.md R188; 93 U7), also after a
command that no WAIT follows: `engineFirst` is that choice, made at each move (log 18). -/
def Session.move (engineFirst : Bool) (c : Session) : Host.Outcome Session Fault Refusal :=
  match step { c.machine with turns := c.turns engineFirst } with
  | .next t => .next { acts := if c.completes engineFirst then c.acts else actsAfter t c.acts, machine := t }
  | .fault f => .fault f
  | .refused r => .refused r

/-- The run of a host program under a list of choices, one for each move. -/
def Session.run : List Bool → Session → Host.Outcome Session Fault Refusal
  | [], c => .next c
  | e :: rest, c =>
    match c.move e with
    | .next d => Session.run rest d
    | .fault f => .fault f
    | .refused r => .refused r

end Sys2Proof.Machine
end

