-- ==== Sys2Proof/Safety.lean ====
section
/-! DEFINITION. The terms of the claims: what a safe run of the host is, the invariant of the machine, frames, and the
spec's counting and selection rules stated over all values, apart from how the machine computes them. -/

namespace Sys2Proof.Machine

/-- The host's program has violated the precondition of GETBIT (60_exceptions.md R185; 93 G1): the last completed command
ended with IndexOutOfRange. A safe run reaches no such state. -/
abbrev State.hostViolation (s : State) : Prop := s.status.code = .indexOutOfRange

/-- A run of `n` steps in which the host violates no precondition. -/
def SafeRun (n : Nat) (s : State) : Prop :=
  ∀ k ≤ n, ∀ t, Host.Core.run Sys2Proof.core k s = .next t → ¬ State.hostViolation t

/-- STATUS after a completion with code `e`, by the sentence of 20_memory.md R70. -/
def completedStatus (e : ErrorCode) (t : Status) : Status :=
  { busy := false, done := true, err := decide (e ≠ .success), haz := t.haz, code := e, lastop := t.lastop }

/-- Every register but those listed reads the same in both states. -/
def RegsKept (except : List Reg) (s t : State) : Prop := ∀ r, r ∉ except → regRead t r = regRead s r

/-- Every byte of IN_MEM is the same. -/
def InMemKept (s t : State) : Prop := ∀ k, t.inByte k = s.inByte k

/-- Every byte of OUT_MEM is the same. -/
def OutMemKept (s t : State) : Prop := ∀ k, t.outByte k = s.outByte k

/-- Every counter of HIST_MEM is the same. -/
def HistMemKept (s t : State) : Prop := ∀ k, t.histCounter k = s.histCounter k

/-- What no command touches: the build, the pending inputs and the port's last word. -/
def OutsideKept (s t : State) : Prop := t.params = s.params ∧ t.turns = s.turns ∧ t.rdata = s.rdata

/-- OBUF is the bit sequence `x`: its length, its bits, and the unused high bits of its last byte 0 (10_state.md R49). -/
def ObufIs (t : State) (x : List Bool) : Prop :=
  t.outLen.toNat = x.length ∧ (∀ k, k < x.length → x[k]? = some (t.obuf k)) ∧
    ∀ k, x.length ≤ k → k < 8 * ((x.length + 7) / 8) → t.obuf k = false

/-- The window value as the sum of 00_scope.md R7. -/
def windowSum (b : Nat → Bool) (i w : Nat) : Nat := ∑ k ∈ Finset.range w, (b (i + k)).toNat * 2 ^ (w - 1 - k)

/-- `h_w(p)` (41_histogram.md R120): how many starts `0 .. len - w - 1` have a window of value `p`. -/
def occurrences (b : Nat → Bool) (len w p : Nat) : Nat :=
  ((Finset.range (len - w)).filter (fun i => windowSum b i w = p)).card

/-- The `n` low bits of `v`, most significant first, by the binary digits of `v` (00_scope.md R6). -/
def digitsMsb (v n : Nat) : List Bool := List.ofFn (fun k : Fin n => v / 2 ^ (n - 1 - k) % 2 == 1)

/-- The bits of `b` from `i` up to, not including, `j`. -/
def bitsBetween (b : Nat → Bool) (i j : Nat) : List Bool := List.ofFn (fun k : Fin (j - i) => b (i + k))

/-- The header of an output, field by field (43_encoder.md R163, R164). -/
def headerBits (vv vw rv rw : Nat) : List Bool :=
  digitsMsb (vw - 1) 5 ++ digitsMsb vv vw ++ digitsMsb (rw - 1) 5 ++ digitsMsb rv rw

/-- The body of an output whose matches start at `starts`: from position `i`, the input bits up to each match, the
replacement in the place of its `vw` bits, and after the last match the rest of the input (43_encoder.md R166). -/
def spliced (b : Nat → Bool) (len vw : Nat) (repl : List Bool) : (i : Nat) → (starts : List Nat) → List Bool
  | i, [] => bitsBetween b i len
  | i, j :: rest => bitsBetween b i j ++ repl ++ spliced b len vw repl (j + vw) rest

/-- `c` is the largest count at width `w` (42_width_selector.md R140). -/
def IsMaxCount (b : Nat → Bool) (len w c : Nat) : Prop := IsGreatest {c | ∃ p, p < 2 ^ w ∧ occurrences b len w p = c} c

/-- `v` is `mostfreq(w)`: the lowest value with the largest count (42_width_selector.md R140). -/
def IsMostFreq (b : Nat → Bool) (len w v : Nat) : Prop :=
  IsLeast {p | p < 2 ^ w ∧ IsMaxCount b len w (occurrences b len w p)} v

/-- `hasZero(w)`: some value of width `w` has count 0 (42_width_selector.md R140). -/
def HasAbsent (b : Nat → Bool) (len w : Nat) : Prop := ∃ p, p < 2 ^ w ∧ occurrences b len w p = 0

/-- `v` is `firstZero(w)`: the lowest value with count 0 (42_width_selector.md R140). -/
def IsFirstAbsent (b : Nat → Bool) (len w v : Nat) : Prop := IsLeast {p | p < 2 ^ w ∧ occurrences b len w p = 0} v

/-- Mode A examines width `w`: it has data and no narrower width has a zero count (42_width_selector.md R142, R143). -/
def Examined (s : State) (w : Nat) : Prop :=
  1 ≤ w ∧ w ≤ s.maxw.toNat ∧ w < s.inBits ∧ ∀ w', 1 ≤ w' → w' < w → ¬ HasAbsent s.ibuf s.inBits w'

/-- Mode A's escape is the value `e` of width `w` (42_width_selector.md R142). -/
def IsEscape (s : State) (w e : Nat) : Prop := Examined s w ∧ IsFirstAbsent s.ibuf s.inBits w e

/-- Mode A finds no escape (42_width_selector.md R142, R143, R145). -/
def NoEscape (s : State) : Prop := ∀ w, Examined s w → ¬ HasAbsent s.ibuf s.inBits w

/-- What BEST_W, BEST_VAL and BEST_COUNT hold after Mode A: all 0 when no width was examined, else the largest count over
the examined widths, the narrowest width that has it, and the lowest value there that has it (42_width_selector.md
R144). -/
def BestIs (s : State) (w v c : Nat) : Prop :=
  ((∀ w', ¬ Examined s w') ∧ w = 0 ∧ v = 0 ∧ c = 0) ∨
    (IsGreatest {c | ∃ w', Examined s w' ∧ ∃ p, p < 2 ^ w' ∧ occurrences s.ibuf s.inBits w' p = c} c ∧
      IsLeast {w | Examined s w ∧ ∃ p, p < 2 ^ w ∧ occurrences s.ibuf s.inBits w p = c} w ∧
      IsLeast {p | p < 2 ^ w ∧ occurrences s.ibuf s.inBits w p = c} v)

/-- Width `v` with victim value `mv` is evaluated by Mode B for the escape `(w0, e)` and gives the output `x` with `n`
matches (42_width_selector.md R150, R151). -/
def Evaluated (s : State) (w0 e v mv : Nat) (x : List Bool) (n : Nat) : Prop :=
  w0 < v ∧ v ≤ s.maxw.toNat ∧ v < s.inBits ∧ IsMostFreq s.ibuf s.inBits v mv ∧
    encodeImage s.ibuf s.inBits mv v e w0 = (x, n)

/-- The invariant of the machine: what every step keeps from every state that has it. -/
structure State.Inv (s : State) : Prop where
  /-- The build parameters are legal (00_scope.md R3). -/
  legal : s.params.legal
  /-- `1 <= MAXW` (10_state.md R31). -/
  maxwLow : 1 ≤ s.maxw.toNat
  /-- `MAXW <= MAX_WIDTH_HW` (10_state.md R31). -/
  maxwHigh : s.maxw.toNat ≤ s.params.maxWidthHw
  /-- IN_LEN is a multiple of 8 (10_state.md R33). -/
  inLenBytes : s.inLen.toNat % 8 = 0
  /-- IN_LEN is at most `8 * IN_CAP_BYTES` (10_state.md R33). -/
  inLenCap : s.inLen.toNat ≤ 8 * s.params.inCapBytes
  /-- OBUF fits OUT_MEM (43_encoder.md R171). -/
  outLenCap : s.outLen.toNat ≤ s.params.outCapBits
  /-- While a command runs, DONE and CODE are clear (20_memory.md R70). -/
  busyClear : s.status.busy = true → s.status.done = false ∧ s.status.code = .success
  /-- ERR says whether CODE is other than 0 (10_state.md R29). -/
  errCode : s.status.err = decide (s.status.code ≠ .success)
  /-- LASTOP is bits [3:0] of CMD (10_state.md R29, R30). -/
  lastopCmd : s.status.lastop = s.cmd.extractLsb' 0 4
  /-- While a search runs, HVALID is 0 (42_width_selector.md R141). -/
  searchHvalid : s.status.busy = true → isSearchWord s.cmd = true → s.histW.hvalid = false
  /-- While HVALID is 1, every counter of HIST_MEM is determined (10_state.md R37; 70_reset_and_hazards.md R225). -/
  hvalidFill : s.histW.hvalid = true → s.histMem.fill = .zero
  /-- The histogram registers hold a pattern width the build supports and values of that width (00_scope.md R4). -/
  histWidth : s.histW.width.toNat ≤ s.params.maxWidthHw
  histMaxval : s.histMaxval.toNat < 2 ^ s.histW.width.toNat
  histZeroval : s.histZeroval.toNat < 2 ^ s.histW.width.toNat
  /-- No count exceeds the number of counted windows, and that fits IBUF (41_histogram.md R126). -/
  histMaxSum : s.histMax.toNat ≤ s.histSum.toNat
  histSumCap : s.histSum.toNat ≤ 8 * s.params.inCapBytes
  /-- The result patterns have widths the build supports and values of their width (00_scope.md R4). -/
  escWidth : s.escW.toNat ≤ s.params.maxWidthHw
  escValue : s.escVal.toNat < 2 ^ s.escW.toNat
  bestWidth : s.bestW.toNat ≤ s.params.maxWidthHw
  bestValue : s.bestVal.toNat < 2 ^ s.bestW.toNat
  vicWidth : s.vicW.toNat ≤ s.params.maxWidthHw
  vicValue : s.vicVal.toNat < 2 ^ s.vicW.toNat
  /-- The memories are in canonical form, inside their capacities (10_state.md R45 to R47). -/
  inWf : s.inMem.wf
  outWf : s.outMem.wf
  histWf : s.histMem.wf
  inBound : ∀ c ∈ s.inMem.cells, c.1 < s.params.inCapBytes
  outBound : ∀ c ∈ s.outMem.cells, c.1 < s.params.outBytes
  histBound : ∀ c ∈ s.histMem.cells, c.1 < 2 ^ s.params.histVisW
  /-- Every byte of OBUF has been written, and the unused high bits of its last byte are 0 (10_state.md R49). -/
  outListed : ∀ k, k < bytesFor s.outLen.toNat → (cellAt s.outMem.cells k).isSome = true
  outPadding : ∀ k, s.outLen.toNat ≤ k → k < 8 * bytesFor s.outLen.toNat → s.obuf k = false
  /-- A new free draw is new to each memory. -/
  inFresh : ∀ d, s.inMem.fill = .drawn d → d < s.draws
  outFresh : ∀ d, s.outMem.fill = .drawn d → d < s.draws
  histFresh : ∀ d, s.histMem.fill = .drawn d → d < s.draws

/-- Two states agree on everything a command may read (00_scope.md R10; 10_state.md R51): the build, MAXW, the argument
registers, the lengths and the bits of the two BitBuffers. -/
structure SameOperands (s t : State) : Prop where
  params : t.params = s.params
  maxw : t.maxw = s.maxw
  inNbytes : t.inNbytes = s.inNbytes
  inLen : t.inLen = s.inLen
  argIndex : t.argIndex = s.argIndex
  valA : t.valA = s.valA
  valB : t.valB = s.valB
  outLen : t.outLen = s.outLen
  ibuf : ∀ k, k < s.inLen.toNat → t.ibuf k = s.ibuf k
  obuf : ∀ k, k < s.outLen.toNat → t.obuf k = s.obuf k

/-- The registers whose value a command computes when it runs to its end: its write set (20_memory.md R71), but for
HIST_W of the searches, of which they only clear HVALID (42_width_selector.md R141). -/
def computes (i : Instr) (r : Reg) : Bool :=
  writeSet i (.reg r) && !((i == .escsearch || i == .vicsearch) && r == .histW)

end Sys2Proof.Machine
end

