-- ==== Sys2Proof/Certificates/Slice0/Obligations.lean ====
section
/-! DEFINITION. The statements for the provers. Each docstring names the rules of spec/ it formalises. A statement that
rests on a choice of the model says so and names the log entry. -/

open Sys2Proof Sys2Proof.Machine

/-! ### Encoding (30_encoding.md) -/

/-- R91, R92, R93, R95: the word of every well-formed command decodes to it, at every value of every operand. -/
def Obligations.DecodeOfEncode : Prop := ∀ i : Instr, i.wellFormed = true → decode (encode i) = .ok i

/-- R91, R92, R93, R95: a word that decodes to a command is the word of that command, and the command is well formed: each
command has one word. -/
def Obligations.EncodeOfDecode : Prop := ∀ (c : Word) (i : Instr), decode c = .ok i → i.wellFormed = true ∧ encode i = c

/-- R93, R95: a word decodes to a command exactly when `c & mask = match` for the command's row, with the field values of
the word, and to none when it matches no row; it matches no more than one row. -/
def Obligations.LegalWordsMatchOneRow : Prop :=
  let rows : List (Word × Word) :=
    [(0x00000000#32, 0xFFFFFFFF#32), (0x00000001#32, 0xFFFFFFFF#32), (0x00000002#32, 0xFFFFFFEF#32),
      (0x00000003#32, 0xFFFFC0FF#32), (0x00000004#32, 0xFFFFFFFF#32), (0x00000005#32, 0xFFFFFFFF#32),
      (0x00000006#32, 0xFFC0C0FF#32)]
  ∀ c : Word,
    (decode c = .ok .nop ↔ c &&& 0xFFFFFFFF#32 = 0x00000000#32) ∧
    (decode c = .ok .load ↔ c &&& 0xFFFFFFFF#32 = 0x00000001#32) ∧
    (∀ src, decode c = .ok (.getbit src) ↔
      c &&& 0xFFFFFFEF#32 = 0x00000002#32 ∧ src = if c.getLsbD 4 then Src.obuf else Src.ibuf) ∧
    (∀ w, decode c = .ok (.hist w) ↔ c &&& 0xFFFFC0FF#32 = 0x00000003#32 ∧ w = c.toNat / 2 ^ 8 % 2 ^ 6) ∧
    (decode c = .ok .escsearch ↔ c &&& 0xFFFFFFFF#32 = 0x00000004#32) ∧
    (decode c = .ok .vicsearch ↔ c &&& 0xFFFFFFFF#32 = 0x00000005#32) ∧
    (∀ vw rw, decode c = .ok (.encode vw rw) ↔
      c &&& 0xFFC0C0FF#32 = 0x00000006#32 ∧ vw = c.toNat / 2 ^ 8 % 2 ^ 6 ∧ rw = c.toNat / 2 ^ 16 % 2 ^ 6) ∧
    ((∃ why, decode c = .error why) ↔ ∀ r ∈ rows, c &&& r.2 ≠ r.1) ∧
      ∀ r ∈ rows, ∀ r' ∈ rows, c &&& r.2 = r.1 → c &&& r'.2 = r'.1 → r = r'

/-- R95, with the words of 95_test_vectors.md section 2: legal words decode to their commands, illegal ones to none. -/
def Obligations.SpecWordsDecode : Prop :=
  decode 0x00000000#32 = .ok .nop ∧ decode 0x00000001#32 = .ok .load ∧
    decode 0x00000002#32 = .ok (.getbit .ibuf) ∧ decode 0x00000012#32 = .ok (.getbit .obuf) ∧
    decode 0x00000203#32 = .ok (.hist 2) ∧ decode 0x00002003#32 = .ok (.hist 32) ∧
    decode 0x00000003#32 = .ok (.hist 0) ∧ decode 0x00003F03#32 = .ok (.hist 63) ∧
    decode 0x00000004#32 = .ok .escsearch ∧ decode 0x00000005#32 = .ok .vicsearch ∧
    decode 0x00010806#32 = .ok (.encode 8 1) ∧ decode 0x00011006#32 = .ok (.encode 16 1) ∧
    ([0x00000007#32, 0x0000000F#32, 0x00000104#32, 0x00000022#32, 0x00010003#32, 0x00004206#32, 0x80000000#32,
      0x00000013#32] : List Word).all (fun c => (decode c).toOption.isNone) = true

/-- R96: the assembler's words, and its refusal of a width operand outside 0 to 63. -/
def Obligations.AssemblerWords : Prop :=
  assemble .nop = some 0x00000000#32 ∧ assemble .load = some 0x00000001#32 ∧
    assemble (.getbit .ibuf) = some 0x00000002#32 ∧ assemble (.getbit .obuf) = some 0x00000012#32 ∧
    assemble .escsearch = some 0x00000004#32 ∧ assemble .vicsearch = some 0x00000005#32 ∧
    (∀ w, w ≤ 63 → assemble (.hist w) = some (BitVec.ofNat 32 (3 + w * 2 ^ 8))) ∧
    (∀ w, 63 < w → assemble (.hist w) = none) ∧
    (∀ vw rw, vw ≤ 63 → rw ≤ 63 →
      assemble (.encode vw rw) = some (BitVec.ofNat 32 (6 + vw * 2 ^ 8 + rw * 2 ^ 16))) ∧
    ∀ vw rw, 63 < vw ∨ 63 < rw → assemble (.encode vw rw) = none

/-! ### Steps, acceptance and completion (10_state.md, 20_memory.md, 60_exceptions.md) -/

/-- R22, R70: with a command in flight and no pending input before its completion, the step is the completion of the
command that CMD holds: exec of the decoded instruction at that very state; an accepted word of the opcode table is
so executed. (The pending inputs and their marks are the model's, logs 1 and 2.) -/
def Obligations.StepRunsDecodedCommand : Prop :=
  (∀ (s : State) (i : Instr), s.status.busy = true → (∀ t ∈ s.turns.head?, t.late = true) → decode s.cmd = .ok i →
    i.wellFormed = true ∧ step s = exec i s) ∧
  ∀ (s : State) (w : Nat) (i : Instr), decodeTableWord 32 w = some i →
    step (s.withFetchWord 32 w) = exec i (s.withFetchWord 32 w)

/-- R188, R195: a pending input is performed when no command is in flight or when it is marked early; with none pending
the idle block keeps all its state. (The marks are the model's, log 1.) -/
def Obligations.StepPerformsPendingInput : Prop :=
  (∀ (s : State) (t : Turn) (rest : List Turn), s.turns = t :: rest → (s.status.busy = false ∨ t.late = false) →
    step s = .next (perform t.input { s with turns := rest })) ∧
  ∀ s : State, s.turns = [] → s.status.busy = false → step s = .next s

/-- R60, R180: every step answers a next state: no command, no word and no transaction stops the machine. -/
def Obligations.EveryStepHasNextState : Prop := ∀ s : State, ∃ t, step s = .next t

/-- R70: a full-strobe host write of `c` to CMD while BUSY = 0 accepts `c`: CMD, STATUS and, for a legal search word,
HVALID change, and nothing else does. -/
def Obligations.AcceptanceWrites : Prop :=
  ∀ (s : State) (a c : Word), a.toNat / 4 = 0x018 / 4 → s.status.busy = false →
    hostWrite a c 0xF#4 s =
      { s with
        cmd := c
        status := { busy := true, done := false, err := false, haz := s.status.haz, code := .success,
                    lastop := c.extractLsb' 0 4 }
        histW := { s.histW with
          hvalid := s.histW.hvalid && !(decide (c = 0x00000004#32) || decide (c = 0x00000005#32)) } }

/-- R70, R180: every command, at every state and operand, completes in one step that writes STATUS by the sentence of R70
and changes neither CMD nor any operand, nor what lies outside the block. -/
def Obligations.EveryCommandCompletes : Prop :=
  ∀ (i : Instr) (s : State), ∃ (e : ErrorCode) (t : State), exec i s = .next t ∧ t.status = completedStatus e s.status ∧
    t.cmd = s.cmd ∧ t.ie = s.ie ∧ t.maxw = s.maxw ∧ t.inNbytes = s.inNbytes ∧ t.argIndex = s.argIndex ∧
    t.valA = s.valA ∧ t.valB = s.valB ∧ t.inMem = s.inMem ∧ OutsideKept s t

/-- R181, R183: each command ends only with the codes listed for it. -/
def Obligations.CodesOfEachCommand : Prop :=
  ∀ (i : Instr) (s t : State), exec i s = .next t →
    match i with
    | .nop => t.status.code = .success
    | .load => t.status.code = .success ∨ t.status.code = .capacityExceeded
    | .getbit _ => t.status.code = .success ∨ t.status.code = .indexOutOfRange
    | .hist _ => t.status.code = .success ∨ t.status.code = .invalidPatternWidth
    | .escsearch => t.status.code = .success ∨ t.status.code = .noEscapeFound
    | .vicsearch =>
      t.status.code = .success ∨ t.status.code = .noEscapeFound ∨ t.status.code = .noBeneficialSubstitution
    | .encode _ _ =>
      t.status.code = .success ∨ t.status.code = .invalidPatternWidth ∨ t.status.code = .invalidPatternValue ∨
        t.status.code = .capacityExceeded

/-- R182: an illegal word in flight completes with code 5 and writes nothing but STATUS; from its acceptance to its
completion it writes nothing but STATUS and CMD, which holds the word, and LASTOP holds the word's bits [3:0]. (The
premise on the pending inputs is of the model's schedule, log 1.) -/
def Obligations.IllegalWordCompletes : Prop :=
  (∀ (s : State) (why : Illegal), s.status.busy = true → (∀ t ∈ s.turns.head?, t.late = true) →
    decode s.cmd = .error why →
    step s = .next { s with status := completedStatus .illegalCommand s.status }) ∧
  ∀ (s : State) (a c : Word) (why : Illegal), a.toNat / 4 = 0x018 / 4 → s.status.busy = false →
    (∀ t ∈ s.turns.head?, t.late = true) → decode c = .error why →
    step (hostWrite a c 0xF#4 s) = .next { s with
      cmd := c
      status := { busy := false, done := true, err := true, haz := s.status.haz, code := .illegalCommand,
                  lastop := c.extractLsb' 0 4 } }

/-- R71, R180: after a completion every location outside the command's write set, but STATUS, reads what it read before;
IN_MEM is unchanged, and OUT_MEM and HIST_MEM are unchanged unless they are in the write set. -/
def Obligations.WriteSetFrame : Prop :=
  ∀ (i : Instr) (s t : State), exec i s = .next t →
    (∀ l, writeSet i l = false → l ≠ .reg .status → locRead t l = locRead s l) ∧ InMemKept s t ∧
      ((∀ m, writeSet i (.outWord m) = false) → OutMemKept s t) ∧
      ((∀ k, writeSet i (.counter k) = false) → HistMemKept s t)

/-- R71: the write sets, row by row of the table, as the registers and memories they hold. -/
def Obligations.WriteSetTable : Prop :=
  let regs (i : Instr) : List Reg := regsInOrder.filter (fun r => writeSet i (.reg r))
  let mems (i : Instr) (inM outM histM : Bool) : Prop :=
    ∀ k, writeSet i (.inWord k) = inM ∧ writeSet i (.outWord k) = outM ∧ writeSet i (.counter k) = histM ∧
      writeSet i .reserved = false
  (regs .nop = [] ∧ mems .nop false false false) ∧
  (regs .load = [.inLen] ∧ mems .load false false false) ∧
  (∀ src, regs (.getbit src) = [.resultBit] ∧ mems (.getbit src) false false false) ∧
  (∀ w, regs (.hist w) = [.histW, .histSum, .histMax, .histMaxval, .histZeroval] ∧ mems (.hist w) false false true) ∧
  (regs .escsearch = [.histW, .escW, .escVal, .bestW, .bestVal, .bestCount] ∧ mems .escsearch false false true) ∧
  (regs .vicsearch = [.histW, .escW, .escVal, .bestW, .bestVal, .bestCount, .vicW, .vicVal, .outLen, .matchCount,
      .delta, .closestDelta] ∧ mems .vicsearch false true true) ∧
  ∀ vw rw, regs (.encode vw rw) = [.outLen, .matchCount, .delta] ∧ mems (.encode vw rw) false true false

/-- R10, R51: a command is a function of its operands. In two states that agree on them, and however they differ
elsewhere, it ends with the same code, gives the same OBUF, and gives each register it computes the same value or leaves
that register alone in both. -/
def Obligations.CommandsDependOnOperandsOnly : Prop :=
  ∀ (i : Instr) (s s' t t' : State), SameOperands s s' → exec i s = .next t → exec i s' = .next t' →
    t'.status.code = t.status.code ∧ t'.outLen = t.outLen ∧ (∀ k, k < t.outLen.toNat → t'.obuf k = t.obuf k) ∧
    (∀ r, computes i r = true →
      regRead t' r = regRead t r ∨ (regRead t r = regRead s r ∧ regRead t' r = regRead s' r)) ∧
    ∀ w, i = .hist w → t.status.code = .success → ∀ k, t'.histCounter k = t.histCounter k

/-- R70, R229: a command in flight completes, or is abandoned by a reset, within one step more than there are pending
inputs, whatever they are. (That the pending inputs are a finite list is the model's fairness, log 1.) -/
def Obligations.CommandInFlightEnds : Prop :=
  ∀ s : State, s.status.busy = true → ∃ k t, k ≤ s.turns.length + 1 ∧ Host.Core.run Sys2Proof.core k s = .next t ∧
    t.status.busy = false

/-- R185 (93 G1): the only step that brings code 1 is the completion of a GETBIT whose index is at or above the length of
its buffer. -/
def Obligations.OnlyGetbitOutOfRangeViolates : Prop :=
  ∀ s t : State, step s = .next t → t.hostViolation →
    s.hostViolation ∨
      (s.status.busy = true ∧
        ((decode s.cmd = .ok (.getbit .ibuf) ∧ s.inLen.toNat ≤ s.argIndex.toNat) ∨
          (decode s.cmd = .ok (.getbit .obuf) ∧ s.outLen.toNat ≤ s.argIndex.toNat)))

/-- R112, R114, R124, R161, R162, R180, R183: an operand that fails its check ends the command with the code of that check
and writes nothing but STATUS; ENCODE checks its widths before its values. -/
def Obligations.OperandErrorsWriteNothing : Prop :=
  (∀ s : State, s.params.inCapBytes < s.inNbytes.toNat →
    exec .load s = .next { s with status := completedStatus .capacityExceeded s.status }) ∧
  (∀ s : State, s.inLen.toNat ≤ s.argIndex.toNat →
    exec (.getbit .ibuf) s = .next { s with status := completedStatus .indexOutOfRange s.status }) ∧
  (∀ s : State, s.outLen.toNat ≤ s.argIndex.toNat →
    exec (.getbit .obuf) s = .next { s with status := completedStatus .indexOutOfRange s.status }) ∧
  (∀ (s : State) (w : Nat), w < 1 ∨ s.maxw.toNat < w →
    exec (.hist w) s = .next { s with status := completedStatus .invalidPatternWidth s.status }) ∧
  (∀ (s : State) (vw rw : Nat), (vw < 1 ∨ s.maxw.toNat < vw ∨ rw < 1 ∨ s.maxw.toNat < rw) →
    exec (.encode vw rw) s = .next { s with status := completedStatus .invalidPatternWidth s.status }) ∧
  ∀ (s : State) (vw rw : Nat), 1 ≤ vw → vw ≤ s.maxw.toNat → 1 ≤ rw → rw ≤ s.maxw.toNat →
    (2 ^ vw ≤ s.valA.toNat ∨ 2 ^ rw ≤ s.valB.toNat) →
    exec (.encode vw rw) s = .next { s with status := completedStatus .invalidPatternValue s.status }

/-! ### BitBuffer commands (40_bitbuffer.md) -/

/-- R110: NOP writes STATUS only. -/
def Obligations.NopCompletes : Prop :=
  ∀ s : State, exec .nop s = .next { s with status := completedStatus .success s.status }

/-- R112: LOAD of at most IN_CAP_BYTES bytes sets IN_LEN to `8 * IN_NBYTES` and writes nothing else but STATUS. -/
def Obligations.LoadCompletes : Prop :=
  ∀ s : State, s.params.legal → s.inNbytes.toNat ≤ s.params.inCapBytes →
    ∃ n : Word, n.toNat = 8 * s.inNbytes.toNat ∧
      exec .load s = .next { s with inLen := n, status := completedStatus .success s.status }

/-- R113: after a successful LOAD of `n` bytes, bit `8i + j` of IBUF is bit `j` of byte `i`, and `L = 8n`; so it is in
every state `u` that still has that IN_LEN and those bytes of IN_MEM. -/
def Obligations.LoadRoundTrip : Prop :=
  ∀ s t u : State, s.params.legal → exec .load s = .next t → t.status.code = .success →
    u.inLen = t.inLen → (∀ k, k < s.inNbytes.toNat → u.inByte k = t.inByte k) →
    u.inBits = 8 * s.inNbytes.toNat ∧
      ∀ i j, i < s.inNbytes.toNat → j < 8 → u.ibuf (8 * i + j) = (((s.inByte i).toNat >>> j) % 2 == 1)

/-- R114: GETBIT with an index below the length of its buffer reads that bit, by the packing of R48 and R49, and writes
nothing but RESULT_BIT and STATUS. -/
def Obligations.GetbitCompletes : Prop :=
  (∀ s : State, s.argIndex.toNat < s.inLen.toNat →
    exec (.getbit .ibuf) s = .next { s with
      resultBit := ((s.inByte (s.argIndex.toNat / 8)).toNat >>> (s.argIndex.toNat % 8)) % 2 == 1
      status := completedStatus .success s.status }) ∧
  ∀ s : State, s.argIndex.toNat < s.outLen.toNat →
    exec (.getbit .obuf) s = .next { s with
      resultBit := ((s.outByte (s.argIndex.toNat / 8)).toNat >>> (s.argIndex.toNat % 8)) % 2 == 1
      status := completedStatus .success s.status }

/-! ### Windows and histograms (00_scope.md, 41_histogram.md) -/

/-- R7, R8: a window has the value of the sum of R7, and the shift-extend step gives the next window. -/
def Obligations.WindowIsShiftExtended : Prop :=
  ∀ (b : Nat → Bool) (i w : Nat), window b i w = windowSum b i w ∧
    (1 ≤ w → window b (i + 1) w = ((window b i w <<< 1) &&& (2 ^ w - 1)) ||| (b (i + w)).toNat)

/-- R122, with the counts of R120: the machine's count of each value is the number of counted starts with that window,
and the counts of a width add up to `max(0, L - w)`. -/
def Obligations.CountsAddUp : Prop :=
  ∀ (b : Nat → Bool) (len w : Nat),
    (∀ p, (countedWindows b len w).count p = occurrences b len w p) ∧
      ∑ p ∈ Finset.range (2 ^ w), (countedWindows b len w).count p = len - w

/-- R123: if a value of width `w` has count 0 and width `w + 1` has data, its two extensions have count 0 there. -/
def Obligations.AbsenceIsInherited : Prop :=
  ∀ (b : Nat → Bool) (len w p : Nat), 1 ≤ w → w + 1 < len → (countedWindows b len w).count p = 0 →
    (countedWindows b len (w + 1)).count (2 * p) = 0 ∧ (countedWindows b len (w + 1)).count (2 * p + 1) = 0

/-- R124, R125, R126: HIST of a legal width writes the number of windows, the largest count, the lowest value with it, the
lowest value with count 0, the flags, and every visible counter, and leaves every other register, IN_MEM and OUT_MEM
alone. -/
def Obligations.HistCompletes : Prop :=
  ∀ (s : State) (w : Nat), s.maxw.toNat ≤ 32 → 1 ≤ w → w ≤ s.maxw.toNat →
    ∃ t, exec (.hist w) s = .next t ∧ t.status = completedStatus .success s.status ∧
      t.histW.width.toNat = w ∧ t.histW.hvalid = true ∧ (t.histW.nodata = true ↔ s.inBits ≤ w) ∧
      (t.histW.zfound = true ↔ HasAbsent s.ibuf s.inBits w) ∧
      t.histSum.toNat = s.inBits - w ∧ IsMaxCount s.ibuf s.inBits w t.histMax.toNat ∧
      IsLeast {p | p < 2 ^ w ∧ occurrences s.ibuf s.inBits w p = t.histMax.toNat} t.histMaxval.toNat ∧
      (HasAbsent s.ibuf s.inBits w → IsFirstAbsent s.ibuf s.inBits w t.histZeroval.toNat) ∧
      (¬ HasAbsent s.ibuf s.inBits w → t.histZeroval = 0#32) ∧
      (∀ k, k < 2 ^ s.params.histVisW →
        (t.histCounter k).toNat = if k < 2 ^ w then occurrences s.ibuf s.inBits w k else 0) ∧
      RegsKept [.status, .histW, .histSum, .histMax, .histMaxval, .histZeroval] s t ∧ InMemKept s t ∧
      OutMemKept s t ∧ OutsideKept s t

/-! ### Width selection (42_width_selector.md) -/

/-- R140, R142: where some width with data up to MAXW has a value with count 0, ESCSEARCH completes with the narrowest such
width and the lowest such value; it writes ESC_*, BEST_* and HIST_MEM, clears HVALID, and leaves the rest alone. -/
def Obligations.EscsearchFindsEscape : Prop :=
  ∀ (s : State) (w e : Nat), s.maxw.toNat ≤ 32 → IsEscape s w e →
    ∃ t, exec .escsearch s = .next t ∧ t.status = completedStatus .success s.status ∧ t.escW.toNat = w ∧
      t.escVal.toNat = e ∧ t.histW = { s.histW with hvalid := false } ∧
      RegsKept [.status, .histW, .escW, .escVal, .bestW, .bestVal, .bestCount] s t ∧ InMemKept s t ∧ OutMemKept s t ∧
      OutsideKept s t

/-- R142, R143, R145: where no width with data up to MAXW has a value with count 0, ESCSEARCH ends with NoEscapeFound and
ESC_W and ESC_VAL 0; this is so for an empty IBUF. -/
def Obligations.EscsearchFindsNone : Prop :=
  (∀ s : State, NoEscape s →
    ∃ t, exec .escsearch s = .next t ∧ t.status = completedStatus .noEscapeFound s.status ∧ t.escW = 0#6 ∧
      t.escVal = 0#32 ∧ t.histW = { s.histW with hvalid := false } ∧
      RegsKept [.status, .histW, .escW, .escVal, .bestW, .bestVal, .bestCount] s t ∧ InMemKept s t ∧ OutMemKept s t ∧
      OutsideKept s t) ∧
  ∀ s : State, s.inBits = 0 → NoEscape s

/-- R144: after either search, and whether or not it found an escape, BEST_* hold the largest count over the widths
examined, the narrowest width that has it and the lowest value there. -/
def Obligations.SearchesKeepBest : Prop :=
  ∀ (i : Instr) (s t : State), s.maxw.toNat ≤ 32 → i = .escsearch ∨ i = .vicsearch → exec i s = .next t →
    BestIs s t.bestW.toNat t.bestVal.toNat t.bestCount.toNat

/-- R143: for a non-empty IBUF the no-data guard of Mode A never fires: where Mode A finds no escape, or a search ends with
NoEscapeFound, every width up to MAXW has data; and Mode A finds none just where no such width has a value with count 0. -/
def Obligations.NoDataGuardNeverFires : Prop :=
  ∀ s : State, 8 ≤ s.inBits →
    (s.modeA.escape = none → s.maxw.toNat < s.inBits) ∧
    (∀ (i : Instr) (t : State), i = .escsearch ∨ i = .vicsearch → exec i s = .next t →
      t.status.code = .noEscapeFound → s.maxw.toNat < s.inBits) ∧
    (s.modeA.escape = none ↔ ∀ w, 1 ≤ w → w ≤ s.maxw.toNat → ¬ HasAbsent s.ibuf s.inBits w)

/-- R150, R153: VICSEARCH accepts the widest width whose output is strictly shorter than the input: VIC_*, OBUF, MATCHES,
DELTA and CLOSEST_DELTA are of that width, and every other register and IN_MEM are left alone. -/
def Obligations.VicsearchAccepts : Prop :=
  ∀ (s : State) (w0 e v mv : Nat) (x : List Bool) (n : Nat), s.Inv → IsEscape s w0 e → Evaluated s w0 e v mv x n →
    x.length < s.inBits →
    (∀ v' mv' x' n', v < v' → Evaluated s w0 e v' mv' x' n' → s.inBits ≤ x'.length) →
    ∃ t, exec .vicsearch s = .next t ∧ t.status = completedStatus .success s.status ∧ t.escW.toNat = w0 ∧
      t.escVal.toNat = e ∧ t.vicW.toNat = v ∧ t.vicVal.toNat = mv ∧ ObufIs t x ∧ t.matchCount.toNat = n ∧
      t.delta.toInt = (x.length : Int) - s.inBits ∧ t.closestDelta = t.delta ∧
      t.histW = { s.histW with hvalid := false } ∧
      RegsKept [.status, .histW, .escW, .escVal, .bestW, .bestVal, .bestCount, .vicW, .vicVal, .outLen, .matchCount,
        .delta, .closestDelta] s t ∧ InMemKept s t ∧ OutsideKept s t

/-- R152: where no evaluated width gives a strictly shorter output, VICSEARCH ends with NoBeneficialSubstitution, OBUF is a
copy of IBUF, MATCHES and DELTA are 0, and VIC_* and CLOSEST_DELTA are the candidate with the smallest delta, the widest
on a tie, whose delta is not negative; all 0 when no width was evaluated. -/
def Obligations.VicsearchNotBeneficial : Prop :=
  ∀ (s : State) (w0 e : Nat), s.Inv → IsEscape s w0 e →
    (∀ v mv x n, Evaluated s w0 e v mv x n → s.inBits ≤ x.length) →
    ∃ t, exec .vicsearch s = .next t ∧ t.status = completedStatus .noBeneficialSubstitution s.status ∧
      t.escW.toNat = w0 ∧ t.escVal.toNat = e ∧ ObufIs t (slice s.ibuf 0 s.inBits) ∧ t.matchCount = 0#32 ∧
      t.delta = 0#32 ∧ 0 ≤ t.closestDelta.toInt ∧
      ((∀ v mv x n, ¬ Evaluated s w0 e v mv x n) → t.vicW = 0#6 ∧ t.vicVal = 0#32 ∧ t.closestDelta = 0#32) ∧
      (∀ v mv x n, Evaluated s w0 e v mv x n →
        (∃ x' n', Evaluated s w0 e t.vicW.toNat t.vicVal.toNat x' n' ∧
          t.closestDelta.toInt = (x'.length : Int) - s.inBits) ∧
        t.closestDelta.toInt ≤ (x.length : Int) - s.inBits ∧
        (t.closestDelta.toInt = (x.length : Int) - s.inBits → v ≤ t.vicW.toNat)) ∧
      t.histW = { s.histW with hvalid := false } ∧
      RegsKept [.status, .histW, .escW, .escVal, .bestW, .bestVal, .bestCount, .vicW, .vicVal, .outLen, .matchCount,
        .delta, .closestDelta] s t ∧ InMemKept s t ∧ OutsideKept s t

/-- R150: where Mode A finds no escape, VICSEARCH ends with NoEscapeFound, ESC_*, VIC_* and CLOSEST_DELTA 0, and OUT_MEM,
OUT_LEN, MATCHES and DELTA unchanged. -/
def Obligations.VicsearchFindsNoEscape : Prop :=
  ∀ s : State, NoEscape s →
    ∃ t, exec .vicsearch s = .next t ∧ t.status = completedStatus .noEscapeFound s.status ∧ t.escW = 0#6 ∧
      t.escVal = 0#32 ∧ t.vicW = 0#6 ∧ t.vicVal = 0#32 ∧ t.closestDelta = 0#32 ∧
      t.histW = { s.histW with hvalid := false } ∧
      RegsKept [.status, .histW, .escW, .escVal, .bestW, .bestVal, .bestCount, .vicW, .vicVal, .closestDelta] s t ∧
      InMemKept s t ∧ OutMemKept s t ∧ OutsideKept s t

/-- R151: a width with no data could not have reduced: the output at a width `v` above the escape's with `L <= v` is longer
than the input. -/
def Obligations.NoDataWidthsNeverReduce : Prop :=
  ∀ (b : Nat → Bool) (len vv vw rv rw : Nat), 1 ≤ rw → rw < vw → len ≤ vw →
    len < (encodeImage b len vv vw rv rw).1.length

/-! ### The encoder (43_encoder.md) -/

/-- R165, R169: the header has `10 + vw + rw` bits, from 12 to 74; an output with `n` matches has
`(10 + vw + rw) + n*rw + (L - n*vw)` bits, its matches covering no more than the input, and its delta is
`10 + vw + rw - n*(vw - rw)`. -/
def Obligations.ImageSize : Prop :=
  ∀ (b : Nat → Bool) (len vv vw rv rw : Nat), 1 ≤ vw →
    (header vv vw rv rw).length = 10 + vw + rw ∧
    (vw ≤ 32 → 1 ≤ rw → rw ≤ 32 → 12 ≤ (header vv vw rv rw).length ∧ (header vv vw rv rw).length ≤ 74) ∧
    (encodeImage b len vv vw rv rw).2 * vw ≤ len ∧
      (encodeImage b len vv vw rv rw).1.length =
        (10 + vw + rw) + (encodeImage b len vv vw rv rw).2 * rw + (len - (encodeImage b len vv vw rv rw).2 * vw) ∧
      ((encodeImage b len vv vw rv rw).1.length : Int) - len =
        10 + vw + rw - (encodeImage b len vv vw rv rw).2 * ((vw : Int) - rw)

/-- R164, R166, R167: what an output holds. There are starts, as many as the matches counted, that are victims, do not
overlap, and are greedy: no start outside them has a full window equal to the victim. The output is the header, then the
input with the replacement's bits, most significant first, in the place of each of those victims and every other bit copied
in order, the tail among them. -/
def Obligations.MatchesAreGreedy : Prop :=
  ∀ (b : Nat → Bool) (len vv vw rv rw : Nat), 1 ≤ vw →
    ∃ starts : List Nat, starts.length = (encodeImage b len vv vw rv rw).2 ∧
      starts.Pairwise (fun i j => i + vw ≤ j) ∧ (∀ i ∈ starts, i + vw ≤ len ∧ window b i vw = vv) ∧
      (∀ i, i + vw ≤ len → (∀ j ∈ starts, ¬ (j ≤ i ∧ i < j + vw)) → window b i vw ≠ vv) ∧
      (encodeImage b len vv vw rv rw).1 = headerBits vv vw rv rw ++ spliced b len vw (digitsMsb rv rw) 0 starts

/-- R170: a buffer shorter than the victim gives the header and the verbatim original, with no match, and the result is
longer than the input. -/
def Obligations.ShortBufferCopied : Prop :=
  ∀ (b : Nat → Bool) (len vv vw rv rw : Nat), len < vw →
    encodeImage b len vv vw rv rw = (header vv vw rv rw ++ slice b 0 len, 0) ∧
      len < (encodeImage b len vv vw rv rw).1.length

/-- R168, R171: ENCODE of legal widths and values whose output fits writes OBUF, MATCHES and DELTA, and leaves every other
register, IN_MEM and HIST_MEM alone. -/
def Obligations.EncodeCompletes : Prop :=
  ∀ (s : State) (vw rw : Nat), s.Inv → 1 ≤ vw → vw ≤ s.maxw.toNat → 1 ≤ rw → rw ≤ s.maxw.toNat →
    s.valA.toNat < 2 ^ vw → s.valB.toNat < 2 ^ rw →
    (encodeImage s.ibuf s.inBits s.valA.toNat vw s.valB.toNat rw).1.length ≤ s.params.outCapBits →
    ∃ t, exec (.encode vw rw) s = .next t ∧ t.status = completedStatus .success s.status ∧
      ObufIs t (encodeImage s.ibuf s.inBits s.valA.toNat vw s.valB.toNat rw).1 ∧
      t.matchCount.toNat = (encodeImage s.ibuf s.inBits s.valA.toNat vw s.valB.toNat rw).2 ∧
      t.delta.toInt = 10 + vw + rw - t.matchCount.toNat * ((vw : Int) - rw) ∧
      RegsKept [.status, .outLen, .matchCount, .delta] s t ∧ InMemKept s t ∧ HistMemKept s t ∧ OutsideKept s t

/-- R163, R164: after a successful ENCODE each header field of OBUF, read as a window at its place, has its own value. -/
def Obligations.HeaderReadsBack : Prop :=
  ∀ (s t : State) (vw rw : Nat), s.Inv → exec (.encode vw rw) s = .next t → t.status.code = .success →
    window t.obuf 0 5 = vw - 1 ∧ window t.obuf 5 vw = s.valA.toNat ∧ window t.obuf (5 + vw) 5 = rw - 1 ∧
      window t.obuf (10 + vw) rw = s.valB.toNat

/-- R171: an ENCODE whose output does not fit ends with CapacityExceeded and OUT_LEN, MATCHES and DELTA 0, and leaves every
other register, IN_MEM and HIST_MEM alone; only an ENCODE with a replacement wider than its victim can raise it. -/
def Obligations.EncodeCapacity : Prop :=
  (∀ (s : State) (vw rw : Nat), 1 ≤ vw → vw ≤ s.maxw.toNat → 1 ≤ rw → rw ≤ s.maxw.toNat →
    s.valA.toNat < 2 ^ vw → s.valB.toNat < 2 ^ rw →
    s.params.outCapBits < (encodeImage s.ibuf s.inBits s.valA.toNat vw s.valB.toNat rw).1.length →
    ∃ t, exec (.encode vw rw) s = .next t ∧ t.status = completedStatus .capacityExceeded s.status ∧
      t.outLen = 0#32 ∧ t.matchCount = 0#32 ∧ t.delta = 0#32 ∧
      RegsKept [.status, .outLen, .matchCount, .delta] s t ∧ InMemKept s t ∧ HistMemKept s t ∧ OutsideKept s t) ∧
  ∀ (s t : State) (vw rw : Nat), s.Inv → exec (.encode vw rw) s = .next t → t.status.code = .capacityExceeded → vw < rw

/-! ### The host port (10_state.md, 20_memory.md) -/

/-- R61: the port ignores address bits [1:0]. -/
def Obligations.AddressBitsIgnored : Prop :=
  ∀ (s : State) (a d : Word) (be : BitVec 4),
    hostRead a s = hostRead (a &&& 0xFFFFFFFC#32) s ∧ hostWrite a d be s = hostWrite (a &&& 0xFFFFFFFC#32) d be s

/-- R23, R64: the address map: the thirty registers at their offsets, the three memories, and reserved addresses. -/
def Obligations.AddressMap : Prop :=
  let table : List (Nat × Reg) :=
    [(0x000, .id), (0x004, .param0), (0x008, .param1), (0x00C, .param2), (0x010, .ctrl), (0x014, .status),
      (0x018, .cmd), (0x01C, .maxw), (0x020, .inNbytes), (0x024, .inLen), (0x028, .argIndex), (0x02C, .valA),
      (0x030, .valB), (0x034, .resultBit), (0x038, .histW), (0x03C, .histSum), (0x040, .histMax),
      (0x044, .histMaxval), (0x048, .histZeroval), (0x04C, .escW), (0x050, .escVal), (0x054, .bestW),
      (0x058, .bestVal), (0x05C, .bestCount), (0x060, .vicW), (0x064, .vicVal), (0x068, .outLen),
      (0x06C, .matchCount), (0x070, .delta), (0x074, .closestDelta)]
  ∀ (p : Params) (a : Word), p.legal →
    (∀ x ∈ table, x.1 ≤ a.toNat → a.toNat < x.1 + 4 → locOf p a = .reg x.2) ∧
    (0x10000000 ≤ a.toNat → a.toNat < 0x10000000 + 4 * ((p.inCapBytes + 3) / 4) →
      locOf p a = .inWord ((a.toNat - 0x10000000) / 4)) ∧
    (0x20000000 ≤ a.toNat → a.toNat < 0x20000000 + 4 * (((p.outCapBits + 7) / 8 + 3) / 4) →
      locOf p a = .outWord ((a.toNat - 0x20000000) / 4)) ∧
    (0x40000000 ≤ a.toNat → a.toNat < 0x40000000 + 4 * 2 ^ p.histVisW →
      locOf p a = .counter ((a.toNat - 0x40000000) / 4)) ∧
    (0x78 ≤ a.toNat → (a.toNat < 0x10000000 ∨ 0x10000000 + 4 * ((p.inCapBytes + 3) / 4) ≤ a.toNat) →
      (a.toNat < 0x20000000 ∨ 0x20000000 + 4 * (((p.outCapBits + 7) / 8 + 3) / 4) ≤ a.toNat) →
      (a.toNat < 0x40000000 ∨ 0x40000000 + 4 * 2 ^ p.histVisW ≤ a.toNat) → locOf p a = .reserved)

/-- R62, R64, R66, R67, R72: a reserved address reads 0; a write to a reserved address, to OUT_MEM, to HIST_MEM, to a
read-only register, or to any register with a strobe pattern other than all four, changes nothing, HAZ included. -/
def Obligations.IgnoredWrites : Prop :=
  (∀ (s : State) (a : Word), locOf s.params a = .reserved → (hostRead a s).rdata = 0#32) ∧
  ∀ (s : State) (a d : Word) (be : BitVec 4),
    (match locOf s.params a with
      | .reg r => r ∉ [Reg.ctrl, .status, .cmd, .maxw, .inNbytes, .argIndex, .valA, .valB] ∨ be ≠ 0xF#4
      | .inWord _ => False
      | _ => True) → hostWrite a d be s = s

/-- R60, R63, R71: a host read returns one word and changes nothing of the block. While no command runs, while an illegal
word runs, and while a command runs whose write set does not hold the location, it returns the location's current value,
and a second read of the address returns the same word. -/
def Obligations.ReadsHaveNoSideEffect : Prop :=
  ∀ (s : State) (a : Word),
    ({ hostRead a s with rdata := s.rdata, draws := s.draws } : State) = s ∧
      (s.status.busy = false ∨ (∃ why, decode s.cmd = .error why) ∨
          (∃ i, decode s.cmd = .ok i ∧ writeSet i (locOf s.params a) = false) →
        (hostRead a s).rdata = locRead s (locOf s.params a) ∧
          ∀ a', (hostRead a (hostRead a' s)).rdata = (hostRead a s).rdata)

/-- R66, R71: while a command runs, a read of a register, a counter of HIST_MEM or a word of OUT_MEM in its write set
returns a free value, a new one for each read, but that the byte lanes of OUT_MEM past its capacity read 0; STATUS, CMD and
IN_MEM are always read exactly. (That the free value fills all 32 bits is the model's reading of R71, log 8.) -/
def Obligations.BusyReadsAreUnspecified : Prop :=
  (∀ (s : State) (a : Word) (i : Instr), s.status.busy = true → decode s.cmd = .ok i →
    writeSet i (locOf s.params a) = true →
    (hostRead a s).draws = s.draws + 1 ∧
      (∀ r, locOf s.params a = .reg r → (hostRead a s).rdata = Config.freeRead s.draws) ∧
      (∀ k, locOf s.params a = .counter k → (hostRead a s).rdata = Config.freeRead s.draws) ∧
      ∀ m, locOf s.params a = .outWord m → ∀ j, j < 4 →
        (hostRead a s).rdata.toNat / 2 ^ (8 * j) % 2 ^ 8 =
          if 4 * m + j < (s.params.outCapBits + 7) / 8 then (Config.freeRead s.draws).toNat / 2 ^ (8 * j) % 2 ^ 8
          else 0) ∧
  ∀ (s : State) (a : Word), locOf s.params a = .reg .status ∨ locOf s.params a = .reg .cmd ∨
      (∃ m, locOf s.params a = .inWord m) →
    (hostRead a s).rdata = locRead s (locOf s.params a)

/-- R62, R65: an idle host write to IN_MEM writes exactly the bytes of its word that are strobed and exist, each with its
little-endian lane, and touches no other byte of any memory and no register. -/
def Obligations.InMemWriteStoresLanes : Prop :=
  ∀ (s : State) (a d : Word) (be : BitVec 4) (m : Nat), s.inMem.wf → s.status.busy = false →
    locOf s.params a = .inWord m →
    (∀ j, j < 4 → be.getLsbD j = true → 4 * m + j < s.params.inCapBytes →
      ((hostWrite a d be s).inByte (4 * m + j)).toNat = d.toNat / 2 ^ (8 * j) % 2 ^ 8) ∧
    (∀ k, (∀ j, j < 4 → be.getLsbD j = true → 4 * m + j < s.params.inCapBytes → k ≠ 4 * m + j) →
      (hostWrite a d be s).inByte k = s.inByte k) ∧
    RegsKept [] s (hostWrite a d be s) ∧ OutMemKept s (hostWrite a d be s) ∧ HistMemKept s (hostWrite a d be s)

/-- R65, R66, R67, R68: byte lane `j` of an IN_MEM or OUT_MEM word `m` is byte `4m + j`, or 0 past the capacity; so bit `k`
of IBUF is bit `k mod 32` of IN_MEM word `k / 32`, and so for OBUF in OUT_MEM; a HIST_MEM word is its counter. -/
def Obligations.BitsSitInWords : Prop :=
  (∀ (s : State) (m j : Nat), j < 4 →
    (locRead s (.inWord m)).toNat / 2 ^ (8 * j) % 2 ^ 8 =
        (if 4 * m + j < s.params.inCapBytes then (s.inByte (4 * m + j)).toNat else 0) ∧
      (locRead s (.outWord m)).toNat / 2 ^ (8 * j) % 2 ^ 8 =
        if 4 * m + j < (s.params.outCapBits + 7) / 8 then (s.outByte (4 * m + j)).toNat else 0) ∧
  (∀ (s : State) (k : Nat),
    (k < 8 * s.params.inCapBytes → s.ibuf k = (locRead s (.inWord (k / 32))).getLsbD (k % 32)) ∧
      (k < 8 * s.params.outBytes → s.obuf k = (locRead s (.outWord (k / 32))).getLsbD (k % 32))) ∧
  ∀ (s : State) (k : Nat), locRead s (.counter k) = s.histCounter k

/-- R72: while BUSY = 1 a full-strobe write to CMD, MAXW, IN_NBYTES, ARG_INDEX, VAL_A or VAL_B, and a write to IN_MEM with
a strobe set on a byte that exists, is dropped and sets HAZ. (That strobes on bytes past the capacity do not count is the
model's reading, log 11.) -/
def Obligations.BusyWritesDropped : Prop :=
  (∀ (s : State) (a d : Word) (r : Reg), s.status.busy = true → locOf s.params a = .reg r →
    r ∈ [Reg.cmd, .maxw, .inNbytes, .argIndex, .valA, .valB] →
    hostWrite a d 0xF#4 s = { s with status := { s.status with haz := true } }) ∧
  ∀ (s : State) (a d : Word) (be : BitVec 4) (m j : Nat), s.status.busy = true → locOf s.params a = .inWord m →
    j < 4 → be.getLsbD j = true → 4 * m + j < s.params.inCapBytes →
    hostWrite a d be s = { s with status := { s.status with haz := true } }

/-- R72, R73: what a command reads stays as it was accepted: across every step that leaves a command in flight, CMD, the
argument registers, IN_LEN and OUT_LEN and every byte of IN_MEM are unchanged. So are every other register but CTRL and
STATUS, the result registers among them, and every byte of OUT_MEM and counter of HIST_MEM. (That what a command writes
stays unchanged in the state until its completion is the model's choice, log 12: R71 leaves open what a read of it returns.) -/
def Obligations.OperandsFrozenWhileBusy : Prop :=
  ∀ s t : State, step s = .next t → s.status.busy = true → t.status.busy = true →
    t.cmd = s.cmd ∧ t.maxw = s.maxw ∧ t.inNbytes = s.inNbytes ∧ t.inLen = s.inLen ∧ t.argIndex = s.argIndex ∧
      t.valA = s.valA ∧ t.valB = s.valB ∧ t.outLen = s.outLen ∧ RegsKept [.ctrl, .status] s t ∧ InMemKept s t ∧
      OutMemKept s t ∧ HistMemKept s t

/-- R28, R29, R32, R34, R35: idle full-strobe writes to the read-write registers: CTRL takes bit 0, STATUS loses DONE and
HAZ where a 1 is written, and the argument registers take the word; CTRL and STATUS do so while busy too. -/
def Obligations.RegisterWrites : Prop :=
  ∀ (s : State) (a d : Word),
    (locOf s.params a = .reg .ctrl → hostWrite a d 0xF#4 s = { s with ie := d.getLsbD 0 }) ∧
    (locOf s.params a = .reg .status → hostWrite a d 0xF#4 s =
      { s with status := { s.status with done := s.status.done && !d.getLsbD 1, haz := s.status.haz && !d.getLsbD 3 } }) ∧
    (s.status.busy = false →
      (locOf s.params a = .reg .inNbytes → hostWrite a d 0xF#4 s = { s with inNbytes := d }) ∧
      (locOf s.params a = .reg .argIndex → hostWrite a d 0xF#4 s = { s with argIndex := d }) ∧
      (locOf s.params a = .reg .valA → hostWrite a d 0xF#4 s = { s with valA := d }) ∧
      (locOf s.params a = .reg .valB → hostWrite a d 0xF#4 s = { s with valB := d }))

/-- R31: an idle full-strobe write to MAXW takes `v[5:0]` when `1 <= v[5:0] <= MAX_WIDTH_HW` and `v[31:6] = 0`, and is
ignored otherwise; bits [31:6] read 0. -/
def Obligations.MaxwIsWarl : Prop :=
  ∀ (s : State) (a d : Word), locOf s.params a = .reg .maxw → s.status.busy = false →
    (1 ≤ d.toNat % 64 → d.toNat % 64 ≤ s.params.maxWidthHw → d.toNat / 64 = 0 →
      ∃ m : BitVec 6, m.toNat = d.toNat ∧ hostWrite a d 0xF#4 s = { s with maxw := m } ∧
        regRead (hostWrite a d 0xF#4 s) .maxw = d) ∧
    (¬ (1 ≤ d.toNat % 64 ∧ d.toNat % 64 ≤ s.params.maxWidthHw ∧ d.toNat / 64 = 0) → hostWrite a d 0xF#4 s = s)

/-- R24 to R27: ID reads 0x42504641 and the PARAM registers read the build parameters, in every state, and no step changes
them. -/
def Obligations.ConstantRegisters : Prop :=
  (∀ s : State, s.params.legal →
    regRead s .id = 0x42504641#32 ∧
      (regRead s .param0).toNat = s.params.maxWidthHw + 2 ^ 8 * s.params.histVisW ∧
      (regRead s .param1).toNat = s.params.inCapBytes ∧ (regRead s .param2).toNat = s.params.outCapBits) ∧
  ∀ s t : State, step s = .next t → t.params = s.params

/-- R28 to R43, R181: what a read of each register of the state returns: STATUS and HIST_W field by field, with the number
of each error code; the narrow registers with their reserved bits 0; the others their word, DELTA and CLOSEST_DELTA in two's
complement as the state holds them. -/
def Obligations.FlagWords : Prop :=
  (∀ s : State,
    (regRead s .status).toNat = s.status.busy.toNat + 2 * s.status.done.toNat + 4 * s.status.err.toNat +
      8 * s.status.haz.toNat + 16 * s.status.code.num.toNat + 256 * s.status.lastop.toNat ∧
    (regRead s .histW).toNat = s.histW.width.toNat + 256 * s.histW.hvalid.toNat + 512 * s.histW.nodata.toNat +
      1024 * s.histW.zfound.toNat ∧
    (regRead s .ctrl).toNat = s.ie.toNat ∧ (regRead s .resultBit).toNat = s.resultBit.toNat ∧
    (regRead s .maxw).toNat = s.maxw.toNat ∧ (regRead s .escW).toNat = s.escW.toNat ∧
    (regRead s .bestW).toNat = s.bestW.toNat ∧ (regRead s .vicW).toNat = s.vicW.toNat ∧
    regRead s .cmd = s.cmd ∧ regRead s .inNbytes = s.inNbytes ∧ regRead s .inLen = s.inLen ∧
    regRead s .argIndex = s.argIndex ∧ regRead s .valA = s.valA ∧ regRead s .valB = s.valB ∧
    regRead s .histSum = s.histSum ∧ regRead s .histMax = s.histMax ∧ regRead s .histMaxval = s.histMaxval ∧
    regRead s .histZeroval = s.histZeroval ∧ regRead s .escVal = s.escVal ∧ regRead s .bestVal = s.bestVal ∧
    regRead s .bestCount = s.bestCount ∧ regRead s .vicVal = s.vicVal ∧ regRead s .outLen = s.outLen ∧
    regRead s .matchCount = s.matchCount ∧ regRead s .delta = s.delta ∧ regRead s .closestDelta = s.closestDelta) ∧
  ErrorCode.success.num = 0#4 ∧ ErrorCode.indexOutOfRange.num = 1#4 ∧ ErrorCode.invalidPatternWidth.num = 2#4 ∧
    ErrorCode.noEscapeFound.num = 3#4 ∧ ErrorCode.noBeneficialSubstitution.num = 4#4 ∧
    ErrorCode.illegalCommand.num = 5#4 ∧ ErrorCode.invalidPatternValue.num = 6#4 ∧
    ErrorCode.capacityExceeded.num = 7#4

/-- R29, R72: a step changes HAZ only so: it sets it at a host write that R72 drops, while BUSY = 1 (a full-strobe write to
CMD, MAXW, IN_NBYTES, ARG_INDEX, VAL_A or VAL_B, or a write to IN_MEM with a strobe set on a byte that exists), and clears it
at a full-strobe write of 1 to it in STATUS or at a reset. (That strobes on bytes past the capacity do not count is the
model's reading, log 11.) -/
def Obligations.HazSetOnlyByDroppedWrite : Prop :=
  ∀ s t : State, step s = .next t → t.status.haz ≠ s.status.haz →
    ∃ u rest, s.turns = u :: rest ∧
      ((t.status.haz = true ∧ s.status.busy = true ∧
          ∃ a d be, u.input = .write a d be ∧
            ((be = 0xF#4 ∧ ∃ r ∈ [Reg.cmd, .maxw, .inNbytes, .argIndex, .valA, .valB], locOf s.params a = .reg r) ∨
              ∃ m j, locOf s.params a = .inWord m ∧ j < 4 ∧ be.getLsbD j = true ∧ 4 * m + j < s.params.inCapBytes)) ∨
        (t.status.haz = false ∧ (u.input = .reset ∨
          ∃ a d, u.input = .write a d 0xF#4 ∧ locOf s.params a = .reg .status ∧ d.getLsbD 3 = true)))

/-- R45, R72: a byte of IN_MEM changes only at an idle host write to its word, or at a reset; the engine never writes
IN_MEM. -/
def Obligations.InMemChangesOnlyByHost : Prop :=
  ∀ (s t : State) (k : Nat), step s = .next t → t.inByte k ≠ s.inByte k →
    ∃ u rest, s.turns = u :: rest ∧
      (u.input = .reset ∨
        (s.status.busy = false ∧ ∃ a d be, u.input = .write a d be ∧ locOf s.params a = .inWord (k / 4) ∧
          be.getLsbD (k % 4) = true ∧ k < s.params.inCapBytes))

/-- R94, R187: IRQ is asserted by every completion while IE = 1, that of an illegal word included, and deasserted by a
full-strobe write of 1 to DONE, of 0 to CTRL.IE, and by an accepted command; HAZ does not drive it. (The premise on the
pending inputs at the completion of an illegal word is of the model's schedule, log 1.) -/
def Obligations.IrqLevel : Prop :=
  (∀ (i : Instr) (s t : State), exec i s = .next t → t.irq = s.ie) ∧
  (∀ (s t : State) (why : Illegal), s.status.busy = true → (∀ u ∈ s.turns.head?, u.late = true) →
    decode s.cmd = .error why → step s = .next t → t.irq = s.ie) ∧
  (∀ (s : State) (a d : Word), locOf s.params a = .reg .status → d.getLsbD 1 = true →
    (hostWrite a d 0xF#4 s).irq = false) ∧
  (∀ (s : State) (a d : Word), locOf s.params a = .reg .ctrl → d.getLsbD 0 = false →
    (hostWrite a d 0xF#4 s).irq = false) ∧
  (∀ (s : State) (a d : Word), locOf s.params a = .reg .cmd → s.status.busy = false →
    (hostWrite a d 0xF#4 s).irq = false) ∧
  ∀ s : State, (setHaz s).irq = s.irq

/-! ### Reset (10_state.md, 70_reset_and_hazards.md) -/

/-- R25 to R27, R53, R210, R211: asserting reset at any time leaves no command in flight, every register at its reset value
and the build unchanged; and the machine right after reset is such a state, with the default build of R3. -/
def Obligations.ResetLeavesResetValues : Prop :=
  (∀ s : State, s.params.legal →
    (∀ r, r ∉ [Reg.id, .param0, .param1, .param2, .maxw] → regRead (perform .reset s) r = 0#32) ∧
      (∀ r ∈ [Reg.id, .param0, .param1, .param2], regRead (perform .reset s) r = regRead s r) ∧
      (regRead (perform .reset s) .maxw).toNat = s.params.maxWidthHw ∧ (perform .reset s).irq = false) ∧
  (∀ r, r ∉ [Reg.id, .param0, .param1, .param2, .maxw] → regRead State.reset r = 0#32) ∧
    regRead State.reset .id = 0x42504641#32 ∧ regRead State.reset .param0 = 0x00001020#32 ∧
    regRead State.reset .param1 = 0x00100000#32 ∧ regRead State.reset .param2 = 0x01000000#32 ∧
    regRead State.reset .maxw = 0x00000020#32 ∧ State.reset.irq = false

/-- R214: commands before LOAD are defined: right after a reset HIST reports no data, both searches end with NoEscapeFound,
ENCODE gives the header alone, and GETBIT of either buffer fails at every index. -/
def Obligations.CommandsBeforeLoad : Prop :=
  ∀ (s0 s : State), s0.params.legal → s = perform .reset s0 →
    (∀ w, 1 ≤ w → w ≤ s.maxw.toNat →
      ∃ t, exec (.hist w) s = .next t ∧ t.histW.nodata = true ∧ t.histSum = 0#32 ∧ t.status.code = .success) ∧
    (∀ i, i = .escsearch ∨ i = .vicsearch → ∃ t, exec i s = .next t ∧ t.status.code = .noEscapeFound) ∧
    (∀ (vv rv : Word) (vw rw : Nat), 1 ≤ vw → vw ≤ s.maxw.toNat → 1 ≤ rw → rw ≤ s.maxw.toNat → vv.toNat < 2 ^ vw →
      rv.toNat < 2 ^ rw →
      ∃ t, exec (.encode vw rw) { s with valA := vv, valB := rv } = .next t ∧ t.status.code = .success ∧
        ObufIs t (header vv.toNat vw rv.toNat rw)) ∧
    ∀ (src : Src) (k : Word),
      ∃ t, exec (.getbit src) { s with argIndex := k } = .next t ∧ t.status.code = .indexOutOfRange

/-! ### The invariant -/

/-- Every step keeps the invariant, from every state that has it: MAXW stays legal (R31), IN_LEN a multiple of 8 within
the capacity (R33), STATUS consistent (R29, R70), result patterns legal (R4), memories canonical and within their
capacities, OBUF written and clean (R49), HIST_MEM determined while HVALID = 1 (R225). (The memories' canonical form and
the numbers of the free draws are the model's own, logs 4 and 5.) -/
def Obligations.EveryStepKeepsInvariant : Prop := ∀ s t : State, s.Inv → step s = .next t → t.Inv

/-- The invariant holds right after reset, at the default parameters and at every legal build. -/
def Obligations.ResetHasInvariant : Prop :=
  State.reset.Inv ∧ ∀ (p : Params) (d : Nat), p.legal → (State.resetWith p d).Inv
end

