-- ==== Sys2Proof/Laws/State.lean ====
section
/-! SUPPORT. One lemma per field of State for every named update of it, each true by rfl. -/

namespace Sys2Proof.Machine

@[simp] theorem setHaz_params (s : State) : (setHaz s).params = s.params := rfl
@[simp] theorem setHaz_ie (s : State) : (setHaz s).ie = s.ie := rfl
@[simp] theorem setHaz_status (s : State) : (setHaz s).status = { s.status with haz := true } := rfl
@[simp] theorem setHaz_cmd (s : State) : (setHaz s).cmd = s.cmd := rfl
@[simp] theorem setHaz_maxw (s : State) : (setHaz s).maxw = s.maxw := rfl
@[simp] theorem setHaz_inNbytes (s : State) : (setHaz s).inNbytes = s.inNbytes := rfl
@[simp] theorem setHaz_inLen (s : State) : (setHaz s).inLen = s.inLen := rfl
@[simp] theorem setHaz_argIndex (s : State) : (setHaz s).argIndex = s.argIndex := rfl
@[simp] theorem setHaz_valA (s : State) : (setHaz s).valA = s.valA := rfl
@[simp] theorem setHaz_valB (s : State) : (setHaz s).valB = s.valB := rfl
@[simp] theorem setHaz_resultBit (s : State) : (setHaz s).resultBit = s.resultBit := rfl
@[simp] theorem setHaz_histW (s : State) : (setHaz s).histW = s.histW := rfl
@[simp] theorem setHaz_histSum (s : State) : (setHaz s).histSum = s.histSum := rfl
@[simp] theorem setHaz_histMax (s : State) : (setHaz s).histMax = s.histMax := rfl
@[simp] theorem setHaz_histMaxval (s : State) : (setHaz s).histMaxval = s.histMaxval := rfl
@[simp] theorem setHaz_histZeroval (s : State) : (setHaz s).histZeroval = s.histZeroval := rfl
@[simp] theorem setHaz_escW (s : State) : (setHaz s).escW = s.escW := rfl
@[simp] theorem setHaz_escVal (s : State) : (setHaz s).escVal = s.escVal := rfl
@[simp] theorem setHaz_bestW (s : State) : (setHaz s).bestW = s.bestW := rfl
@[simp] theorem setHaz_bestVal (s : State) : (setHaz s).bestVal = s.bestVal := rfl
@[simp] theorem setHaz_bestCount (s : State) : (setHaz s).bestCount = s.bestCount := rfl
@[simp] theorem setHaz_vicW (s : State) : (setHaz s).vicW = s.vicW := rfl
@[simp] theorem setHaz_vicVal (s : State) : (setHaz s).vicVal = s.vicVal := rfl
@[simp] theorem setHaz_outLen (s : State) : (setHaz s).outLen = s.outLen := rfl
@[simp] theorem setHaz_matchCount (s : State) : (setHaz s).matchCount = s.matchCount := rfl
@[simp] theorem setHaz_delta (s : State) : (setHaz s).delta = s.delta := rfl
@[simp] theorem setHaz_closestDelta (s : State) : (setHaz s).closestDelta = s.closestDelta := rfl
@[simp] theorem setHaz_inMem (s : State) : (setHaz s).inMem = s.inMem := rfl
@[simp] theorem setHaz_outMem (s : State) : (setHaz s).outMem = s.outMem := rfl
@[simp] theorem setHaz_histMem (s : State) : (setHaz s).histMem = s.histMem := rfl
@[simp] theorem setHaz_turns (s : State) : (setHaz s).turns = s.turns := rfl
@[simp] theorem setHaz_draws (s : State) : (setHaz s).draws = s.draws := rfl
@[simp] theorem setHaz_rdata (s : State) : (setHaz s).rdata = s.rdata := rfl

@[simp] theorem clearHvalid_params (s : State) : (clearHvalid s).params = s.params := rfl
@[simp] theorem clearHvalid_ie (s : State) : (clearHvalid s).ie = s.ie := rfl
@[simp] theorem clearHvalid_status (s : State) : (clearHvalid s).status = s.status := rfl
@[simp] theorem clearHvalid_cmd (s : State) : (clearHvalid s).cmd = s.cmd := rfl
@[simp] theorem clearHvalid_maxw (s : State) : (clearHvalid s).maxw = s.maxw := rfl
@[simp] theorem clearHvalid_inNbytes (s : State) : (clearHvalid s).inNbytes = s.inNbytes := rfl
@[simp] theorem clearHvalid_inLen (s : State) : (clearHvalid s).inLen = s.inLen := rfl
@[simp] theorem clearHvalid_argIndex (s : State) : (clearHvalid s).argIndex = s.argIndex := rfl
@[simp] theorem clearHvalid_valA (s : State) : (clearHvalid s).valA = s.valA := rfl
@[simp] theorem clearHvalid_valB (s : State) : (clearHvalid s).valB = s.valB := rfl
@[simp] theorem clearHvalid_resultBit (s : State) : (clearHvalid s).resultBit = s.resultBit := rfl
@[simp] theorem clearHvalid_histW (s : State) : (clearHvalid s).histW = { s.histW with hvalid := false } := rfl
@[simp] theorem clearHvalid_histSum (s : State) : (clearHvalid s).histSum = s.histSum := rfl
@[simp] theorem clearHvalid_histMax (s : State) : (clearHvalid s).histMax = s.histMax := rfl
@[simp] theorem clearHvalid_histMaxval (s : State) : (clearHvalid s).histMaxval = s.histMaxval := rfl
@[simp] theorem clearHvalid_histZeroval (s : State) : (clearHvalid s).histZeroval = s.histZeroval := rfl
@[simp] theorem clearHvalid_escW (s : State) : (clearHvalid s).escW = s.escW := rfl
@[simp] theorem clearHvalid_escVal (s : State) : (clearHvalid s).escVal = s.escVal := rfl
@[simp] theorem clearHvalid_bestW (s : State) : (clearHvalid s).bestW = s.bestW := rfl
@[simp] theorem clearHvalid_bestVal (s : State) : (clearHvalid s).bestVal = s.bestVal := rfl
@[simp] theorem clearHvalid_bestCount (s : State) : (clearHvalid s).bestCount = s.bestCount := rfl
@[simp] theorem clearHvalid_vicW (s : State) : (clearHvalid s).vicW = s.vicW := rfl
@[simp] theorem clearHvalid_vicVal (s : State) : (clearHvalid s).vicVal = s.vicVal := rfl
@[simp] theorem clearHvalid_outLen (s : State) : (clearHvalid s).outLen = s.outLen := rfl
@[simp] theorem clearHvalid_matchCount (s : State) : (clearHvalid s).matchCount = s.matchCount := rfl
@[simp] theorem clearHvalid_delta (s : State) : (clearHvalid s).delta = s.delta := rfl
@[simp] theorem clearHvalid_closestDelta (s : State) : (clearHvalid s).closestDelta = s.closestDelta := rfl
@[simp] theorem clearHvalid_inMem (s : State) : (clearHvalid s).inMem = s.inMem := rfl
@[simp] theorem clearHvalid_outMem (s : State) : (clearHvalid s).outMem = s.outMem := rfl
@[simp] theorem clearHvalid_histMem (s : State) : (clearHvalid s).histMem = s.histMem := rfl
@[simp] theorem clearHvalid_turns (s : State) : (clearHvalid s).turns = s.turns := rfl
@[simp] theorem clearHvalid_draws (s : State) : (clearHvalid s).draws = s.draws := rfl
@[simp] theorem clearHvalid_rdata (s : State) : (clearHvalid s).rdata = s.rdata := rfl

@[simp] theorem accept_params (c : Word) (s : State) : (accept c s).params = s.params := rfl
@[simp] theorem accept_ie (c : Word) (s : State) : (accept c s).ie = s.ie := rfl
@[simp] theorem accept_status (c : Word) (s : State) : (accept c s).status = s.status.accept c := rfl
@[simp] theorem accept_cmd (c : Word) (s : State) : (accept c s).cmd = c := rfl
@[simp] theorem accept_maxw (c : Word) (s : State) : (accept c s).maxw = s.maxw := rfl
@[simp] theorem accept_inNbytes (c : Word) (s : State) : (accept c s).inNbytes = s.inNbytes := rfl
@[simp] theorem accept_inLen (c : Word) (s : State) : (accept c s).inLen = s.inLen := rfl
@[simp] theorem accept_argIndex (c : Word) (s : State) : (accept c s).argIndex = s.argIndex := rfl
@[simp] theorem accept_valA (c : Word) (s : State) : (accept c s).valA = s.valA := rfl
@[simp] theorem accept_valB (c : Word) (s : State) : (accept c s).valB = s.valB := rfl
@[simp] theorem accept_resultBit (c : Word) (s : State) : (accept c s).resultBit = s.resultBit := rfl
@[simp] theorem accept_histW (c : Word) (s : State) :
    (accept c s).histW = { s.histW with hvalid := s.histW.hvalid && !isSearchWord c } := rfl
@[simp] theorem accept_histSum (c : Word) (s : State) : (accept c s).histSum = s.histSum := rfl
@[simp] theorem accept_histMax (c : Word) (s : State) : (accept c s).histMax = s.histMax := rfl
@[simp] theorem accept_histMaxval (c : Word) (s : State) : (accept c s).histMaxval = s.histMaxval := rfl
@[simp] theorem accept_histZeroval (c : Word) (s : State) : (accept c s).histZeroval = s.histZeroval := rfl
@[simp] theorem accept_escW (c : Word) (s : State) : (accept c s).escW = s.escW := rfl
@[simp] theorem accept_escVal (c : Word) (s : State) : (accept c s).escVal = s.escVal := rfl
@[simp] theorem accept_bestW (c : Word) (s : State) : (accept c s).bestW = s.bestW := rfl
@[simp] theorem accept_bestVal (c : Word) (s : State) : (accept c s).bestVal = s.bestVal := rfl
@[simp] theorem accept_bestCount (c : Word) (s : State) : (accept c s).bestCount = s.bestCount := rfl
@[simp] theorem accept_vicW (c : Word) (s : State) : (accept c s).vicW = s.vicW := rfl
@[simp] theorem accept_vicVal (c : Word) (s : State) : (accept c s).vicVal = s.vicVal := rfl
@[simp] theorem accept_outLen (c : Word) (s : State) : (accept c s).outLen = s.outLen := rfl
@[simp] theorem accept_matchCount (c : Word) (s : State) : (accept c s).matchCount = s.matchCount := rfl
@[simp] theorem accept_delta (c : Word) (s : State) : (accept c s).delta = s.delta := rfl
@[simp] theorem accept_closestDelta (c : Word) (s : State) : (accept c s).closestDelta = s.closestDelta := rfl
@[simp] theorem accept_inMem (c : Word) (s : State) : (accept c s).inMem = s.inMem := rfl
@[simp] theorem accept_outMem (c : Word) (s : State) : (accept c s).outMem = s.outMem := rfl
@[simp] theorem accept_histMem (c : Word) (s : State) : (accept c s).histMem = s.histMem := rfl
@[simp] theorem accept_turns (c : Word) (s : State) : (accept c s).turns = s.turns := rfl
@[simp] theorem accept_draws (c : Word) (s : State) : (accept c s).draws = s.draws := rfl
@[simp] theorem accept_rdata (c : Word) (s : State) : (accept c s).rdata = s.rdata := rfl

@[simp] theorem complete_params (e : ErrorCode) (s : State) : (complete e s).params = s.params := rfl
@[simp] theorem complete_ie (e : ErrorCode) (s : State) : (complete e s).ie = s.ie := rfl
@[simp] theorem complete_status (e : ErrorCode) (s : State) : (complete e s).status = s.status.complete e := rfl
@[simp] theorem complete_cmd (e : ErrorCode) (s : State) : (complete e s).cmd = s.cmd := rfl
@[simp] theorem complete_maxw (e : ErrorCode) (s : State) : (complete e s).maxw = s.maxw := rfl
@[simp] theorem complete_inNbytes (e : ErrorCode) (s : State) : (complete e s).inNbytes = s.inNbytes := rfl
@[simp] theorem complete_inLen (e : ErrorCode) (s : State) : (complete e s).inLen = s.inLen := rfl
@[simp] theorem complete_argIndex (e : ErrorCode) (s : State) : (complete e s).argIndex = s.argIndex := rfl
@[simp] theorem complete_valA (e : ErrorCode) (s : State) : (complete e s).valA = s.valA := rfl
@[simp] theorem complete_valB (e : ErrorCode) (s : State) : (complete e s).valB = s.valB := rfl
@[simp] theorem complete_resultBit (e : ErrorCode) (s : State) : (complete e s).resultBit = s.resultBit := rfl
@[simp] theorem complete_histW (e : ErrorCode) (s : State) : (complete e s).histW = s.histW := rfl
@[simp] theorem complete_histSum (e : ErrorCode) (s : State) : (complete e s).histSum = s.histSum := rfl
@[simp] theorem complete_histMax (e : ErrorCode) (s : State) : (complete e s).histMax = s.histMax := rfl
@[simp] theorem complete_histMaxval (e : ErrorCode) (s : State) : (complete e s).histMaxval = s.histMaxval := rfl
@[simp] theorem complete_histZeroval (e : ErrorCode) (s : State) : (complete e s).histZeroval = s.histZeroval := rfl
@[simp] theorem complete_escW (e : ErrorCode) (s : State) : (complete e s).escW = s.escW := rfl
@[simp] theorem complete_escVal (e : ErrorCode) (s : State) : (complete e s).escVal = s.escVal := rfl
@[simp] theorem complete_bestW (e : ErrorCode) (s : State) : (complete e s).bestW = s.bestW := rfl
@[simp] theorem complete_bestVal (e : ErrorCode) (s : State) : (complete e s).bestVal = s.bestVal := rfl
@[simp] theorem complete_bestCount (e : ErrorCode) (s : State) : (complete e s).bestCount = s.bestCount := rfl
@[simp] theorem complete_vicW (e : ErrorCode) (s : State) : (complete e s).vicW = s.vicW := rfl
@[simp] theorem complete_vicVal (e : ErrorCode) (s : State) : (complete e s).vicVal = s.vicVal := rfl
@[simp] theorem complete_outLen (e : ErrorCode) (s : State) : (complete e s).outLen = s.outLen := rfl
@[simp] theorem complete_matchCount (e : ErrorCode) (s : State) : (complete e s).matchCount = s.matchCount := rfl
@[simp] theorem complete_delta (e : ErrorCode) (s : State) : (complete e s).delta = s.delta := rfl
@[simp] theorem complete_closestDelta (e : ErrorCode) (s : State) :
    (complete e s).closestDelta = s.closestDelta := rfl
@[simp] theorem complete_inMem (e : ErrorCode) (s : State) : (complete e s).inMem = s.inMem := rfl
@[simp] theorem complete_outMem (e : ErrorCode) (s : State) : (complete e s).outMem = s.outMem := rfl
@[simp] theorem complete_histMem (e : ErrorCode) (s : State) : (complete e s).histMem = s.histMem := rfl
@[simp] theorem complete_turns (e : ErrorCode) (s : State) : (complete e s).turns = s.turns := rfl
@[simp] theorem complete_draws (e : ErrorCode) (s : State) : (complete e s).draws = s.draws := rfl
@[simp] theorem complete_rdata (e : ErrorCode) (s : State) : (complete e s).rdata = s.rdata := rfl

@[simp] theorem drawOutMem_params (s : State) : (drawOutMem s).params = s.params := rfl
@[simp] theorem drawOutMem_ie (s : State) : (drawOutMem s).ie = s.ie := rfl
@[simp] theorem drawOutMem_status (s : State) : (drawOutMem s).status = s.status := rfl
@[simp] theorem drawOutMem_cmd (s : State) : (drawOutMem s).cmd = s.cmd := rfl
@[simp] theorem drawOutMem_maxw (s : State) : (drawOutMem s).maxw = s.maxw := rfl
@[simp] theorem drawOutMem_inNbytes (s : State) : (drawOutMem s).inNbytes = s.inNbytes := rfl
@[simp] theorem drawOutMem_inLen (s : State) : (drawOutMem s).inLen = s.inLen := rfl
@[simp] theorem drawOutMem_argIndex (s : State) : (drawOutMem s).argIndex = s.argIndex := rfl
@[simp] theorem drawOutMem_valA (s : State) : (drawOutMem s).valA = s.valA := rfl
@[simp] theorem drawOutMem_valB (s : State) : (drawOutMem s).valB = s.valB := rfl
@[simp] theorem drawOutMem_resultBit (s : State) : (drawOutMem s).resultBit = s.resultBit := rfl
@[simp] theorem drawOutMem_histW (s : State) : (drawOutMem s).histW = s.histW := rfl
@[simp] theorem drawOutMem_histSum (s : State) : (drawOutMem s).histSum = s.histSum := rfl
@[simp] theorem drawOutMem_histMax (s : State) : (drawOutMem s).histMax = s.histMax := rfl
@[simp] theorem drawOutMem_histMaxval (s : State) : (drawOutMem s).histMaxval = s.histMaxval := rfl
@[simp] theorem drawOutMem_histZeroval (s : State) : (drawOutMem s).histZeroval = s.histZeroval := rfl
@[simp] theorem drawOutMem_escW (s : State) : (drawOutMem s).escW = s.escW := rfl
@[simp] theorem drawOutMem_escVal (s : State) : (drawOutMem s).escVal = s.escVal := rfl
@[simp] theorem drawOutMem_bestW (s : State) : (drawOutMem s).bestW = s.bestW := rfl
@[simp] theorem drawOutMem_bestVal (s : State) : (drawOutMem s).bestVal = s.bestVal := rfl
@[simp] theorem drawOutMem_bestCount (s : State) : (drawOutMem s).bestCount = s.bestCount := rfl
@[simp] theorem drawOutMem_vicW (s : State) : (drawOutMem s).vicW = s.vicW := rfl
@[simp] theorem drawOutMem_vicVal (s : State) : (drawOutMem s).vicVal = s.vicVal := rfl
@[simp] theorem drawOutMem_outLen (s : State) : (drawOutMem s).outLen = s.outLen := rfl
@[simp] theorem drawOutMem_matchCount (s : State) : (drawOutMem s).matchCount = s.matchCount := rfl
@[simp] theorem drawOutMem_delta (s : State) : (drawOutMem s).delta = s.delta := rfl
@[simp] theorem drawOutMem_closestDelta (s : State) : (drawOutMem s).closestDelta = s.closestDelta := rfl
@[simp] theorem drawOutMem_inMem (s : State) : (drawOutMem s).inMem = s.inMem := rfl
@[simp] theorem drawOutMem_outMem (s : State) : (drawOutMem s).outMem = Memory.unspecified 8 s.draws := rfl
@[simp] theorem drawOutMem_histMem (s : State) : (drawOutMem s).histMem = s.histMem := rfl
@[simp] theorem drawOutMem_turns (s : State) : (drawOutMem s).turns = s.turns := rfl
@[simp] theorem drawOutMem_draws (s : State) : (drawOutMem s).draws = s.draws + 1 := rfl
@[simp] theorem drawOutMem_rdata (s : State) : (drawOutMem s).rdata = s.rdata := rfl

@[simp] theorem drawHistMem_params (s : State) : (drawHistMem s).params = s.params := rfl
@[simp] theorem drawHistMem_ie (s : State) : (drawHistMem s).ie = s.ie := rfl
@[simp] theorem drawHistMem_status (s : State) : (drawHistMem s).status = s.status := rfl
@[simp] theorem drawHistMem_cmd (s : State) : (drawHistMem s).cmd = s.cmd := rfl
@[simp] theorem drawHistMem_maxw (s : State) : (drawHistMem s).maxw = s.maxw := rfl
@[simp] theorem drawHistMem_inNbytes (s : State) : (drawHistMem s).inNbytes = s.inNbytes := rfl
@[simp] theorem drawHistMem_inLen (s : State) : (drawHistMem s).inLen = s.inLen := rfl
@[simp] theorem drawHistMem_argIndex (s : State) : (drawHistMem s).argIndex = s.argIndex := rfl
@[simp] theorem drawHistMem_valA (s : State) : (drawHistMem s).valA = s.valA := rfl
@[simp] theorem drawHistMem_valB (s : State) : (drawHistMem s).valB = s.valB := rfl
@[simp] theorem drawHistMem_resultBit (s : State) : (drawHistMem s).resultBit = s.resultBit := rfl
@[simp] theorem drawHistMem_histW (s : State) : (drawHistMem s).histW = s.histW := rfl
@[simp] theorem drawHistMem_histSum (s : State) : (drawHistMem s).histSum = s.histSum := rfl
@[simp] theorem drawHistMem_histMax (s : State) : (drawHistMem s).histMax = s.histMax := rfl
@[simp] theorem drawHistMem_histMaxval (s : State) : (drawHistMem s).histMaxval = s.histMaxval := rfl
@[simp] theorem drawHistMem_histZeroval (s : State) : (drawHistMem s).histZeroval = s.histZeroval := rfl
@[simp] theorem drawHistMem_escW (s : State) : (drawHistMem s).escW = s.escW := rfl
@[simp] theorem drawHistMem_escVal (s : State) : (drawHistMem s).escVal = s.escVal := rfl
@[simp] theorem drawHistMem_bestW (s : State) : (drawHistMem s).bestW = s.bestW := rfl
@[simp] theorem drawHistMem_bestVal (s : State) : (drawHistMem s).bestVal = s.bestVal := rfl
@[simp] theorem drawHistMem_bestCount (s : State) : (drawHistMem s).bestCount = s.bestCount := rfl
@[simp] theorem drawHistMem_vicW (s : State) : (drawHistMem s).vicW = s.vicW := rfl
@[simp] theorem drawHistMem_vicVal (s : State) : (drawHistMem s).vicVal = s.vicVal := rfl
@[simp] theorem drawHistMem_outLen (s : State) : (drawHistMem s).outLen = s.outLen := rfl
@[simp] theorem drawHistMem_matchCount (s : State) : (drawHistMem s).matchCount = s.matchCount := rfl
@[simp] theorem drawHistMem_delta (s : State) : (drawHistMem s).delta = s.delta := rfl
@[simp] theorem drawHistMem_closestDelta (s : State) : (drawHistMem s).closestDelta = s.closestDelta := rfl
@[simp] theorem drawHistMem_inMem (s : State) : (drawHistMem s).inMem = s.inMem := rfl
@[simp] theorem drawHistMem_outMem (s : State) : (drawHistMem s).outMem = s.outMem := rfl
@[simp] theorem drawHistMem_histMem (s : State) : (drawHistMem s).histMem = Memory.unspecified 32 s.draws := rfl
@[simp] theorem drawHistMem_turns (s : State) : (drawHistMem s).turns = s.turns := rfl
@[simp] theorem drawHistMem_draws (s : State) : (drawHistMem s).draws = s.draws + 1 := rfl
@[simp] theorem drawHistMem_rdata (s : State) : (drawHistMem s).rdata = s.rdata := rfl

@[simp] theorem putObuf_params (x : List Bool) (s : State) : (putObuf x s).params = s.params := rfl
@[simp] theorem putObuf_ie (x : List Bool) (s : State) : (putObuf x s).ie = s.ie := rfl
@[simp] theorem putObuf_status (x : List Bool) (s : State) : (putObuf x s).status = s.status := rfl
@[simp] theorem putObuf_cmd (x : List Bool) (s : State) : (putObuf x s).cmd = s.cmd := rfl
@[simp] theorem putObuf_maxw (x : List Bool) (s : State) : (putObuf x s).maxw = s.maxw := rfl
@[simp] theorem putObuf_inNbytes (x : List Bool) (s : State) : (putObuf x s).inNbytes = s.inNbytes := rfl
@[simp] theorem putObuf_inLen (x : List Bool) (s : State) : (putObuf x s).inLen = s.inLen := rfl
@[simp] theorem putObuf_argIndex (x : List Bool) (s : State) : (putObuf x s).argIndex = s.argIndex := rfl
@[simp] theorem putObuf_valA (x : List Bool) (s : State) : (putObuf x s).valA = s.valA := rfl
@[simp] theorem putObuf_valB (x : List Bool) (s : State) : (putObuf x s).valB = s.valB := rfl
@[simp] theorem putObuf_resultBit (x : List Bool) (s : State) : (putObuf x s).resultBit = s.resultBit := rfl
@[simp] theorem putObuf_histW (x : List Bool) (s : State) : (putObuf x s).histW = s.histW := rfl
@[simp] theorem putObuf_histSum (x : List Bool) (s : State) : (putObuf x s).histSum = s.histSum := rfl
@[simp] theorem putObuf_histMax (x : List Bool) (s : State) : (putObuf x s).histMax = s.histMax := rfl
@[simp] theorem putObuf_histMaxval (x : List Bool) (s : State) : (putObuf x s).histMaxval = s.histMaxval := rfl
@[simp] theorem putObuf_histZeroval (x : List Bool) (s : State) : (putObuf x s).histZeroval = s.histZeroval := rfl
@[simp] theorem putObuf_escW (x : List Bool) (s : State) : (putObuf x s).escW = s.escW := rfl
@[simp] theorem putObuf_escVal (x : List Bool) (s : State) : (putObuf x s).escVal = s.escVal := rfl
@[simp] theorem putObuf_bestW (x : List Bool) (s : State) : (putObuf x s).bestW = s.bestW := rfl
@[simp] theorem putObuf_bestVal (x : List Bool) (s : State) : (putObuf x s).bestVal = s.bestVal := rfl
@[simp] theorem putObuf_bestCount (x : List Bool) (s : State) : (putObuf x s).bestCount = s.bestCount := rfl
@[simp] theorem putObuf_vicW (x : List Bool) (s : State) : (putObuf x s).vicW = s.vicW := rfl
@[simp] theorem putObuf_vicVal (x : List Bool) (s : State) : (putObuf x s).vicVal = s.vicVal := rfl
@[simp] theorem putObuf_outLen (x : List Bool) (s : State) : (putObuf x s).outLen = BitVec.ofNat 32 x.length := rfl
@[simp] theorem putObuf_matchCount (x : List Bool) (s : State) : (putObuf x s).matchCount = s.matchCount := rfl
@[simp] theorem putObuf_delta (x : List Bool) (s : State) : (putObuf x s).delta = s.delta := rfl
@[simp] theorem putObuf_closestDelta (x : List Bool) (s : State) : (putObuf x s).closestDelta = s.closestDelta := rfl
@[simp] theorem putObuf_inMem (x : List Bool) (s : State) : (putObuf x s).inMem = s.inMem := rfl
@[simp] theorem putObuf_outMem (x : List Bool) (s : State) :
    (putObuf x s).outMem = { cells := (List.range (bytesFor x.length)).map (fun k => (k, packByte x k)), fill := .drawn s.draws } := rfl
@[simp] theorem putObuf_histMem (x : List Bool) (s : State) : (putObuf x s).histMem = s.histMem := rfl
@[simp] theorem putObuf_turns (x : List Bool) (s : State) : (putObuf x s).turns = s.turns := rfl
@[simp] theorem putObuf_draws (x : List Bool) (s : State) : (putObuf x s).draws = s.draws + 1 := rfl
@[simp] theorem putObuf_rdata (x : List Bool) (s : State) : (putObuf x s).rdata = s.rdata := rfl

@[simp] theorem putHist_params (w : Nat) (ws : List Nat) (s : State) : (putHist w ws s).params = s.params := rfl
@[simp] theorem putHist_ie (w : Nat) (ws : List Nat) (s : State) : (putHist w ws s).ie = s.ie := rfl
@[simp] theorem putHist_status (w : Nat) (ws : List Nat) (s : State) : (putHist w ws s).status = s.status := rfl
@[simp] theorem putHist_cmd (w : Nat) (ws : List Nat) (s : State) : (putHist w ws s).cmd = s.cmd := rfl
@[simp] theorem putHist_maxw (w : Nat) (ws : List Nat) (s : State) : (putHist w ws s).maxw = s.maxw := rfl
@[simp] theorem putHist_inNbytes (w : Nat) (ws : List Nat) (s : State) : (putHist w ws s).inNbytes = s.inNbytes := rfl
@[simp] theorem putHist_inLen (w : Nat) (ws : List Nat) (s : State) : (putHist w ws s).inLen = s.inLen := rfl
@[simp] theorem putHist_argIndex (w : Nat) (ws : List Nat) (s : State) : (putHist w ws s).argIndex = s.argIndex := rfl
@[simp] theorem putHist_valA (w : Nat) (ws : List Nat) (s : State) : (putHist w ws s).valA = s.valA := rfl
@[simp] theorem putHist_valB (w : Nat) (ws : List Nat) (s : State) : (putHist w ws s).valB = s.valB := rfl
@[simp] theorem putHist_resultBit (w : Nat) (ws : List Nat) (s : State) :
    (putHist w ws s).resultBit = s.resultBit := rfl
@[simp] theorem putHist_histW (w : Nat) (ws : List Nat) (s : State) :
    (putHist w ws s).histW = histFlags w ws.length (decide (hasZero ws w)) := rfl
@[simp] theorem putHist_histSum (w : Nat) (ws : List Nat) (s : State) :
    (putHist w ws s).histSum = BitVec.ofNat 32 ws.length := rfl
@[simp] theorem putHist_histMax (w : Nat) (ws : List Nat) (s : State) :
    (putHist w ws s).histMax = BitVec.ofNat 32 (maxCount ws) := rfl
@[simp] theorem putHist_histMaxval (w : Nat) (ws : List Nat) (s : State) :
    (putHist w ws s).histMaxval = BitVec.ofNat 32 (mostFreq ws) := rfl
@[simp] theorem putHist_histZeroval (w : Nat) (ws : List Nat) (s : State) :
    (putHist w ws s).histZeroval = if hasZero ws w then BitVec.ofNat 32 (firstAbsent ws) else 0#32 := rfl
@[simp] theorem putHist_escW (w : Nat) (ws : List Nat) (s : State) : (putHist w ws s).escW = s.escW := rfl
@[simp] theorem putHist_escVal (w : Nat) (ws : List Nat) (s : State) : (putHist w ws s).escVal = s.escVal := rfl
@[simp] theorem putHist_bestW (w : Nat) (ws : List Nat) (s : State) : (putHist w ws s).bestW = s.bestW := rfl
@[simp] theorem putHist_bestVal (w : Nat) (ws : List Nat) (s : State) : (putHist w ws s).bestVal = s.bestVal := rfl
@[simp] theorem putHist_bestCount (w : Nat) (ws : List Nat) (s : State) :
    (putHist w ws s).bestCount = s.bestCount := rfl
@[simp] theorem putHist_vicW (w : Nat) (ws : List Nat) (s : State) : (putHist w ws s).vicW = s.vicW := rfl
@[simp] theorem putHist_vicVal (w : Nat) (ws : List Nat) (s : State) : (putHist w ws s).vicVal = s.vicVal := rfl
@[simp] theorem putHist_outLen (w : Nat) (ws : List Nat) (s : State) : (putHist w ws s).outLen = s.outLen := rfl
@[simp] theorem putHist_matchCount (w : Nat) (ws : List Nat) (s : State) :
    (putHist w ws s).matchCount = s.matchCount := rfl
@[simp] theorem putHist_delta (w : Nat) (ws : List Nat) (s : State) : (putHist w ws s).delta = s.delta := rfl
@[simp] theorem putHist_closestDelta (w : Nat) (ws : List Nat) (s : State) :
    (putHist w ws s).closestDelta = s.closestDelta := rfl
@[simp] theorem putHist_inMem (w : Nat) (ws : List Nat) (s : State) : (putHist w ws s).inMem = s.inMem := rfl
@[simp] theorem putHist_outMem (w : Nat) (ws : List Nat) (s : State) : (putHist w ws s).outMem = s.outMem := rfl
@[simp] theorem putHist_histMem (w : Nat) (ws : List Nat) (s : State) :
    (putHist w ws s).histMem = histMemOf s.params.histVisW ws := rfl
@[simp] theorem putHist_turns (w : Nat) (ws : List Nat) (s : State) : (putHist w ws s).turns = s.turns := rfl
@[simp] theorem putHist_draws (w : Nat) (ws : List Nat) (s : State) : (putHist w ws s).draws = s.draws := rfl
@[simp] theorem putHist_rdata (w : Nat) (ws : List Nat) (s : State) : (putHist w ws s).rdata = s.rdata := rfl

@[simp] theorem putImage_params (x : List Bool) (n : Nat) (s : State) : (putImage x n s).params = s.params := rfl
@[simp] theorem putImage_ie (x : List Bool) (n : Nat) (s : State) : (putImage x n s).ie = s.ie := rfl
@[simp] theorem putImage_status (x : List Bool) (n : Nat) (s : State) : (putImage x n s).status = s.status := rfl
@[simp] theorem putImage_cmd (x : List Bool) (n : Nat) (s : State) : (putImage x n s).cmd = s.cmd := rfl
@[simp] theorem putImage_maxw (x : List Bool) (n : Nat) (s : State) : (putImage x n s).maxw = s.maxw := rfl
@[simp] theorem putImage_inNbytes (x : List Bool) (n : Nat) (s : State) :
    (putImage x n s).inNbytes = s.inNbytes := rfl
@[simp] theorem putImage_inLen (x : List Bool) (n : Nat) (s : State) : (putImage x n s).inLen = s.inLen := rfl
@[simp] theorem putImage_argIndex (x : List Bool) (n : Nat) (s : State) :
    (putImage x n s).argIndex = s.argIndex := rfl
@[simp] theorem putImage_valA (x : List Bool) (n : Nat) (s : State) : (putImage x n s).valA = s.valA := rfl
@[simp] theorem putImage_valB (x : List Bool) (n : Nat) (s : State) : (putImage x n s).valB = s.valB := rfl
@[simp] theorem putImage_resultBit (x : List Bool) (n : Nat) (s : State) :
    (putImage x n s).resultBit = s.resultBit := rfl
@[simp] theorem putImage_histW (x : List Bool) (n : Nat) (s : State) : (putImage x n s).histW = s.histW := rfl
@[simp] theorem putImage_histSum (x : List Bool) (n : Nat) (s : State) : (putImage x n s).histSum = s.histSum := rfl
@[simp] theorem putImage_histMax (x : List Bool) (n : Nat) (s : State) : (putImage x n s).histMax = s.histMax := rfl
@[simp] theorem putImage_histMaxval (x : List Bool) (n : Nat) (s : State) :
    (putImage x n s).histMaxval = s.histMaxval := rfl
@[simp] theorem putImage_histZeroval (x : List Bool) (n : Nat) (s : State) :
    (putImage x n s).histZeroval = s.histZeroval := rfl
@[simp] theorem putImage_escW (x : List Bool) (n : Nat) (s : State) : (putImage x n s).escW = s.escW := rfl
@[simp] theorem putImage_escVal (x : List Bool) (n : Nat) (s : State) : (putImage x n s).escVal = s.escVal := rfl
@[simp] theorem putImage_bestW (x : List Bool) (n : Nat) (s : State) : (putImage x n s).bestW = s.bestW := rfl
@[simp] theorem putImage_bestVal (x : List Bool) (n : Nat) (s : State) : (putImage x n s).bestVal = s.bestVal := rfl
@[simp] theorem putImage_bestCount (x : List Bool) (n : Nat) (s : State) :
    (putImage x n s).bestCount = s.bestCount := rfl
@[simp] theorem putImage_vicW (x : List Bool) (n : Nat) (s : State) : (putImage x n s).vicW = s.vicW := rfl
@[simp] theorem putImage_vicVal (x : List Bool) (n : Nat) (s : State) : (putImage x n s).vicVal = s.vicVal := rfl
@[simp] theorem putImage_outLen (x : List Bool) (n : Nat) (s : State) :
    (putImage x n s).outLen = BitVec.ofNat 32 x.length := rfl
@[simp] theorem putImage_matchCount (x : List Bool) (n : Nat) (s : State) :
    (putImage x n s).matchCount = BitVec.ofNat 32 n := rfl
@[simp] theorem putImage_delta (x : List Bool) (n : Nat) (s : State) :
    (putImage x n s).delta = deltaWord (imageDelta s.inBits x) := rfl
@[simp] theorem putImage_closestDelta (x : List Bool) (n : Nat) (s : State) :
    (putImage x n s).closestDelta = s.closestDelta := rfl
@[simp] theorem putImage_inMem (x : List Bool) (n : Nat) (s : State) : (putImage x n s).inMem = s.inMem := rfl
@[simp] theorem putImage_outMem (x : List Bool) (n : Nat) (s : State) :
    (putImage x n s).outMem = (putObuf x s).outMem := rfl
@[simp] theorem putImage_histMem (x : List Bool) (n : Nat) (s : State) : (putImage x n s).histMem = s.histMem := rfl
@[simp] theorem putImage_turns (x : List Bool) (n : Nat) (s : State) : (putImage x n s).turns = s.turns := rfl
@[simp] theorem putImage_draws (x : List Bool) (n : Nat) (s : State) : (putImage x n s).draws = s.draws + 1 := rfl
@[simp] theorem putImage_rdata (x : List Bool) (n : Nat) (s : State) : (putImage x n s).rdata = s.rdata := rfl

@[simp] theorem putTooLong_params (s : State) : (putTooLong s).params = s.params := rfl
@[simp] theorem putTooLong_ie (s : State) : (putTooLong s).ie = s.ie := rfl
@[simp] theorem putTooLong_status (s : State) : (putTooLong s).status = s.status := rfl
@[simp] theorem putTooLong_cmd (s : State) : (putTooLong s).cmd = s.cmd := rfl
@[simp] theorem putTooLong_maxw (s : State) : (putTooLong s).maxw = s.maxw := rfl
@[simp] theorem putTooLong_inNbytes (s : State) : (putTooLong s).inNbytes = s.inNbytes := rfl
@[simp] theorem putTooLong_inLen (s : State) : (putTooLong s).inLen = s.inLen := rfl
@[simp] theorem putTooLong_argIndex (s : State) : (putTooLong s).argIndex = s.argIndex := rfl
@[simp] theorem putTooLong_valA (s : State) : (putTooLong s).valA = s.valA := rfl
@[simp] theorem putTooLong_valB (s : State) : (putTooLong s).valB = s.valB := rfl
@[simp] theorem putTooLong_resultBit (s : State) : (putTooLong s).resultBit = s.resultBit := rfl
@[simp] theorem putTooLong_histW (s : State) : (putTooLong s).histW = s.histW := rfl
@[simp] theorem putTooLong_histSum (s : State) : (putTooLong s).histSum = s.histSum := rfl
@[simp] theorem putTooLong_histMax (s : State) : (putTooLong s).histMax = s.histMax := rfl
@[simp] theorem putTooLong_histMaxval (s : State) : (putTooLong s).histMaxval = s.histMaxval := rfl
@[simp] theorem putTooLong_histZeroval (s : State) : (putTooLong s).histZeroval = s.histZeroval := rfl
@[simp] theorem putTooLong_escW (s : State) : (putTooLong s).escW = s.escW := rfl
@[simp] theorem putTooLong_escVal (s : State) : (putTooLong s).escVal = s.escVal := rfl
@[simp] theorem putTooLong_bestW (s : State) : (putTooLong s).bestW = s.bestW := rfl
@[simp] theorem putTooLong_bestVal (s : State) : (putTooLong s).bestVal = s.bestVal := rfl
@[simp] theorem putTooLong_bestCount (s : State) : (putTooLong s).bestCount = s.bestCount := rfl
@[simp] theorem putTooLong_vicW (s : State) : (putTooLong s).vicW = s.vicW := rfl
@[simp] theorem putTooLong_vicVal (s : State) : (putTooLong s).vicVal = s.vicVal := rfl
@[simp] theorem putTooLong_outLen (s : State) : (putTooLong s).outLen = 0#32 := rfl
@[simp] theorem putTooLong_matchCount (s : State) : (putTooLong s).matchCount = 0#32 := rfl
@[simp] theorem putTooLong_delta (s : State) : (putTooLong s).delta = 0#32 := rfl
@[simp] theorem putTooLong_closestDelta (s : State) : (putTooLong s).closestDelta = s.closestDelta := rfl
@[simp] theorem putTooLong_inMem (s : State) : (putTooLong s).inMem = s.inMem := rfl
@[simp] theorem putTooLong_outMem (s : State) : (putTooLong s).outMem = Memory.unspecified 8 s.draws := rfl
@[simp] theorem putTooLong_histMem (s : State) : (putTooLong s).histMem = s.histMem := rfl
@[simp] theorem putTooLong_turns (s : State) : (putTooLong s).turns = s.turns := rfl
@[simp] theorem putTooLong_draws (s : State) : (putTooLong s).draws = s.draws + 1 := rfl
@[simp] theorem putTooLong_rdata (s : State) : (putTooLong s).rdata = s.rdata := rfl

@[simp] theorem putModeA_params (a : ModeA) (s : State) : (putModeA a s).params = s.params := rfl
@[simp] theorem putModeA_ie (a : ModeA) (s : State) : (putModeA a s).ie = s.ie := rfl
@[simp] theorem putModeA_status (a : ModeA) (s : State) : (putModeA a s).status = s.status := rfl
@[simp] theorem putModeA_cmd (a : ModeA) (s : State) : (putModeA a s).cmd = s.cmd := rfl
@[simp] theorem putModeA_maxw (a : ModeA) (s : State) : (putModeA a s).maxw = s.maxw := rfl
@[simp] theorem putModeA_inNbytes (a : ModeA) (s : State) : (putModeA a s).inNbytes = s.inNbytes := rfl
@[simp] theorem putModeA_inLen (a : ModeA) (s : State) : (putModeA a s).inLen = s.inLen := rfl
@[simp] theorem putModeA_argIndex (a : ModeA) (s : State) : (putModeA a s).argIndex = s.argIndex := rfl
@[simp] theorem putModeA_valA (a : ModeA) (s : State) : (putModeA a s).valA = s.valA := rfl
@[simp] theorem putModeA_valB (a : ModeA) (s : State) : (putModeA a s).valB = s.valB := rfl
@[simp] theorem putModeA_resultBit (a : ModeA) (s : State) : (putModeA a s).resultBit = s.resultBit := rfl
@[simp] theorem putModeA_histW (a : ModeA) (s : State) :
    (putModeA a s).histW = { s.histW with hvalid := false } := rfl
@[simp] theorem putModeA_histSum (a : ModeA) (s : State) : (putModeA a s).histSum = s.histSum := rfl
@[simp] theorem putModeA_histMax (a : ModeA) (s : State) : (putModeA a s).histMax = s.histMax := rfl
@[simp] theorem putModeA_histMaxval (a : ModeA) (s : State) : (putModeA a s).histMaxval = s.histMaxval := rfl
@[simp] theorem putModeA_histZeroval (a : ModeA) (s : State) : (putModeA a s).histZeroval = s.histZeroval := rfl
@[simp] theorem putModeA_escW (a : ModeA) (s : State) :
    (putModeA a s).escW = BitVec.ofNat 6 (a.escape.elim 0 Pattern.width) := rfl
@[simp] theorem putModeA_escVal (a : ModeA) (s : State) :
    (putModeA a s).escVal = BitVec.ofNat 32 (a.escape.elim 0 Pattern.value) := rfl
@[simp] theorem putModeA_bestW (a : ModeA) (s : State) : (putModeA a s).bestW = BitVec.ofNat 6 a.best.width := rfl
@[simp] theorem putModeA_bestVal (a : ModeA) (s : State) :
    (putModeA a s).bestVal = BitVec.ofNat 32 a.best.value := rfl
@[simp] theorem putModeA_bestCount (a : ModeA) (s : State) :
    (putModeA a s).bestCount = BitVec.ofNat 32 a.best.count := rfl
@[simp] theorem putModeA_vicW (a : ModeA) (s : State) : (putModeA a s).vicW = s.vicW := rfl
@[simp] theorem putModeA_vicVal (a : ModeA) (s : State) : (putModeA a s).vicVal = s.vicVal := rfl
@[simp] theorem putModeA_outLen (a : ModeA) (s : State) : (putModeA a s).outLen = s.outLen := rfl
@[simp] theorem putModeA_matchCount (a : ModeA) (s : State) : (putModeA a s).matchCount = s.matchCount := rfl
@[simp] theorem putModeA_delta (a : ModeA) (s : State) : (putModeA a s).delta = s.delta := rfl
@[simp] theorem putModeA_closestDelta (a : ModeA) (s : State) : (putModeA a s).closestDelta = s.closestDelta := rfl
@[simp] theorem putModeA_inMem (a : ModeA) (s : State) : (putModeA a s).inMem = s.inMem := rfl
@[simp] theorem putModeA_outMem (a : ModeA) (s : State) : (putModeA a s).outMem = s.outMem := rfl
@[simp] theorem putModeA_histMem (a : ModeA) (s : State) :
    (putModeA a s).histMem = Memory.unspecified 32 s.draws := rfl
@[simp] theorem putModeA_turns (a : ModeA) (s : State) : (putModeA a s).turns = s.turns := rfl
@[simp] theorem putModeA_draws (a : ModeA) (s : State) : (putModeA a s).draws = s.draws + 1 := rfl
@[simp] theorem putModeA_rdata (a : ModeA) (s : State) : (putModeA a s).rdata = s.rdata := rfl

@[simp] theorem putCandidate_params (o : Option Candidate) (s : State) : (putCandidate o s).params = s.params := rfl
@[simp] theorem putCandidate_ie (o : Option Candidate) (s : State) : (putCandidate o s).ie = s.ie := rfl
@[simp] theorem putCandidate_status (o : Option Candidate) (s : State) : (putCandidate o s).status = s.status := rfl
@[simp] theorem putCandidate_cmd (o : Option Candidate) (s : State) : (putCandidate o s).cmd = s.cmd := rfl
@[simp] theorem putCandidate_maxw (o : Option Candidate) (s : State) : (putCandidate o s).maxw = s.maxw := rfl
@[simp] theorem putCandidate_inNbytes (o : Option Candidate) (s : State) :
    (putCandidate o s).inNbytes = s.inNbytes := rfl
@[simp] theorem putCandidate_inLen (o : Option Candidate) (s : State) : (putCandidate o s).inLen = s.inLen := rfl
@[simp] theorem putCandidate_argIndex (o : Option Candidate) (s : State) :
    (putCandidate o s).argIndex = s.argIndex := rfl
@[simp] theorem putCandidate_valA (o : Option Candidate) (s : State) : (putCandidate o s).valA = s.valA := rfl
@[simp] theorem putCandidate_valB (o : Option Candidate) (s : State) : (putCandidate o s).valB = s.valB := rfl
@[simp] theorem putCandidate_resultBit (o : Option Candidate) (s : State) :
    (putCandidate o s).resultBit = s.resultBit := rfl
@[simp] theorem putCandidate_histW (o : Option Candidate) (s : State) : (putCandidate o s).histW = s.histW := rfl
@[simp] theorem putCandidate_histSum (o : Option Candidate) (s : State) :
    (putCandidate o s).histSum = s.histSum := rfl
@[simp] theorem putCandidate_histMax (o : Option Candidate) (s : State) :
    (putCandidate o s).histMax = s.histMax := rfl
@[simp] theorem putCandidate_histMaxval (o : Option Candidate) (s : State) :
    (putCandidate o s).histMaxval = s.histMaxval := rfl
@[simp] theorem putCandidate_histZeroval (o : Option Candidate) (s : State) :
    (putCandidate o s).histZeroval = s.histZeroval := rfl
@[simp] theorem putCandidate_escW (o : Option Candidate) (s : State) : (putCandidate o s).escW = s.escW := rfl
@[simp] theorem putCandidate_escVal (o : Option Candidate) (s : State) : (putCandidate o s).escVal = s.escVal := rfl
@[simp] theorem putCandidate_bestW (o : Option Candidate) (s : State) : (putCandidate o s).bestW = s.bestW := rfl
@[simp] theorem putCandidate_bestVal (o : Option Candidate) (s : State) :
    (putCandidate o s).bestVal = s.bestVal := rfl
@[simp] theorem putCandidate_bestCount (o : Option Candidate) (s : State) :
    (putCandidate o s).bestCount = s.bestCount := rfl
@[simp] theorem putCandidate_vicW (o : Option Candidate) (s : State) :
    (putCandidate o s).vicW = BitVec.ofNat 6 (o.elim 0 (fun c => c.victim.width)) := rfl
@[simp] theorem putCandidate_vicVal (o : Option Candidate) (s : State) :
    (putCandidate o s).vicVal = BitVec.ofNat 32 (o.elim 0 (fun c => c.victim.value)) := rfl
@[simp] theorem putCandidate_outLen (o : Option Candidate) (s : State) : (putCandidate o s).outLen = s.outLen := rfl
@[simp] theorem putCandidate_matchCount (o : Option Candidate) (s : State) :
    (putCandidate o s).matchCount = s.matchCount := rfl
@[simp] theorem putCandidate_delta (o : Option Candidate) (s : State) : (putCandidate o s).delta = s.delta := rfl
@[simp] theorem putCandidate_closestDelta (o : Option Candidate) (s : State) :
    (putCandidate o s).closestDelta = deltaWord (o.elim 0 Candidate.delta) := rfl
@[simp] theorem putCandidate_inMem (o : Option Candidate) (s : State) : (putCandidate o s).inMem = s.inMem := rfl
@[simp] theorem putCandidate_outMem (o : Option Candidate) (s : State) : (putCandidate o s).outMem = s.outMem := rfl
@[simp] theorem putCandidate_histMem (o : Option Candidate) (s : State) :
    (putCandidate o s).histMem = s.histMem := rfl
@[simp] theorem putCandidate_turns (o : Option Candidate) (s : State) : (putCandidate o s).turns = s.turns := rfl
@[simp] theorem putCandidate_draws (o : Option Candidate) (s : State) : (putCandidate o s).draws = s.draws := rfl
@[simp] theorem putCandidate_rdata (o : Option Candidate) (s : State) : (putCandidate o s).rdata = s.rdata := rfl

@[simp] theorem putOriginal_params (s : State) : (putOriginal s).params = s.params := rfl
@[simp] theorem putOriginal_ie (s : State) : (putOriginal s).ie = s.ie := rfl
@[simp] theorem putOriginal_status (s : State) : (putOriginal s).status = s.status := rfl
@[simp] theorem putOriginal_cmd (s : State) : (putOriginal s).cmd = s.cmd := rfl
@[simp] theorem putOriginal_maxw (s : State) : (putOriginal s).maxw = s.maxw := rfl
@[simp] theorem putOriginal_inNbytes (s : State) : (putOriginal s).inNbytes = s.inNbytes := rfl
@[simp] theorem putOriginal_inLen (s : State) : (putOriginal s).inLen = s.inLen := rfl
@[simp] theorem putOriginal_argIndex (s : State) : (putOriginal s).argIndex = s.argIndex := rfl
@[simp] theorem putOriginal_valA (s : State) : (putOriginal s).valA = s.valA := rfl
@[simp] theorem putOriginal_valB (s : State) : (putOriginal s).valB = s.valB := rfl
@[simp] theorem putOriginal_resultBit (s : State) : (putOriginal s).resultBit = s.resultBit := rfl
@[simp] theorem putOriginal_histW (s : State) : (putOriginal s).histW = s.histW := rfl
@[simp] theorem putOriginal_histSum (s : State) : (putOriginal s).histSum = s.histSum := rfl
@[simp] theorem putOriginal_histMax (s : State) : (putOriginal s).histMax = s.histMax := rfl
@[simp] theorem putOriginal_histMaxval (s : State) : (putOriginal s).histMaxval = s.histMaxval := rfl
@[simp] theorem putOriginal_histZeroval (s : State) : (putOriginal s).histZeroval = s.histZeroval := rfl
@[simp] theorem putOriginal_escW (s : State) : (putOriginal s).escW = s.escW := rfl
@[simp] theorem putOriginal_escVal (s : State) : (putOriginal s).escVal = s.escVal := rfl
@[simp] theorem putOriginal_bestW (s : State) : (putOriginal s).bestW = s.bestW := rfl
@[simp] theorem putOriginal_bestVal (s : State) : (putOriginal s).bestVal = s.bestVal := rfl
@[simp] theorem putOriginal_bestCount (s : State) : (putOriginal s).bestCount = s.bestCount := rfl
@[simp] theorem putOriginal_vicW (s : State) : (putOriginal s).vicW = s.vicW := rfl
@[simp] theorem putOriginal_vicVal (s : State) : (putOriginal s).vicVal = s.vicVal := rfl
@[simp] theorem putOriginal_outLen (s : State) :
    (putOriginal s).outLen = BitVec.ofNat 32 (slice s.ibuf 0 s.inBits).length := rfl
@[simp] theorem putOriginal_matchCount (s : State) : (putOriginal s).matchCount = 0#32 := rfl
@[simp] theorem putOriginal_delta (s : State) : (putOriginal s).delta = 0#32 := rfl
@[simp] theorem putOriginal_closestDelta (s : State) : (putOriginal s).closestDelta = s.closestDelta := rfl
@[simp] theorem putOriginal_inMem (s : State) : (putOriginal s).inMem = s.inMem := rfl
@[simp] theorem putOriginal_outMem (s : State) :
    (putOriginal s).outMem = (putObuf (slice s.ibuf 0 s.inBits) s).outMem := rfl
@[simp] theorem putOriginal_histMem (s : State) : (putOriginal s).histMem = s.histMem := rfl
@[simp] theorem putOriginal_turns (s : State) : (putOriginal s).turns = s.turns := rfl
@[simp] theorem putOriginal_draws (s : State) : (putOriginal s).draws = s.draws + 1 := rfl
@[simp] theorem putOriginal_rdata (s : State) : (putOriginal s).rdata = s.rdata := rfl

@[simp] theorem inWordWrite_params (m : Nat) (d : Word) (be : BitVec 4) (s : State) :
    (inWordWrite m d be s).params = s.params := rfl
@[simp] theorem inWordWrite_ie (m : Nat) (d : Word) (be : BitVec 4) (s : State) :
    (inWordWrite m d be s).ie = s.ie := rfl
@[simp] theorem inWordWrite_status (m : Nat) (d : Word) (be : BitVec 4) (s : State) :
    (inWordWrite m d be s).status = s.status := rfl
@[simp] theorem inWordWrite_cmd (m : Nat) (d : Word) (be : BitVec 4) (s : State) :
    (inWordWrite m d be s).cmd = s.cmd := rfl
@[simp] theorem inWordWrite_maxw (m : Nat) (d : Word) (be : BitVec 4) (s : State) :
    (inWordWrite m d be s).maxw = s.maxw := rfl
@[simp] theorem inWordWrite_inNbytes (m : Nat) (d : Word) (be : BitVec 4) (s : State) :
    (inWordWrite m d be s).inNbytes = s.inNbytes := rfl
@[simp] theorem inWordWrite_inLen (m : Nat) (d : Word) (be : BitVec 4) (s : State) :
    (inWordWrite m d be s).inLen = s.inLen := rfl
@[simp] theorem inWordWrite_argIndex (m : Nat) (d : Word) (be : BitVec 4) (s : State) :
    (inWordWrite m d be s).argIndex = s.argIndex := rfl
@[simp] theorem inWordWrite_valA (m : Nat) (d : Word) (be : BitVec 4) (s : State) :
    (inWordWrite m d be s).valA = s.valA := rfl
@[simp] theorem inWordWrite_valB (m : Nat) (d : Word) (be : BitVec 4) (s : State) :
    (inWordWrite m d be s).valB = s.valB := rfl
@[simp] theorem inWordWrite_resultBit (m : Nat) (d : Word) (be : BitVec 4) (s : State) :
    (inWordWrite m d be s).resultBit = s.resultBit := rfl
@[simp] theorem inWordWrite_histW (m : Nat) (d : Word) (be : BitVec 4) (s : State) :
    (inWordWrite m d be s).histW = s.histW := rfl
@[simp] theorem inWordWrite_histSum (m : Nat) (d : Word) (be : BitVec 4) (s : State) :
    (inWordWrite m d be s).histSum = s.histSum := rfl
@[simp] theorem inWordWrite_histMax (m : Nat) (d : Word) (be : BitVec 4) (s : State) :
    (inWordWrite m d be s).histMax = s.histMax := rfl
@[simp] theorem inWordWrite_histMaxval (m : Nat) (d : Word) (be : BitVec 4) (s : State) :
    (inWordWrite m d be s).histMaxval = s.histMaxval := rfl
@[simp] theorem inWordWrite_histZeroval (m : Nat) (d : Word) (be : BitVec 4) (s : State) :
    (inWordWrite m d be s).histZeroval = s.histZeroval := rfl
@[simp] theorem inWordWrite_escW (m : Nat) (d : Word) (be : BitVec 4) (s : State) :
    (inWordWrite m d be s).escW = s.escW := rfl
@[simp] theorem inWordWrite_escVal (m : Nat) (d : Word) (be : BitVec 4) (s : State) :
    (inWordWrite m d be s).escVal = s.escVal := rfl
@[simp] theorem inWordWrite_bestW (m : Nat) (d : Word) (be : BitVec 4) (s : State) :
    (inWordWrite m d be s).bestW = s.bestW := rfl
@[simp] theorem inWordWrite_bestVal (m : Nat) (d : Word) (be : BitVec 4) (s : State) :
    (inWordWrite m d be s).bestVal = s.bestVal := rfl
@[simp] theorem inWordWrite_bestCount (m : Nat) (d : Word) (be : BitVec 4) (s : State) :
    (inWordWrite m d be s).bestCount = s.bestCount := rfl
@[simp] theorem inWordWrite_vicW (m : Nat) (d : Word) (be : BitVec 4) (s : State) :
    (inWordWrite m d be s).vicW = s.vicW := rfl
@[simp] theorem inWordWrite_vicVal (m : Nat) (d : Word) (be : BitVec 4) (s : State) :
    (inWordWrite m d be s).vicVal = s.vicVal := rfl
@[simp] theorem inWordWrite_outLen (m : Nat) (d : Word) (be : BitVec 4) (s : State) :
    (inWordWrite m d be s).outLen = s.outLen := rfl
@[simp] theorem inWordWrite_matchCount (m : Nat) (d : Word) (be : BitVec 4) (s : State) :
    (inWordWrite m d be s).matchCount = s.matchCount := rfl
@[simp] theorem inWordWrite_delta (m : Nat) (d : Word) (be : BitVec 4) (s : State) :
    (inWordWrite m d be s).delta = s.delta := rfl
@[simp] theorem inWordWrite_closestDelta (m : Nat) (d : Word) (be : BitVec 4) (s : State) :
    (inWordWrite m d be s).closestDelta = s.closestDelta := rfl
@[simp] theorem inWordWrite_inMem (m : Nat) (d : Word) (be : BitVec 4) (s : State) :
    (inWordWrite m d be s).inMem = (inLanes s.params m be).foldl (fun mem j => mem.write (4 * m + j) (byteOf d j)) s.inMem := rfl
@[simp] theorem inWordWrite_outMem (m : Nat) (d : Word) (be : BitVec 4) (s : State) :
    (inWordWrite m d be s).outMem = s.outMem := rfl
@[simp] theorem inWordWrite_histMem (m : Nat) (d : Word) (be : BitVec 4) (s : State) :
    (inWordWrite m d be s).histMem = s.histMem := rfl
@[simp] theorem inWordWrite_turns (m : Nat) (d : Word) (be : BitVec 4) (s : State) :
    (inWordWrite m d be s).turns = s.turns := rfl
@[simp] theorem inWordWrite_draws (m : Nat) (d : Word) (be : BitVec 4) (s : State) :
    (inWordWrite m d be s).draws = s.draws := rfl
@[simp] theorem inWordWrite_rdata (m : Nat) (d : Word) (be : BitVec 4) (s : State) :
    (inWordWrite m d be s).rdata = s.rdata := rfl

@[simp] theorem assertReset_params (s : State) : (assertReset s).params = s.params := rfl
@[simp] theorem assertReset_ie (s : State) : (assertReset s).ie = (State.resetWith s.params s.draws).ie := rfl
@[simp] theorem assertReset_status (s : State) :
    (assertReset s).status = (State.resetWith s.params s.draws).status := rfl
@[simp] theorem assertReset_cmd (s : State) : (assertReset s).cmd = (State.resetWith s.params s.draws).cmd := rfl
@[simp] theorem assertReset_maxw (s : State) : (assertReset s).maxw = (State.resetWith s.params s.draws).maxw := rfl
@[simp] theorem assertReset_inNbytes (s : State) :
    (assertReset s).inNbytes = (State.resetWith s.params s.draws).inNbytes := rfl
@[simp] theorem assertReset_inLen (s : State) :
    (assertReset s).inLen = (State.resetWith s.params s.draws).inLen := rfl
@[simp] theorem assertReset_argIndex (s : State) :
    (assertReset s).argIndex = (State.resetWith s.params s.draws).argIndex := rfl
@[simp] theorem assertReset_valA (s : State) : (assertReset s).valA = (State.resetWith s.params s.draws).valA := rfl
@[simp] theorem assertReset_valB (s : State) : (assertReset s).valB = (State.resetWith s.params s.draws).valB := rfl
@[simp] theorem assertReset_resultBit (s : State) :
    (assertReset s).resultBit = (State.resetWith s.params s.draws).resultBit := rfl
@[simp] theorem assertReset_histW (s : State) :
    (assertReset s).histW = (State.resetWith s.params s.draws).histW := rfl
@[simp] theorem assertReset_histSum (s : State) :
    (assertReset s).histSum = (State.resetWith s.params s.draws).histSum := rfl
@[simp] theorem assertReset_histMax (s : State) :
    (assertReset s).histMax = (State.resetWith s.params s.draws).histMax := rfl
@[simp] theorem assertReset_histMaxval (s : State) :
    (assertReset s).histMaxval = (State.resetWith s.params s.draws).histMaxval := rfl
@[simp] theorem assertReset_histZeroval (s : State) :
    (assertReset s).histZeroval = (State.resetWith s.params s.draws).histZeroval := rfl
@[simp] theorem assertReset_escW (s : State) : (assertReset s).escW = (State.resetWith s.params s.draws).escW := rfl
@[simp] theorem assertReset_escVal (s : State) :
    (assertReset s).escVal = (State.resetWith s.params s.draws).escVal := rfl
@[simp] theorem assertReset_bestW (s : State) :
    (assertReset s).bestW = (State.resetWith s.params s.draws).bestW := rfl
@[simp] theorem assertReset_bestVal (s : State) :
    (assertReset s).bestVal = (State.resetWith s.params s.draws).bestVal := rfl
@[simp] theorem assertReset_bestCount (s : State) :
    (assertReset s).bestCount = (State.resetWith s.params s.draws).bestCount := rfl
@[simp] theorem assertReset_vicW (s : State) : (assertReset s).vicW = (State.resetWith s.params s.draws).vicW := rfl
@[simp] theorem assertReset_vicVal (s : State) :
    (assertReset s).vicVal = (State.resetWith s.params s.draws).vicVal := rfl
@[simp] theorem assertReset_outLen (s : State) :
    (assertReset s).outLen = (State.resetWith s.params s.draws).outLen := rfl
@[simp] theorem assertReset_matchCount (s : State) :
    (assertReset s).matchCount = (State.resetWith s.params s.draws).matchCount := rfl
@[simp] theorem assertReset_delta (s : State) :
    (assertReset s).delta = (State.resetWith s.params s.draws).delta := rfl
@[simp] theorem assertReset_closestDelta (s : State) :
    (assertReset s).closestDelta = (State.resetWith s.params s.draws).closestDelta := rfl
@[simp] theorem assertReset_inMem (s : State) :
    (assertReset s).inMem = (State.resetWith s.params s.draws).inMem := rfl
@[simp] theorem assertReset_outMem (s : State) :
    (assertReset s).outMem = (State.resetWith s.params s.draws).outMem := rfl
@[simp] theorem assertReset_histMem (s : State) :
    (assertReset s).histMem = (State.resetWith s.params s.draws).histMem := rfl
@[simp] theorem assertReset_turns (s : State) : (assertReset s).turns = s.turns := rfl
@[simp] theorem assertReset_draws (s : State) : (assertReset s).draws = s.draws + 1 := rfl
@[simp] theorem assertReset_rdata (s : State) : (assertReset s).rdata = s.rdata := rfl

end Sys2Proof.Machine
end

