-- ==== Sys2Proof/Laws/Memory.lean ====
section
/-! SUPPORT. The laws of the memories: what a read gives after a write, and that every memory operation keeps the
canonical form. -/

namespace Sys2Proof.Machine

variable {n : Nat}

theorem cellAt_putCell_same (k : Nat) (v : BitVec n) (cs : List (Nat × BitVec n)) :
    cellAt (putCell k v cs) k = some v := by
  induction cs with
  | nil => simp [putCell, cellAt]
  | cons c cs ih =>
    obtain ⟨a, u⟩ := c
    by_cases h : a < k
    · simp [putCell, cellAt, h, ih, Nat.ne_of_lt h]
    · by_cases h' : a = k <;> simp [putCell, cellAt, h, h']

theorem cellAt_putCell_other {k j : Nat} (hj : j ≠ k) (v : BitVec n) (cs : List (Nat × BitVec n)) :
    cellAt (putCell k v cs) j = cellAt cs j := by
  induction cs with
  | nil => simp [putCell, cellAt, Ne.symm hj]
  | cons c cs ih =>
    obtain ⟨a, u⟩ := c
    by_cases h : a < k
    · simp [putCell, cellAt, h, ih]
    · by_cases h' : a = k
      · subst h'; simp [putCell, cellAt, Ne.symm hj]
      · simp [putCell, cellAt, h, h', Ne.symm hj]

theorem mem_putCell {k : Nat} {v : BitVec n} {cs : List (Nat × BitVec n)} {c : Nat × BitVec n}
    (hc : c ∈ putCell k v cs) : c = (k, v) ∨ c ∈ cs := by
  induction cs with
  | nil => simp [putCell] at hc; exact .inl hc
  | cons d cs ih =>
    obtain ⟨a, u⟩ := d
    simp only [putCell] at hc
    split at hc
    · rcases List.mem_cons.1 hc with rfl | hc
      · simp
      · rcases ih hc with h | h <;> simp [h]
    · split at hc
      · rcases List.mem_cons.1 hc with rfl | hc <;> simp [*]
      · rcases List.mem_cons.1 hc with rfl | hc
        · simp
        · exact .inr hc

theorem mem_dropCell {k : Nat} {cs : List (Nat × BitVec n)} {c : Nat × BitVec n} (hc : c ∈ dropCell k cs) :
    c ∈ cs := by
  induction cs with
  | nil => simp [dropCell] at hc
  | cons d cs ih =>
    obtain ⟨a, u⟩ := d
    simp only [dropCell] at hc
    split at hc
    · simp [hc]
    · rcases List.mem_cons.1 hc with rfl | hc
      · simp
      · simp [ih hc]

/-- Indices rise strictly along the list. -/
abbrev Rising (cs : List (Nat × BitVec n)) : Prop := cs.Pairwise (fun c d => c.1 < d.1)

theorem cellAt_of_lt {k : Nat} {cs : List (Nat × BitVec n)} (h : ∀ c ∈ cs, k < c.1) : cellAt cs k = none := by
  induction cs with
  | nil => rfl
  | cons d cs ih =>
    obtain ⟨a, u⟩ := d
    have ha : k < a := h (a, u) (by simp)
    simp [cellAt, Nat.ne_of_gt ha, ih (fun c hc => h c (by simp [hc]))]

theorem rising_putCell (k : Nat) (v : BitVec n) {cs : List (Nat × BitVec n)} (h : Rising cs) :
    Rising (putCell k v cs) := by
  induction cs with
  | nil => simp [putCell]
  | cons d cs ih =>
    obtain ⟨a, u⟩ := d
    obtain ⟨hd, ht⟩ := List.pairwise_cons.1 h
    simp only [putCell]
    split
    · rename_i hak
      refine List.pairwise_cons.2 ⟨fun c hc => ?_, ih ht⟩
      rcases mem_putCell hc with rfl | hc
      · exact hak
      · exact hd c hc
    · split
      · rename_i hak; subst hak
        exact List.pairwise_cons.2 ⟨hd, ht⟩
      · refine List.pairwise_cons.2 ⟨fun c hc => ?_, h⟩
        rcases List.mem_cons.1 hc with rfl | hc
        · show k < a; omega
        · have h' : a < c.1 := hd c hc
          show k < c.1; omega

theorem rising_dropCell (k : Nat) {cs : List (Nat × BitVec n)} (h : Rising cs) : Rising (dropCell k cs) := by
  induction cs with
  | nil => simp [dropCell]
  | cons d cs ih =>
    obtain ⟨a, u⟩ := d
    obtain ⟨hd, ht⟩ := List.pairwise_cons.1 h
    simp only [dropCell]
    split
    · exact ht
    · exact List.pairwise_cons.2 ⟨fun c hc => hd c (mem_dropCell hc), ih ht⟩

theorem cellAt_dropCell_same (k : Nat) {cs : List (Nat × BitVec n)} (h : Rising cs) :
    cellAt (dropCell k cs) k = none := by
  induction cs with
  | nil => rfl
  | cons d cs ih =>
    obtain ⟨a, u⟩ := d
    obtain ⟨hd, ht⟩ := List.pairwise_cons.1 h
    simp only [dropCell]
    split
    · rename_i hak; subst hak
      exact cellAt_of_lt hd
    · rename_i hak
      simp [cellAt, hak, ih ht]

theorem cellAt_dropCell_other {k j : Nat} (hj : j ≠ k) (cs : List (Nat × BitVec n)) :
    cellAt (dropCell k cs) j = cellAt cs j := by
  induction cs with
  | nil => rfl
  | cons d cs ih =>
    obtain ⟨a, u⟩ := d
    simp only [dropCell]
    split
    · rename_i hak; subst hak; simp [cellAt, Ne.symm hj]
    · simp [cellAt, ih]

@[simp] theorem Memory.write_fill (m : Memory n) (k : Nat) (v : BitVec n) : (m.write k v).fill = m.fill := by
  unfold Memory.write; split <;> rfl

/-- A read after a write to the same index gives the value written. -/
theorem Memory.read_write_same (free : Nat → Nat → BitVec n) {m : Memory n} (h : m.wf) (k : Nat) (v : BitVec n) :
    (m.write k v).read free k = v := by
  unfold Memory.write Memory.read
  split
  · rename_i hz
    simp [cellAt_dropCell_same k h.1, hz.1, hz.2, Fill.value]
  · simp [cellAt_putCell_same]

/-- A write leaves every other index alone. -/
theorem Memory.read_write_other (free : Nat → Nat → BitVec n) (m : Memory n) {k j : Nat} (hj : j ≠ k) (v : BitVec n) :
    (m.write k v).read free j = m.read free j := by
  unfold Memory.write Memory.read
  split
  · simp [cellAt_dropCell_other hj]
  · simp [cellAt_putCell_other hj]

/-- A write keeps the canonical form. -/
theorem Memory.wf_write {m : Memory n} (h : m.wf) (k : Nat) (v : BitVec n) : (m.write k v).wf := by
  unfold Memory.write
  split
  · exact ⟨rising_dropCell k h.1, fun hz c hc => h.2 hz c (mem_dropCell hc)⟩
  · rename_i hz
    refine ⟨rising_putCell k v h.1, fun hf c hc => ?_⟩
    rcases mem_putCell hc with rfl | hc
    · exact fun hv => hz ⟨hf, hv⟩
    · exact h.2 hf c hc

/-- An index that a memory lists after a write was listed before, or is the one written. -/
theorem Memory.mem_write {m : Memory n} {k : Nat} {v : BitVec n} {c : Nat × BitVec n} (hc : c ∈ (m.write k v).cells) :
    c = (k, v) ∨ c ∈ m.cells := by
  unfold Memory.write at hc
  split at hc
  · exact .inr (mem_dropCell hc)
  · exact mem_putCell hc

/-- A memory whose contents are UNSPECIFIED is in canonical form. -/
theorem Memory.wf_unspecified (d : Nat) : (Memory.unspecified n d).wf := by
  simp [Memory.unspecified, Memory.wf]

@[simp] theorem Memory.read_unspecified (free : Nat → Nat → BitVec n) (d k : Nat) :
    (Memory.unspecified n d).read free k = free d k := rfl

/-- A run of writes keeps the canonical form. -/
theorem Memory.wf_foldl_write {α : Type} (idx : α → Nat) (val : α → BitVec n) (xs : List α) {m : Memory n} (h : m.wf) :
    (xs.foldl (fun m x => m.write (idx x) (val x)) m).wf := by
  induction xs generalizing m with
  | nil => exact h
  | cons x xs ih => exact ih (Memory.wf_write h _ _)

@[simp] theorem Memory.fill_foldl_write {α : Type} (idx : α → Nat) (val : α → BitVec n) (xs : List α) (m : Memory n) :
    (xs.foldl (fun m x => m.write (idx x) (val x)) m).fill = m.fill := by
  induction xs generalizing m with
  | nil => rfl
  | cons x xs ih => simp [ih]

/-- A run of writes leaves alone every index it does not write. -/
theorem Memory.read_foldl_write_other {α : Type} (free : Nat → Nat → BitVec n) (idx : α → Nat) (val : α → BitVec n)
    (xs : List α) (m : Memory n) {j : Nat} (hj : ∀ x ∈ xs, j ≠ idx x) :
    (xs.foldl (fun m x => m.write (idx x) (val x)) m).read free j = m.read free j := by
  induction xs generalizing m with
  | nil => rfl
  | cons x xs ih =>
    simp only [List.foldl_cons]
    rw [ih _ (fun y hy => hj y (by simp [hy])), Memory.read_write_other free m (hj x (by simp))]

/-- A run of writes whose value depends on the index only leaves that value at every index it writes. -/
theorem Memory.read_foldl_write_same {α : Type} (free : Nat → Nat → BitVec n) (idx : α → Nat) (val : α → BitVec n)
    (hval : ∀ x y, idx x = idx y → val x = val y) (xs : List α) {m : Memory n} (h : m.wf) {x : α} (hx : x ∈ xs) :
    (xs.foldl (fun m x => m.write (idx x) (val x)) m).read free (idx x) = val x := by
  induction xs generalizing m x with
  | nil => simp at hx
  | cons y ys ih =>
    simp only [List.foldl_cons]
    by_cases hin : ∃ z ∈ ys, idx z = idx x
    · obtain ⟨z, hz, he⟩ := hin
      rw [← he, ih (Memory.wf_write h _ _) hz, hval z x he]
    · have hxy : idx y = idx x := by
        rcases List.mem_cons.1 hx with rfl | hx
        · rfl
        · exact absurd ⟨x, hx, rfl⟩ hin
      rw [Memory.read_foldl_write_other free idx val ys _ (fun z hz he => hin ⟨z, hz, he.symm⟩), ← hxy,
        Memory.read_write_same free h, hval y x hxy]

/-- A run of writes lists only what was listed and the indices it writes. -/
theorem Memory.mem_foldl_write {α : Type} (idx : α → Nat) (val : α → BitVec n) (xs : List α) {m : Memory n}
    {c : Nat × BitVec n} (hc : c ∈ (xs.foldl (fun m x => m.write (idx x) (val x)) m).cells) :
    (∃ x ∈ xs, c.1 = idx x) ∨ c ∈ m.cells := by
  induction xs generalizing m with
  | nil => exact .inr hc
  | cons x xs ih =>
    rcases ih hc with ⟨y, hy, he⟩ | hc
    · exact .inl ⟨y, by simp [hy], he⟩
    · rcases Memory.mem_write hc with rfl | hc
      · exact .inl ⟨x, by simp, rfl⟩
      · exact .inr hc

/-- Consecutive cells from index 0: what the packing of OBUF lists. -/
theorem cellAt_map_range (f : Nat → BitVec n) (len k : Nat) :
    cellAt ((List.range len).map (fun i => (i, f i))) k = if k < len then some (f k) else none := by
  have key : ∀ (len off : Nat), cellAt ((List.range' off len).map (fun i => (i, f i))) k =
      if off ≤ k ∧ k < off + len then some (f k) else none := by
    intro len
    induction len with
    | zero => intro off; simp only [List.range'_zero, List.map_nil, cellAt]; split <;> first | rfl | omega
    | succ len ih =>
      intro off
      simp only [List.range'_succ, List.map_cons, cellAt, ih]
      by_cases h : off = k
      · subst h; simp
      · simp only [h, if_false]
        congr 1
        exact propext ⟨fun _ => by omega, fun _ => by omega⟩
  simpa [List.range_eq_range'] using key len 0

end Sys2Proof.Machine
end

