-- ==== Sys2Proof/Laws/Histogram.lean ====
section
/-! SUPPORT. What the shared operations over windows and counts give: one lemma each, cited instead of unfolding them. -/

namespace Sys2Proof.Machine

/-- A window of width `w` is below `2^w`. -/
theorem window_lt (b : Nat → Bool) (i w : Nat) : window b i w < 2 ^ w := by
  induction w with
  | zero => simp [window]
  | succ w ih =>
    have hb : (b (i + w)).toNat ≤ 1 := Bool.toNat_le _
    simp only [window, Nat.pow_succ]
    omega

/-- Windows of buffers that agree on their bits are equal. -/
theorem window_congr {b b' : Nat → Bool} {i w : Nat} (h : ∀ k, k < w → b (i + k) = b' (i + k)) :
    window b i w = window b' i w := by
  induction w with
  | zero => rfl
  | succ w ih => simp only [window, ih (fun k hk => h k (by omega)), h w (by omega)]

@[simp] theorem length_countedWindows (b : Nat → Bool) (len w : Nat) : (countedWindows b len w).length = len - w := by
  simp [countedWindows]

theorem mem_countedWindows {b : Nat → Bool} {len w p : Nat} :
    p ∈ countedWindows b len w ↔ ∃ i, i < len - w ∧ window b i w = p := by
  simp [countedWindows]

theorem countedWindows_lt {b : Nat → Bool} {len w p : Nat} (h : p ∈ countedWindows b len w) : p < 2 ^ w := by
  obtain ⟨i, -, rfl⟩ := mem_countedWindows.1 h
  exact window_lt b i w

/-- The count of a value is the number of counted starts whose window it is. -/
theorem count_countedWindows (b : Nat → Bool) (len w p : Nat) :
    (countedWindows b len w).count p = ((Finset.range (len - w)).filter (fun i => window b i w = p)).card := by
  have key : ∀ n, ((List.range n).map (fun i => window b i w)).count p =
      ((Finset.range n).filter (fun i => window b i w = p)).card := by
    intro n
    induction n with
    | zero => rfl
    | succ n ih =>
      rw [List.range_succ, List.map_append, List.count_append, ih, Finset.range_add_one, Finset.filter_insert]
      by_cases h : window b n w = p
      · rw [if_pos h, Finset.card_insert_of_notMem (by simp)]; simp [h]
      · rw [if_neg h]; simp [h]
  exact key (len - w)

/-- Counting from buffers that agree below their length is the same. -/
theorem countedWindows_congr {b b' : Nat → Bool} {len : Nat} (w : Nat) (h : ∀ k, k < len → b k = b' k) :
    countedWindows b len w = countedWindows b' len w := by
  refine List.map_congr_left fun i hi => window_congr fun k hk => h _ ?_
  have := List.mem_range.1 hi
  omega

theorem count_le_foldr (ws : List Nat) : ∀ vs : List Nat, ∀ p ∈ vs, ws.count p ≤ vs.foldr (fun p m => max (ws.count p) m) 0
  | v :: vs, p, hp => by
    rcases List.mem_cons.1 hp with rfl | hp
    · exact Nat.le_max_left _ _
    · exact Nat.le_trans (count_le_foldr ws vs p hp) (Nat.le_max_right _ _)

theorem foldr_attained (ws : List Nat) : ∀ vs : List Nat,
    vs.foldr (fun p m => max (ws.count p) m) 0 = 0 ∨ ∃ p ∈ vs, ws.count p = vs.foldr (fun p m => max (ws.count p) m) 0
  | [] => .inl rfl
  | v :: vs => by
    rcases Nat.le_total (vs.foldr (fun p m => max (ws.count p) m) 0) (ws.count v) with h | h
    · exact .inr ⟨v, by simp, by simp [h]⟩
    · rcases foldr_attained ws vs with h0 | ⟨p, hp, he⟩
      · exact .inl (by simp only [List.foldr_cons]; omega)
      · exact .inr ⟨p, by simp [hp], by rw [he, List.foldr_cons, Nat.max_eq_right h]⟩

/-- No value is counted more often than `maxCount` says. -/
theorem count_le_maxCount (ws : List Nat) (p : Nat) : ws.count p ≤ maxCount ws := by
  by_cases h : p ∈ ws
  · exact count_le_foldr ws ws p h
  · simp [List.count_eq_zero_of_not_mem h]

/-- With a counted window, some counted value has the largest count, and it is not 0. -/
theorem maxCount_attained {ws : List Nat} (h : ws ≠ []) : 0 < maxCount ws ∧ ∃ p ∈ ws, ws.count p = maxCount ws := by
  obtain ⟨q, hq⟩ := List.exists_mem_of_ne_nil ws h
  have h1 : 0 < ws.count q := List.count_pos_iff.2 hq
  have h2 := count_le_maxCount ws q
  refine ⟨by omega, ?_⟩
  rcases foldr_attained ws ws with h0 | h'
  · unfold maxCount at h2; omega
  · exact h'

@[simp] theorem maxCount_nil : maxCount [] = 0 := rfl

@[simp] theorem mostFreq_nil : mostFreq [] = 0 := rfl

/-- With a counted window, `mostFreq` is a counted value with the largest count, and the lowest of them. -/
theorem mostFreq_spec {ws : List Nat} (h : ws ≠ []) :
    mostFreq ws ∈ ws ∧ ws.count (mostFreq ws) = maxCount ws ∧ ∀ p, ws.count p = maxCount ws → mostFreq ws ≤ p := by
  obtain ⟨hpos, q, hq, hqc⟩ := maxCount_attained h
  have hmem : q ∈ valuesWithCount ws (maxCount ws) := by simp [valuesWithCount, hq, hqc]
  obtain ⟨m, hm⟩ := Option.isSome_iff_exists.1 (by
    cases hmin : (valuesWithCount ws (maxCount ws)).min? with
    | some m => rfl
    | none => rw [List.min?_eq_none_iff] at hmin; simp [hmin] at hmem :
      ((valuesWithCount ws (maxCount ws)).min?).isSome)
  have hmf : mostFreq ws = m := by simp [mostFreq, hm]
  obtain ⟨h1, h2⟩ := List.min?_eq_some_iff.1 hm
  have h1' : m ∈ ws ∧ ws.count m = maxCount ws := by simpa [valuesWithCount] using h1
  rw [hmf]
  refine ⟨h1'.1, h1'.2, fun p hp => ?_⟩
  have hpm : p ∈ ws := List.count_pos_iff.1 (by omega)
  exact h2 p (by simp [valuesWithCount, hpm, hp])

/-- `firstAbsent` is not counted, and every lower number is. -/
theorem firstAbsent_spec (ws : List Nat) : firstAbsent ws ∉ ws ∧ ∀ p, p < firstAbsent ws → p ∈ ws := by
  have hex : ∃ p ∈ List.range (ws.length + 1), p ∉ ws := by
    by_contra hno
    have hsub : List.range (ws.length + 1) ⊆ ws := fun p hp => by_contra fun h => hno ⟨p, hp, h⟩
    have := (List.subperm_of_subset (List.nodup_range (n := ws.length + 1)) hsub).length_le
    simp at this
  obtain ⟨q, hq⟩ := Option.isSome_iff_exists.1 (by
    rw [List.find?_isSome]
    obtain ⟨p, hp, hn⟩ := hex
    exact ⟨p, hp, by simpa using hn⟩ : ((List.range (ws.length + 1)).find? (fun p => !ws.contains p)).isSome)
  have hfa : firstAbsent ws = q := by unfold firstAbsent; rw [hq]; rfl
  rw [hfa]
  obtain ⟨h1, as, bs, h2, h3⟩ := List.find?_eq_some_iff_append.1 hq
  refine ⟨by simpa using h1, fun p hp => ?_⟩
  have hlen : as.length = q := by
    have hq' : (List.range (ws.length + 1))[as.length]? = some q := by rw [h2]; simp
    rw [List.getElem?_eq_some_iff] at hq'
    obtain ⟨hlt, he⟩ := hq'
    simpa using he
  have hpa : p ∈ as := by
    have hp' : as[p]? = (List.range (ws.length + 1))[p]? := by
      rw [h2, List.getElem?_append_left (by omega)]
    have hlt : p < ws.length + 1 := by
      have := congrArg List.length h2
      simp at this; omega
    rw [List.getElem?_range hlt] at hp'
    exact List.mem_of_getElem? hp'
  simpa using h3 p hpa

/-- Where fewer windows are counted than there are values, some value of the width is absent. -/
theorem hasZero_of_length_lt {ws : List Nat} {w : Nat} (h : ws.length < 2 ^ w) : hasZero ws w := by
  by_contra hno
  have hsub : List.range (2 ^ w) ⊆ ws := fun p hp =>
    (firstAbsent_spec ws).2 p (by have := List.mem_range.1 hp; simp only [hasZero] at hno; omega)
  have := (List.subperm_of_subset List.nodup_range hsub).length_le
  simp at this; omega

/-- A value of the width is absent exactly when the lowest absent number is one. -/
theorem hasZero_iff {ws : List Nat} {w : Nat} : hasZero ws w ↔ ∃ p, p < 2 ^ w ∧ ws.count p = 0 := by
  constructor
  · intro h
    exact ⟨_, h, List.count_eq_zero_of_not_mem (firstAbsent_spec ws).1⟩
  · rintro ⟨p, hp, h0⟩
    have hnot : p ∉ ws := fun hm => by have := List.count_pos_iff.2 hm; omega
    have : ¬ p < firstAbsent ws := fun hl => hnot ((firstAbsent_spec ws).2 p hl)
    simp only [hasZero]; omega

/-- What HIST_MEM reads after a HIST: the count of every visible value, 0 elsewhere. -/
theorem read_histMemOf (free : Nat → Nat → BitVec 32) (visW : Nat) (ws : List Nat) (k : Nat) :
    (histMemOf visW ws).read free k = if k < 2 ^ visW then BitVec.ofNat 32 (ws.count k) else 0#32 := by
  have hwf : ({ cells := [], fill := .zero } : Memory 32).wf := by simp [Memory.wf]
  unfold histMemOf
  by_cases hk : k ∈ ws.filter (fun p => p < 2 ^ visW)
  · have hlt : k < 2 ^ visW := by simpa using (List.mem_filter.1 hk).2
    rw [if_pos hlt]
    exact Memory.read_foldl_write_same free (fun p => p) (fun p => BitVec.ofNat 32 (ws.count p))
      (fun x y h => by simp_all) _ hwf hk
  · rw [Memory.read_foldl_write_other free (fun p => p) _ _ _ (fun x hx he => hk (by rw [he]; exact hx))]
    have h0 : (({ cells := [], fill := .zero } : Memory 32)).read free k = 0#32 := rfl
    rw [h0]
    split
    · rename_i hlt
      have : k ∉ ws := fun hm => hk (List.mem_filter.2 ⟨hm, by simpa using hlt⟩)
      simp [List.count_eq_zero_of_not_mem this]
    · rfl

/-- HIST_MEM after a HIST is canonical, inside its capacity, with every counter determined. -/
theorem histMemOf_wf (visW : Nat) (ws : List Nat) :
    (histMemOf visW ws).wf ∧ (histMemOf visW ws).fill = .zero ∧ ∀ c ∈ (histMemOf visW ws).cells, c.1 < 2 ^ visW := by
  have hwf : ({ cells := [], fill := .zero } : Memory 32).wf := by simp [Memory.wf]
  refine ⟨Memory.wf_foldl_write (fun p => p) _ _ hwf, Memory.fill_foldl_write (fun p => p) _ _ _, fun c hc => ?_⟩
  rcases Memory.mem_foldl_write (fun p => p) _ _ hc with ⟨x, hx, he⟩ | hc
  · rw [he]; simpa using (List.mem_filter.1 hx).2
  · simp at hc

end Sys2Proof.Machine
end

