-- ==== Sys2Proof/Laws/Encoder.lean ====
section
/-! SUPPORT. What the shared operations of the encoder and of OBUF give: bit sequences, packing, and the scan. -/

namespace Sys2Proof.Machine

@[simp] theorem length_slice (b : Nat → Bool) (i n : Nat) : (slice b i n).length = n := by simp [slice]

@[simp] theorem length_bitsMsb (v n : Nat) : (bitsMsb v n).length = n := by simp [bitsMsb]

theorem getElem?_slice (b : Nat → Bool) (i n k : Nat) : (slice b i n)[k]? = if k < n then some (b (i + k)) else none := by
  by_cases h : k < n
  · simp [slice, h]
  · rw [if_neg h, List.getElem?_eq_none]; simpa using h

theorem slice_congr {b b' : Nat → Bool} {i n : Nat} (h : ∀ k, k < n → b (i + k) = b' (i + k)) :
    slice b i n = slice b' i n :=
  List.map_congr_left fun k hk => h k (List.mem_range.1 hk)

theorem slice_succ (b : Nat → Bool) (i n : Nat) : slice b i (n + 1) = b i :: slice b (i + 1) n := by
  simp only [slice, List.range_succ_eq_map, List.map_cons, List.map_map, Nat.add_zero]
  congr 1
  exact List.map_congr_left fun k _ => by simp only [Function.comp]; congr 1; omega

theorem getElem?_bitsMsb (v n k : Nat) : (bitsMsb v n)[k]? = if k < n then some (v.testBit (n - 1 - k)) else none := by
  by_cases h : k < n
  · simp [bitsMsb, h]
  · rw [if_neg h, List.getElem?_eq_none]; simpa using h

/-- `bits_msb(v, n)` at place `i` of a buffer reads back as a window with value `v` (00_scope.md R6, R7). -/
theorem window_of_bitsMsb {b : Nat → Bool} {i n v : Nat} (hv : v < 2 ^ n)
    (h : ∀ k, k < n → b (i + k) = v.testBit (n - 1 - k)) : window b i n = v := by
  induction n generalizing v with
  | zero => simp at hv; simp [window, hv]
  | succ n ih =>
    have h1 : window b i n = v / 2 := ih (by rw [Nat.pow_succ] at hv; omega) fun k hk => by
      rw [h k (by omega), Nat.testBit_div_two]; congr 1; omega
    have h2 : b (i + n) = v.testBit 0 := by rw [h n (by omega)]; congr 1; omega
    rw [window, h1, h2, Nat.testBit_zero]
    have : (decide (v % 2 = 1)).toNat = v % 2 := by
      rcases Nat.mod_two_eq_zero_or_one v with h | h <;> simp [h]
    rw [this]; omega

theorem bitsToNat_lt (x : List Bool) : bitsToNat x < 2 ^ x.length := by
  induction x with
  | nil => simp [bitsToNat]
  | cons a x ih =>
    have := Bool.toNat_le a
    simp only [bitsToNat, List.length_cons, Nat.pow_succ]
    omega

theorem testBit_bitsToNat (x : List Bool) (j : Nat) : (bitsToNat x).testBit j = x[j]?.getD false := by
  induction x generalizing j with
  | nil => simp [bitsToNat]
  | cons a x ih =>
    cases j with
    | zero => cases a <;> simp [bitsToNat, Nat.testBit_zero]
    | succ j =>
      rw [Nat.testBit_succ]
      have : bitsToNat (a :: x) / 2 = bitsToNat x := by
        have := Bool.toNat_le a
        simp only [bitsToNat]; omega
      simp [this, ih]

/-- Bit `j` of byte `k` of a packing is bit `8k + j` of the sequence, 0 past its end. -/
theorem getLsbD_packByte (x : List Bool) (k j : Nat) (hj : j < 8) :
    (packByte x k).getLsbD j = x[8 * k + j]?.getD false := by
  unfold packByte
  rw [BitVec.getLsbD_ofNat, testBit_bitsToNat, List.getElem?_take]
  simp [hj]

/-- What OUT_MEM reads after OBUF is written. -/
theorem outByte_putObuf (x : List Bool) (s : State) (k : Nat) :
    (putObuf x s).outByte k = if k < bytesFor x.length then packByte x k else Config.freeOutByte s.draws k := by
  simp only [State.outByte, Memory.read, putObuf_outMem, cellAt_map_range]
  by_cases h : k < bytesFor x.length <;> simp [h, Fill.value]

/-- What OBUF reads, inside the bytes written, after it is written: the sequence, then zeros. -/
theorem obuf_putObuf (x : List Bool) (s : State) (k : Nat) (hk : k < 8 * bytesFor x.length) :
    (putObuf x s).obuf k = x[k]?.getD false := by
  unfold State.obuf packedBit
  rw [outByte_putObuf, if_pos (by omega), getLsbD_packByte _ _ _ (Nat.mod_lt _ (by omega))]
  congr 2; omega

theorem lt_bytesFor {n k : Nat} (h : k < n) : k < 8 * bytesFor n := by unfold bytesFor; omega

/-- Writing OBUF makes it the sequence, clean to the end of its last byte (10_state.md R49). -/
theorem obufIs_putObuf (x : List Bool) (s : State) (hx : x.length < 2 ^ 32) : ObufIs (putObuf x s) x := by
  refine ⟨by simp only [putObuf_outLen, BitVec.toNat_ofNat]; omega, fun k hk => ?_, fun k h1 h2 => ?_⟩
  · rw [obuf_putObuf x s k (lt_bytesFor hk), List.getElem?_eq_getElem hk]; rfl
  · rw [obuf_putObuf x s k h2, List.getElem?_eq_none h1]; rfl

/-- OBUF depends on OUT_LEN and OUT_MEM only. -/
theorem obufIs_congr {s t : State} {x : List Bool} (h1 : t.outLen = s.outLen) (h2 : t.outMem = s.outMem)
    (h : ObufIs s x) : ObufIs t x := by
  have : t.obuf = s.obuf := by unfold State.obuf State.outByte; rw [h2]
  unfold ObufIs; rw [h1, this]; exact h

/-- The scan reads only bits below the length. -/
theorem encodeBody_congr {b b' : Nat → Bool} {len vw : Nat} (hw : 1 ≤ vw) (vv : Nat) (repl : List Bool)
    (h : ∀ k, k < len → b k = b' k) (fuel i : Nat) :
    encodeBody b len vv vw repl fuel i = encodeBody b' len vv vw repl fuel i := by
  induction fuel generalizing i with
  | zero => simp only [encodeBody]; rw [slice_congr fun k hk => h (i + k) (by omega)]
  | succ fuel ih =>
    have hs : slice b i (len - i) = slice b' i (len - i) := slice_congr fun k hk => h (i + k) (by omega)
    simp only [encodeBody, ih, hs]
    by_cases hi : i + vw ≤ len
    · rw [window_congr (b' := b') fun k hk => h (i + k) (by omega)]
      simp only [hi, if_true]
      split
      · rfl
      · rw [h i (by omega)]
    · simp [hi]

theorem encodeImage_congr {b b' : Nat → Bool} {len vw : Nat} (hw : 1 ≤ vw) (vv rv rw : Nat) (h : ∀ k, k < len → b k = b' k) :
    encodeImage b len vv vw rv rw = encodeImage b' len vv vw rv rw := by
  simp only [encodeImage, encodeBody_congr hw vv _ h]

end Sys2Proof.Machine
end

