-- ==== Sys2Proof/Laws/WidthSelector.lean ====
section
/-! SUPPORT. What the loops of the two searches return: one inversion lemma each (42_width_selector.md). -/

namespace Sys2Proof.Machine

/-- Width `w` of the range from `a` has data and no narrower width of the range has a zero count. -/
def Reached (b : Nat → Bool) (len a w : Nat) : Prop :=
  a ≤ w ∧ w < len ∧ ∀ w', a ≤ w' → w' < w → ¬ hasZero (countedWindows b len w') w'

/-- `r` is the best pattern over the widths in `P`, starting from `best`. -/
def BestOver (b : Nat → Bool) (len : Nat) (P : Nat → Prop) (best r : Best) : Prop :=
  (r = best ∧ ∀ w, P w → maxCount (countedWindows b len w) ≤ best.count) ∨
    (best.count < r.count ∧ P r.width ∧ r.count = maxCount (countedWindows b len r.width) ∧
      r.value = mostFreq (countedWindows b len r.width) ∧
      (∀ w, P w → maxCount (countedWindows b len w) ≤ r.count) ∧
      ∀ w, P w → maxCount (countedWindows b len w) = r.count → r.width ≤ w)

theorem betterBest_cases (w : Nat) (ws : List Nat) (best : Best) :
    (best.count < maxCount ws ∧ betterBest w ws best = { count := maxCount ws, width := w, value := mostFreq ws }) ∨
      (maxCount ws ≤ best.count ∧ betterBest w ws best = best) := by
  unfold betterBest
  split
  · exact .inl ⟨‹_›, rfl⟩
  · exact .inr ⟨by omega, rfl⟩

theorem bestOver_one (b : Nat → Bool) (len w : Nat) {P : Nat → Prop} (hw : P w) (hP : ∀ w', P w' → w' = w)
    (best : Best) : BestOver b len P best (betterBest w (countedWindows b len w) best) := by
  rcases betterBest_cases w (countedWindows b len w) best with ⟨h, e⟩ | ⟨h, e⟩ <;> rw [e]
  · exact .inr ⟨h, hw, rfl, rfl, fun w' h' => by rw [hP w' h'], fun w' h' _ => by rw [hP w' h']⟩
  · exact .inl ⟨rfl, fun w' h' => by rw [hP w' h']; exact h⟩

theorem bestOver_step {b : Nat → Bool} {len w : Nat} {P Q : Nat → Prop} {best r : Best} (hw : P w)
    (hPQ : ∀ w', P w' ↔ w' = w ∨ Q w') (hQ : ∀ w', Q w' → w < w')
    (h : BestOver b len Q (betterBest w (countedWindows b len w) best) r) : BestOver b len P best r := by
  rcases betterBest_cases w (countedWindows b len w) best with ⟨hb, e⟩ | ⟨hb, e⟩ <;> rw [e] at h
  · rcases h with ⟨rfl, h1⟩ | ⟨h1, h2, h3, h4, h5, h6⟩
    · refine .inr ⟨hb, hw, rfl, rfl, fun w' h' => ?_, fun w' h' _ => ?_⟩
      · rcases (hPQ w').1 h' with rfl | h'
        · exact Nat.le_refl _
        · exact h1 w' h'
      · rcases (hPQ w').1 h' with rfl | h'
        · exact Nat.le_refl _
        · exact Nat.le_of_lt (hQ w' h')
    · simp only at h1
      refine .inr ⟨by omega, (hPQ _).2 (.inr h2), h3, h4, fun w' h' => ?_, fun w' h' he => ?_⟩
      · rcases (hPQ w').1 h' with rfl | h'
        · omega
        · exact h5 w' h'
      · rcases (hPQ w').1 h' with rfl | h'
        · omega
        · exact h6 w' h' he
  · rcases h with ⟨rfl, h1⟩ | ⟨h1, h2, h3, h4, h5, h6⟩
    · refine .inl ⟨rfl, fun w' h' => ?_⟩
      rcases (hPQ w').1 h' with rfl | h'
      · exact hb
      · exact h1 w' h'
    · refine .inr ⟨h1, (hPQ _).2 (.inr h2), h3, h4, fun w' h' => ?_, fun w' h' he => ?_⟩
      · rcases (hPQ w').1 h' with rfl | h'
        · omega
        · exact h5 w' h'
      · rcases (hPQ w').1 h' with rfl | h'
        · omega
        · exact h6 w' h' he

/-- Mode A's loop over the widths `a .. a + n - 1`: the escape it returns is the first reached width with a zero count and
its lowest absent value, none where there is no such width; the best is the best over the reached widths. -/
theorem modeALoop_spec (b : Nat → Bool) (len n a : Nat) (best : Best) :
    (∀ p, (modeALoop b len (List.range' a n) best).escape = some p →
      Reached b len a p.width ∧ p.width < a + n ∧ hasZero (countedWindows b len p.width) p.width ∧
        p.value = firstAbsent (countedWindows b len p.width)) ∧
    ((modeALoop b len (List.range' a n) best).escape = none →
      ∀ w, Reached b len a w → w < a + n → ¬ hasZero (countedWindows b len w) w) ∧
    BestOver b len (fun w => Reached b len a w ∧ w < a + n) best (modeALoop b len (List.range' a n) best).best := by
  induction n generalizing a best with
  | zero =>
    refine ⟨fun p hp => by simp [modeALoop] at hp, fun _ w hw hlt => ?_, .inl ⟨rfl, fun w hw => ?_⟩⟩
    · have := hw.1; omega
    · have := hw.1.1; omega
  | succ n ih =>
    simp only [List.range'_succ, modeALoop]
    by_cases hlen : len ≤ a
    · simp only [hlen, if_true]
      refine ⟨fun p hp => by simp at hp, fun _ w hw hlt => ?_, .inl ⟨rfl, fun w hw => ?_⟩⟩
      · have := hw.1; have := hw.2.1; omega
      · have := hw.1.1; have := hw.1.2.1; omega
    · simp only [hlen, if_false]
      have hra : Reached b len a a := ⟨Nat.le_refl _, by omega, fun w' h1 h2 => by omega⟩
      by_cases hz : hasZero (countedWindows b len a) a
      · simp only [hz, if_true]
        have honly : ∀ w, Reached b len a w → w = a := fun w hw => by
          by_contra hne
          have := hw.1
          exact hw.2.2 a (Nat.le_refl _) (by omega) hz
        refine ⟨fun p hp => ?_, fun h => by simp at h, bestOver_one b len a ⟨hra, by omega⟩ (fun w' h' => honly w' h'.1) best⟩
        obtain rfl := (Option.some.inj hp).symm
        exact ⟨hra, by show a < a + (n + 1); omega, hz, rfl⟩
      · simp only [hz, if_false]
        have hiff : ∀ w, Reached b len a w ↔ w = a ∨ Reached b len (a + 1) w := by
          intro w
          constructor
          · intro hw
            by_cases hwa : w = a
            · exact .inl hwa
            · have := hw.1
              exact .inr ⟨by omega, hw.2.1, fun w' h1 h2 => hw.2.2 w' (by omega) h2⟩
          · rintro (rfl | hw)
            · exact hra
            · refine ⟨by have := hw.1; omega, hw.2.1, fun w' h1 h2 => ?_⟩
              by_cases hwa : w' = a
              · rw [hwa]; exact hz
              · exact hw.2.2 w' (by omega) h2
        obtain ⟨i1, i2, i3⟩ := ih (a + 1) (betterBest a (countedWindows b len a) best)
        refine ⟨fun p hp => ?_, fun hn w hw hlt => ?_, ?_⟩
        · obtain ⟨h1, h2, h3, h4⟩ := i1 p hp
          exact ⟨(hiff _).2 (.inr h1), by omega, h3, h4⟩
        · rcases (hiff w).1 hw with rfl | hw
          · exact hz
          · exact i2 hn w hw (by omega)
        · refine bestOver_step ⟨hra, by omega⟩ (fun w' => ?_) (fun w' h' => by have := h'.1.1; omega) i3
          rw [hiff w']
          constructor
          · rintro ⟨rfl | h, hl⟩
            · exact .inl rfl
            · exact .inr ⟨h, by omega⟩
          · rintro (rfl | ⟨h, hl⟩)
            · exact ⟨.inl rfl, by omega⟩
            · exact ⟨.inr h, by omega⟩

/-- The candidate of Mode B at width `v` with escape `e` (42_width_selector.md R150). -/
def candidateAt (b : Nat → Bool) (len : Nat) (e : Pattern) (v : Nat) : Candidate :=
  { delta := imageDelta len (encodeImage b len (mostFreq (countedWindows b len v)) v e.value e.width).1
    victim := { width := v, value := mostFreq (countedWindows b len v) } }

/-- `r` is the closest candidate over the widths in `P`, starting from `closest`: of the smallest delta, the widest on a
tie, an earlier candidate before all. -/
def ClosestOver (b : Nat → Bool) (len : Nat) (e : Pattern) (P : Nat → Prop) (closest r : Option Candidate) : Prop :=
  (r = closest ∧ ∀ v, P v → ∃ c, closest = some c ∧ c.delta ≤ (candidateAt b len e v).delta) ∨
    ∃ v, P v ∧ r = some (candidateAt b len e v) ∧
      (∀ c, closest = some c → (candidateAt b len e v).delta < c.delta) ∧
      (∀ v', P v' → (candidateAt b len e v).delta ≤ (candidateAt b len e v').delta) ∧
      ∀ v', P v' → (candidateAt b len e v').delta = (candidateAt b len e v).delta → v' ≤ v

theorem closer_cases (c : Candidate) (closest : Option Candidate) :
    (closer c closest = c ∧ ∀ c', closest = some c' → c.delta < c'.delta) ∨
      (∃ c', closest = some c' ∧ closer c closest = c' ∧ c'.delta ≤ c.delta) := by
  cases closest with
  | none => exact .inl ⟨rfl, fun _ h => by simp at h⟩
  | some c' =>
    by_cases h : c.delta < c'.delta
    · exact .inl ⟨by simp [closer, h], fun _ he => by obtain rfl := Option.some.inj he; exact h⟩
    · exact .inr ⟨c', rfl, by simp [closer, h], by omega⟩

/-- Mode B's loop over the widths `a + n - 1` down to `a`: it accepts the widest width with data whose output is shorter
than the input; where there is none it returns the closest candidate over the widths with data. -/
theorem modeBLoop_spec (b : Nat → Bool) (len : Nat) (e : Pattern) (a n : Nat) (closest : Option Candidate) :
    (∀ c x k, modeBLoop b len e (List.range' a n).reverse closest = .accepted c x k →
      ∃ v, a ≤ v ∧ v < a + n ∧ v < len ∧ c = candidateAt b len e v ∧ c.delta < 0 ∧
        encodeImage b len (mostFreq (countedWindows b len v)) v e.value e.width = (x, k) ∧
        ∀ v', v < v' → v' < a + n → v' < len → 0 ≤ (candidateAt b len e v').delta) ∧
    (∀ r, modeBLoop b len e (List.range' a n).reverse closest = .notBeneficial r →
      (∀ v, a ≤ v → v < a + n → v < len → 0 ≤ (candidateAt b len e v).delta) ∧
        ClosestOver b len e (fun v => a ≤ v ∧ v < a + n ∧ v < len) closest r) := by
  induction n generalizing closest with
  | zero =>
    refine ⟨fun c x k h => by simp [modeBLoop] at h, fun r h => ⟨fun v h1 h2 => by omega, .inl ⟨?_, fun v hv => by omega⟩⟩⟩
    simpa [modeBLoop] using h.symm
  | succ n ih =>
    have hrev : (List.range' a (n + 1)).reverse = (a + n) :: (List.range' a n).reverse := by
      rw [List.range'_concat, List.reverse_append]; simp
    rw [hrev]
    simp only [modeBLoop]
    by_cases hlen : len ≤ a + n
    · simp only [hlen, if_true]
      obtain ⟨i1, i2⟩ := ih closest
      have hiff : ∀ v, (a ≤ v ∧ v < a + n ∧ v < len) ↔ (a ≤ v ∧ v < a + (n + 1) ∧ v < len) := fun v => by omega
      refine ⟨fun c x k h => ?_, fun r h => ?_⟩
      · obtain ⟨v, h1, h2, h3, h4, h5, h6, h7⟩ := i1 c x k h
        exact ⟨v, h1, by omega, h3, h4, h5, h6, fun v' g1 g2 g3 => h7 v' g1 (by omega) g3⟩
      · obtain ⟨h1, h2⟩ := i2 r h
        refine ⟨fun v g1 g2 g3 => h1 v g1 (by omega) g3, ?_⟩
        simp only [hiff] at h2
        exact h2
    · simp only [hlen, if_false]
      by_cases hd : (candidateAt b len e (a + n)).delta < 0
      · have hd' := hd
        simp only [candidateAt] at hd'
        simp only [hd', if_true]
        refine ⟨fun c x k h => ?_, fun r h => by simp at h⟩
        injection h with h1 h2 h3
        refine ⟨a + n, by omega, by omega, by omega, h1.symm, by rw [← h1]; exact hd, ?_, fun v' g1 g2 g3 => by omega⟩
        rw [← h2, ← h3]
      · have hd' := hd
        simp only [candidateAt] at hd'
        simp only [hd', if_false]
        obtain ⟨i1, i2⟩ := ih (some (closer (candidateAt b len e (a + n)) closest))
        refine ⟨fun c x k h => ?_, fun r h => ?_⟩
        · obtain ⟨v, h1, h2, h3, h4, h5, h6, h7⟩ := i1 c x k h
          refine ⟨v, h1, by omega, h3, h4, h5, h6, fun v' g1 g2 g3 => ?_⟩
          by_cases hv : v' = a + n
          · rw [hv]; omega
          · exact h7 v' g1 (by omega) g3
        · obtain ⟨h1, h2⟩ := i2 r h
          refine ⟨fun v g1 g2 g3 => ?_, ?_⟩
          · by_cases hv : v = a + n
            · rw [hv]; omega
            · exact h1 v g1 (by omega) g3
          · rcases closer_cases (candidateAt b len e (a + n)) closest with ⟨hc, hcl⟩ | ⟨c', hc', hc, hle⟩ <;> rw [hc] at h2
            · rcases h2 with ⟨h2, h3⟩ | ⟨v, h2, h3, h4, h5, h6⟩
              · refine .inr ⟨a + n, by omega, h2, hcl, fun v' hv' => ?_, fun v' hv' he => by omega⟩
                by_cases hv : v' = a + n
                · rw [hv]
                · obtain ⟨c, hce, hcd⟩ := h3 v' (by omega)
                  obtain rfl := Option.some.inj hce
                  exact hcd
              · have hlt := h4 _ rfl
                refine .inr ⟨v, by omega, h3, fun c hce => lt_trans hlt (hcl c hce), fun v' hv' => ?_, fun v' hv' he => ?_⟩
                · by_cases hv : v' = a + n
                  · rw [hv]; omega
                  · exact h5 v' (by omega)
                · by_cases hv : v' = a + n
                  · rw [hv] at he; omega
                  · exact h6 v' (by omega) he
            · rcases h2 with ⟨h2, h3⟩ | ⟨v, h2, h3, h4, h5, h6⟩
              · refine .inl ⟨by rw [h2, hc'], fun v' hv' => ⟨c', hc', ?_⟩⟩
                by_cases hv : v' = a + n
                · rw [hv]; exact hle
                · obtain ⟨c, hce, hcd⟩ := h3 v' (by omega)
                  obtain rfl := Option.some.inj hce
                  exact hcd
              · have hlt := h4 _ rfl
                refine .inr ⟨v, by omega, h3, fun c hce => ?_, fun v' hv' => ?_, fun v' hv' he => ?_⟩
                · rw [hc'] at hce; obtain rfl := Option.some.inj hce; exact hlt
                · by_cases hv : v' = a + n
                  · rw [hv]; omega
                  · exact h5 v' (by omega)
                · by_cases hv : v' = a + n
                  · rw [hv] at he; omega
                  · exact h6 v' (by omega) he

end Sys2Proof.Machine
end

