-- ==== Sys2Proof/Laws/Ops.lean ====
section
/-! SUPPORT. The frames of the shared operations, one lemma each: which registers an operation leaves as they read, and
how frames compose; and what a step can be. -/

namespace Sys2Proof.Machine

theorem regsKept_complete (e : ErrorCode) (s : State) : RegsKept [Reg.status] s (complete e s) := by
  intro r hr
  cases r <;> first | rfl | exact absurd hr (by decide)

theorem regsKept_setHaz (s : State) : RegsKept [Reg.status] s (setHaz s) := by
  intro r hr
  cases r <;> first | rfl | exact absurd hr (by decide)

theorem regsKept_accept (c : Word) (s : State) : RegsKept [Reg.cmd, .status, .histW] s (accept c s) := by
  intro r hr
  cases r <;> first | rfl | exact absurd hr (by decide)

theorem regsKept_putHist (w : Nat) (ws : List Nat) (s : State) : RegsKept [Reg.histW, .histSum, .histMax, .histMaxval, .histZeroval] s (putHist w ws s) := by
  intro r hr
  cases r <;> first | rfl | exact absurd hr (by decide)

theorem regsKept_putImage (x : List Bool) (n : Nat) (s : State) : RegsKept [Reg.outLen, .matchCount, .delta] s (putImage x n s) := by
  intro r hr
  cases r <;> first | rfl | exact absurd hr (by decide)

theorem regsKept_putTooLong (s : State) : RegsKept [Reg.outLen, .matchCount, .delta] s (putTooLong s) := by
  intro r hr
  cases r <;> first | rfl | exact absurd hr (by decide)

theorem regsKept_putOriginal (s : State) : RegsKept [Reg.outLen, .matchCount, .delta] s (putOriginal s) := by
  intro r hr
  cases r <;> first | rfl | exact absurd hr (by decide)

theorem regsKept_putModeA (a : ModeA) (s : State) : RegsKept [Reg.histW, .escW, .escVal, .bestW, .bestVal, .bestCount] s (putModeA a s) := by
  intro r hr
  cases r <;> first | rfl | exact absurd hr (by decide)

theorem regsKept_putCandidate (o : Option Candidate) (s : State) : RegsKept [Reg.vicW, .vicVal, .closestDelta] s (putCandidate o s) := by
  intro r hr
  cases r <;> first | rfl | exact absurd hr (by decide)

theorem regsKept_inWordWrite (m : Nat) (d : Word) (be : BitVec 4) (s : State) : RegsKept [] s (inWordWrite m d be s) := by
  intro r _
  cases r <;> rfl

/-- Frames compose: what neither change touches is kept. -/
theorem RegsKept.trans {W V U : List Reg} {s t u : State} (h : RegsKept W s t) (g : RegsKept V t u)
    (hW : ∀ r ∈ W, r ∈ U) (hV : ∀ r ∈ V, r ∈ U) : RegsKept U s u := fun r hr => by
  rw [g r fun h' => hr (hV r h'), h r fun h' => hr (hW r h')]

/-- A frame may be widened. -/
theorem RegsKept.mono {W U : List Reg} {s t : State} (h : RegsKept W s t) (hW : ∀ r ∈ W, r ∈ U) : RegsKept U s t :=
  fun r hr => h r fun h' => hr (hW r h')

/-- IN_MEM and IBUF depend on one field of the state; so do OUT_MEM and OBUF, and HIST_MEM. -/
theorem inMemKept_of_eq {s t : State} (h : t.inMem = s.inMem) : InMemKept s t := fun k => by
  unfold State.inByte; rw [h]

theorem outMemKept_of_eq {s t : State} (h : t.outMem = s.outMem) : OutMemKept s t := fun k => by
  unfold State.outByte; rw [h]

theorem histMemKept_of_eq {s t : State} (h : t.histMem = s.histMem) : HistMemKept s t := fun k => by
  unfold State.histCounter; rw [h]

theorem ibuf_of_eq {s t : State} (h : t.inMem = s.inMem) : t.ibuf = s.ibuf := by
  unfold State.ibuf State.inByte; rw [h]

theorem obuf_of_eq {s t : State} (h : t.outMem = s.outMem) : t.obuf = s.obuf := by
  unfold State.obuf State.outByte; rw [h]

/-- The input whose turn it is, and the only ways there is none. -/
theorem dueInput_cases (s : State) :
    (∃ u rest, s.turns = u :: rest ∧ (s.status.busy = false ∨ u.late = false) ∧
      dueInput s = some (u.input, { s with turns := rest })) ∨
    ((s.turns = [] ∨ ∃ u rest, s.turns = u :: rest ∧ u.late = true ∧ s.status.busy = true) ∧ dueInput s = none) := by
  unfold dueInput
  cases h : s.turns with
  | nil => exact .inr ⟨.inl rfl, rfl⟩
  | cons u rest =>
    cases hl : u.late <;> cases hb : s.status.busy <;> simp [hl]

/-- What a step can be: an input performed, the completion of the command in flight, or nothing in an idle block with no
pending input. -/
theorem step_cases {s t : State} (h : step s = .next t) :
    (∃ u rest, s.turns = u :: rest ∧ (s.status.busy = false ∨ u.late = false) ∧
      t = perform u.input { s with turns := rest }) ∨
    (s.status.busy = true ∧ ∃ i, decode s.cmd = .ok i ∧ exec i s = .next t) ∨
    (s.status.busy = true ∧ (∃ why, decode s.cmd = .error why) ∧ t = complete .illegalCommand s) ∨
    (s.status.busy = false ∧ s.turns = [] ∧ t = s) := by
  unfold step at h
  rcases dueInput_cases s with ⟨u, rest, h1, h2, h3⟩ | ⟨h1, h3⟩
  · rw [h3] at h
    exact .inl ⟨u, rest, h1, h2, (Host.Outcome.next.inj h).symm⟩
  · rw [h3] at h
    by_cases hb : s.status.busy = true
    · simp only [hb, if_true, engineStep, fetchWord] at h
      cases hd : decode s.cmd with
      | ok i => rw [hd] at h; exact .inr (.inl ⟨hb, i, rfl, h⟩)
      | error why =>
        rw [hd] at h
        exact .inr (.inr (.inl ⟨hb, ⟨why, rfl⟩, (Host.Outcome.next.inj h).symm⟩))
    · rcases h1 with h1 | ⟨u, rest, -, -, hb'⟩
      · simp only [hb] at h
        exact .inr (.inr (.inr ⟨by simpa using hb, h1, (Host.Outcome.next.inj h).symm⟩))
      · exact absurd hb' hb

/-- What a completion can be: a code, on top of the results the command's rule lists for it. -/
theorem exec_cases {i : Instr} {s t : State} (h : exec i s = .next t) :
    match i with
    | .nop => t = complete .success s
    | .load =>
      (s.params.inCapBytes < s.inNbytes.toNat ∧ t = complete .capacityExceeded s) ∨
        (s.inNbytes.toNat ≤ s.params.inCapBytes ∧
          t = complete .success { s with inLen := BitVec.ofNat 32 (8 * s.inNbytes.toNat) })
    | .getbit src =>
      ((sourceBuffer s src).1 ≤ s.argIndex.toNat ∧ t = complete .indexOutOfRange s) ∨
        (s.argIndex.toNat < (sourceBuffer s src).1 ∧
          t = complete .success { s with resultBit := (sourceBuffer s src).2 s.argIndex.toNat })
    | .hist w =>
      (widthLegal s w ∧ t = complete .success (putHist w (countedWindows s.ibuf s.inBits w) s)) ∨
        (¬ widthLegal s w ∧ t = complete .invalidPatternWidth s)
    | .escsearch =>
      (s.modeA.escape = none ∧ t = complete .noEscapeFound (putModeA s.modeA s)) ∨
        ((∃ p, s.modeA.escape = some p) ∧ t = complete .success (putModeA s.modeA s))
    | .vicsearch =>
      (s.modeA.escape = none ∧ t = complete .noEscapeFound (putCandidate none (putModeA s.modeA s))) ∨
        ∃ e, s.modeA.escape = some e ∧
          ((∃ c x n, s.modeB e = .accepted c x n ∧
              t = complete .success (putCandidate (some c) (putImage x n (putModeA s.modeA s)))) ∨
            ∃ r, s.modeB e = .notBeneficial r ∧
              t = complete .noBeneficialSubstitution (putCandidate r (putOriginal (putModeA s.modeA s))))
    | .encode vw rw =>
      (¬ (widthLegal s vw ∧ widthLegal s rw) ∧ t = complete .invalidPatternWidth s) ∨
        ((widthLegal s vw ∧ widthLegal s rw) ∧
          ((¬ (valueLegal s.valA.toNat vw ∧ valueLegal s.valB.toNat rw) ∧ t = complete .invalidPatternValue s) ∨
            ((valueLegal s.valA.toNat vw ∧ valueLegal s.valB.toNat rw) ∧
              ∃ r, r = encodeImage s.ibuf s.inBits s.valA.toNat vw s.valB.toNat rw ∧
                ((s.params.outCapBits < r.1.length ∧ t = complete .capacityExceeded (putTooLong s)) ∨
                  (r.1.length ≤ s.params.outCapBits ∧ t = complete .success (putImage r.1 r.2 s)))))) := by
  cases i with
  | nop => exact (Host.Outcome.next.inj h).symm
  | load =>
    simp only [exec, execLoad] at h
    split at h
    · exact .inl ⟨‹_›, (Host.Outcome.next.inj h).symm⟩
    · exact .inr ⟨by omega, (Host.Outcome.next.inj h).symm⟩
  | getbit src =>
    simp only [exec, execGetbit] at h
    split at h
    · exact .inl ⟨‹_›, (Host.Outcome.next.inj h).symm⟩
    · exact .inr ⟨by omega, (Host.Outcome.next.inj h).symm⟩
  | hist w =>
    simp only [exec, execHist] at h
    split at h
    · exact .inl ⟨‹_›, (Host.Outcome.next.inj h).symm⟩
    · exact .inr ⟨‹_›, (Host.Outcome.next.inj h).symm⟩
  | escsearch =>
    simp only [exec, execEscsearch] at h
    split at h
    · exact .inl ⟨‹_›, (Host.Outcome.next.inj h).symm⟩
    · exact .inr ⟨⟨_, ‹_›⟩, (Host.Outcome.next.inj h).symm⟩
  | vicsearch =>
    simp only [exec, execVicsearch] at h
    split at h
    · exact .inl ⟨‹_›, (Host.Outcome.next.inj h).symm⟩
    · refine .inr ⟨_, ‹_›, ?_⟩
      split at h
      · exact .inl ⟨_, _, _, ‹_›, (Host.Outcome.next.inj h).symm⟩
      · exact .inr ⟨_, ‹_›, (Host.Outcome.next.inj h).symm⟩
  | encode vw rw =>
    simp only [exec, execEncode] at h
    split at h
    · refine .inr ⟨‹_›, ?_⟩
      split at h
      · refine .inr ⟨‹_›, _, rfl, ?_⟩
        split at h
        · exact .inl ⟨‹_›, (Host.Outcome.next.inj h).symm⟩
        · exact .inr ⟨by omega, (Host.Outcome.next.inj h).symm⟩
      · exact .inl ⟨‹_›, (Host.Outcome.next.inj h).symm⟩
    · exact .inl ⟨‹_›, (Host.Outcome.next.inj h).symm⟩

/-- What a host read can change: the word the port returned, and the count of free draws. -/
theorem hostRead_eq (a : Word) (s : State) :
    hostRead a s =
      if inFlightWrites s (locOf s.params a) = true then
        { s with rdata := unspecifiedRead s s.draws (locOf s.params a), draws := s.draws + 1 }
      else { s with rdata := locRead s (locOf s.params a) } := rfl

/-- What a host write can be: nothing, a dropped write, an accepted command, a register written, or bytes stored. -/
theorem hostWrite_cases (a d : Word) (be : BitVec 4) (s : State) :
    hostWrite a d be s = s ∨
    (s.status.busy = true ∧ hostWrite a d be s = setHaz s) ∨
    (∃ r, locOf s.params a = .reg r ∧ be = 0xF#4 ∧
      ((r = .ctrl ∧ hostWrite a d be s = { s with ie := d.getLsbD 0 }) ∨
        (r = .status ∧ hostWrite a d be s = { s with status := s.status.writeOneToClear d }) ∨
        (s.status.busy = false ∧
          ((r = .cmd ∧ hostWrite a d be s = accept d s) ∨
            (r = .maxw ∧ hostWrite a d be s = writeMaxw d s) ∨
            (r = .inNbytes ∧ hostWrite a d be s = { s with inNbytes := d }) ∨
            (r = .argIndex ∧ hostWrite a d be s = { s with argIndex := d }) ∨
            (r = .valA ∧ hostWrite a d be s = { s with valA := d }) ∨
            (r = .valB ∧ hostWrite a d be s = { s with valB := d }))))) ∨
    ∃ m, locOf s.params a = .inWord m ∧ s.status.busy = false ∧ hostWrite a d be s = inWordWrite m d be s := by
  unfold hostWrite
  cases hl : locOf s.params a with
  | reg r =>
    by_cases hbe : be = 0xF#4
    · cases hb : s.status.busy <;> cases r <;> simp [hbe, hb, regWrite, unlessBusy]
    · simp [hbe]
  | inWord m =>
    by_cases he : inLanes s.params m be = []
    · simp [he]
    · cases hb : s.status.busy <;> simp [he, hb, unlessBusy]
  | outWord m => simp
  | counter k => simp
  | reserved => simp

/-- What a write to MAXW can be: the legal value taken, or nothing (10_state.md R31). -/
theorem writeMaxw_cases (d : Word) (s : State) :
    (∃ m : BitVec 6, 1 ≤ m.toNat ∧ m.toNat ≤ s.params.maxWidthHw ∧ writeMaxw d s = { s with maxw := m }) ∨
      writeMaxw d s = s := by
  unfold writeMaxw
  split
  · rename_i h; exact .inl ⟨_, h.2.1, h.2.2, rfl⟩
  · exact .inr rfl

end Sys2Proof.Machine
end

