-- ==== Sys2Proof/Laws/HostProgram.lean ====
section
/-! SUPPORT. What a move of a host program can be, and what the end of a WAIT says of the machine (30_encoding.md R97,
R98). -/

namespace Sys2Proof.Machine

/-- STATUS is in no command's write set, so a read of it is exact (20_memory.md R71). -/
theorem inFlightWrites_status (s : State) : inFlightWrites s (.reg .status) = false := by
  unfold inFlightWrites
  cases decode (fetchWord s) with
  | error => simp [Except.toOption]
  | ok i => cases i <;> simp [Except.toOption, writeSet, searchWrites, outputWrites]

/-- Bit [0] of the word STATUS reads as is BUSY (10_state.md R29). -/
theorem getLsbD_zero_status (t : Status) : t.word.getLsbD 0 = t.busy := by
  simp only [Status.word, BitVec.getLsbD_append]
  simp

/-- A read of STATUS returns BUSY in bit [0] and leaves BUSY alone. -/
theorem hostRead_status (s : State) {a : Word} (h : locOf s.params a = .reg .status) :
    (hostRead a s).rdata.getLsbD 0 = (hostRead a s).status.busy := by
  rw [hostRead_eq, h, inFlightWrites_status]
  exact getLsbD_zero_status s.status

/-- A register's address is its register, in every build. -/
theorem locOf_status (p : Params) : locOf p (HostLoc.reg .status).address = .reg .status := by
  show locOf p 0x00000014#32 = _
  simp [locOf, histBase, outBase, inBase, regsInOrder]

/-- What a move can be: a completion that leaves the program where it is, the program's next transaction, or a step of the
machine after the program's end. -/
theorem Session.move_cases {e : Bool} {c d : Session} (h : c.move e = .next d) :
    (c.machine.status.busy = true ∧ d.acts = c.acts ∧ step { c.machine with turns := [] } = .next d.machine) ∨
      (∃ a x rest, c.acts = (a, x) :: rest ∧ d.machine = perform x { c.machine with turns := [] } ∧
        d.acts = actsAfter d.machine c.acts) ∨
      (c.acts = [] ∧ d.acts = [] ∧ step { c.machine with turns := [] } = .next d.machine) := by
  unfold Session.move at h
  by_cases hc : c.completes e = true
  · simp only [Session.turns, hc, if_true] at h
    split at h
    · obtain rfl := Host.Outcome.next.inj h
      exact .inl ⟨(Bool.and_eq_true_iff.1 hc).2, rfl, ‹_›⟩
    · cases h
    · cases h
  · cases ha : c.acts with
    | nil =>
      simp only [Session.turns, hc, ha, Bool.false_eq_true, if_false, List.take_nil, List.map_nil] at h
      split at h
      · obtain rfl := Host.Outcome.next.inj h
        exact .inr (.inr ⟨rfl, rfl, ‹_›⟩)
      · cases h
      · cases h
    | cons a rest =>
      obtain ⟨a, x⟩ := a
      have hs : step { c.machine with turns := c.turns e } = .next (perform x { c.machine with turns := [] }) := by
        simp only [Session.turns, hc, ha, Bool.false_eq_true, if_false]
        rfl
      rw [hs] at h
      simp only [hc, Bool.false_eq_true, if_false] at h
      obtain rfl := Host.Outcome.next.inj h
      exact .inr (.inl ⟨a, x, rest, rfl, rfl, by rw [ha]⟩)

/-- A WAIT that ends, ends idle: the move that goes past it leaves BUSY 0 (30_encoding.md R98). -/
theorem Session.wait_ends_idle {e : Bool} {c d : Session} {x : Input} {rest : List (HostAct × Input)}
    (hc : c.acts = (.wait, x) :: rest) (hx : HostAct.wait.input = some x) (h : c.move e = .next d)
    (hd : d.acts ≠ c.acts) : d.acts = rest ∧ d.machine.status.busy = false := by
  have hx : x = .read (HostLoc.reg .status).address := (Option.some.inj hx).symm
  rcases Session.move_cases h with ⟨-, h1, -⟩ | ⟨a, y, rest', h1, h2, h3⟩ | ⟨h1, -, -⟩
  · exact absurd h1 hd
  · rw [hc] at h1
    obtain ⟨h4, rfl⟩ := List.cons.inj h1
    obtain ⟨rfl, rfl⟩ := Prod.mk.inj h4
    have hb : d.machine.rdata.getLsbD 0 = d.machine.status.busy := by
      rw [h2, hx]
      exact hostRead_status _ (locOf_status _)
    rw [hc, actsAfter, hb] at h3
    cases hbusy : d.machine.status.busy with
    | false => exact ⟨by rw [h3, hbusy]; rfl, rfl⟩
    | true =>
      rw [hbusy] at h3
      exact absurd (h3.trans hc.symm) hd
  · rw [hc] at h1
    cases h1

end Sys2Proof.Machine
end

