-- ==== Sys2Proof/Laws/PerInstr.lean ====
section
/-! SUPPORT. The family of laws stated instruction by instruction: the bits a row of the opcode map fixes, in the word
of every well-formed command (30_encoding.md R93). -/

namespace Sys2Proof.Laws

/-- The word of a well-formed command has its row's fixed bits: `word & mask = match` (30_encoding.md R93). -/
def RowBits.Statement (i : Instr) : Prop := i.wellFormed = true → encode i &&& rowMask i = rowMatch i

theorem RowBits.nop : RowBits.Statement .nop := fun _ => by decide

theorem RowBits.load : RowBits.Statement .load := fun _ => by decide

theorem RowBits.getbit (src : Src) : RowBits.Statement (.getbit src) := fun _ => by cases src <;> decide

theorem RowBits.hist (wa : Nat) : RowBits.Statement (.hist wa) := fun h => by
  have hw : wa ≤ 63 := by simpa [Instr.wellFormed] using h
  have all : ∀ v : BitVec 6, encode (.hist v.toNat) &&& rowMask (.hist v.toNat) = rowMatch (.hist v.toNat) := by
    decide +kernel
  have := all (BitVec.ofNat 6 wa)
  rwa [BitVec.toNat_ofNat, Nat.mod_eq_of_lt (by omega)] at this

theorem RowBits.escsearch : RowBits.Statement .escsearch := fun _ => by decide

theorem RowBits.vicsearch : RowBits.Statement .vicsearch := fun _ => by decide

theorem RowBits.encode (wa wb : Nat) : RowBits.Statement (.encode wa wb) := fun h => by
  have hw : wa ≤ 63 ∧ wb ≤ 63 := by simpa [Instr.wellFormed] using h
  have all : ∀ v u : BitVec 6, Sys2Proof.encode (.encode v.toNat u.toNat) &&& rowMask (.encode v.toNat u.toNat) =
      rowMatch (.encode v.toNat u.toNat) := by decide +kernel
  have := all (BitVec.ofNat 6 wa) (BitVec.ofNat 6 wb)
  rwa [BitVec.toNat_ofNat, BitVec.toNat_ofNat, Nat.mod_eq_of_lt (by omega), Nat.mod_eq_of_lt (by omega)] at this

end Sys2Proof.Laws
end

