-- ==== Sys2Proof/Tests/Slice0.lean ====
section
/-! SUPPORT. The model's own tests: what WellFormed refuses, words written out from 30_encoding.md, the vectors of
95_test_vectors.md, and for each statement with hypotheses a concrete state and operands that meet them together. -/

set_option Elab.async false

namespace Sys2Proof.Tests

open Sys2Proof.Machine

/-! ### Helpers -/

/-- A machine after reset whose IN_MEM and IN_LEN hold these bytes, with maximum width `mw`. -/
def withBytes (bytes : List Byte) (mw : BitVec 6) : State :=
  { State.reset with
    inMem := { cells := (List.range bytes.length).map (fun k => (k, bytes.getD k 0#8)), fill := .drawn 0 }
    inLen := BitVec.ofNat 32 (8 * bytes.length)
    maxw := mw }

/-- A machine after reset whose OBUF is this sequence. -/
def withOutput (x : List Bool) : State := putObuf x State.reset

/-- The next state of an outcome, the reset state for a stop. -/
def nextOf : Host.Outcome State Fault Refusal → State
  | .next t => t
  | .fault _ => State.reset
  | .refused _ => State.reset

/-- The outcome is a next state. -/
def isNext : Host.Outcome State Fault Refusal → Bool
  | .next _ => true
  | .fault _ => false
  | .refused _ => false

theorem next_nextOf {o : Host.Outcome State Fault Refusal} (h : isNext o = true) : o = .next (nextOf o) := by
  cases o with
  | next t => rfl
  | fault f => cases f
  | refused r => cases h

/-- What command `i` leaves. -/
def after (i : Instr) (s : State) : State := nextOf (exec i s)

/-- A build with one byte of IN_MEM and the least OUT_MEM that R3 allows it. -/
def tiny : Params := { maxWidthHw := 32, histVisW := 1, inCapBytes := 1, outCapBits := 82 }

/-- The tiny build with the byte 0x00 loaded. -/
def tinyState : State :=
  { State.resetWith tiny 0 with inMem := { cells := [(0, 0x00#8)], fill := .drawn 0 }, inLen := 8#32 }

/-! ### WellFormed refuses each ill-formed operand -/

theorem test_hist_64_ill_formed : (Instr.hist 64).wellFormed = false := by decide

theorem test_encode_victim_64_ill_formed : (Instr.encode 64 1).wellFormed = false := by decide

theorem test_encode_replacement_64_ill_formed : (Instr.encode 1 64).wellFormed = false := by decide

theorem test_widths_63_well_formed : (Instr.hist 63).wellFormed = true ∧ (Instr.encode 63 63).wellFormed = true := by
  decide

/-! ### Words written out bit by bit from 30_encoding.md R91 and R93: RES2, WB, RES1, WA, RES0, SRC, OP -/

theorem test_word_nop : decode (0b0000000000#10 ++ 0b000000#6 ++ 0b00#2 ++ 0b000000#6 ++ 0b000#3 ++ 0b0#1 ++ 0b0000#4) =
    .ok .nop := by decide

theorem test_word_load : decode (0b0000000000#10 ++ 0b000000#6 ++ 0b00#2 ++ 0b000000#6 ++ 0b000#3 ++ 0b0#1 ++ 0b0001#4) =
    .ok .load := by decide

theorem test_word_getbit_i :
    decode (0b0000000000#10 ++ 0b000000#6 ++ 0b00#2 ++ 0b000000#6 ++ 0b000#3 ++ 0b0#1 ++ 0b0010#4) =
      .ok (.getbit .ibuf) := by decide

theorem test_word_getbit_o :
    decode (0b0000000000#10 ++ 0b000000#6 ++ 0b00#2 ++ 0b000000#6 ++ 0b000#3 ++ 0b1#1 ++ 0b0010#4) =
      .ok (.getbit .obuf) := by decide

theorem test_word_hist :
    decode (0b0000000000#10 ++ 0b000000#6 ++ 0b00#2 ++ 0b100001#6 ++ 0b000#3 ++ 0b0#1 ++ 0b0011#4) =
      .ok (.hist 33) := by decide

theorem test_word_escsearch :
    decode (0b0000000000#10 ++ 0b000000#6 ++ 0b00#2 ++ 0b000000#6 ++ 0b000#3 ++ 0b0#1 ++ 0b0100#4) =
      .ok .escsearch := by decide

theorem test_word_vicsearch :
    decode (0b0000000000#10 ++ 0b000000#6 ++ 0b00#2 ++ 0b000000#6 ++ 0b000#3 ++ 0b0#1 ++ 0b0101#4) =
      .ok .vicsearch := by decide

theorem test_word_encode :
    decode (0b0000000000#10 ++ 0b000011#6 ++ 0b00#2 ++ 0b110000#6 ++ 0b000#3 ++ 0b0#1 ++ 0b0110#4) =
      .ok (.encode 48 3) := by decide

/-- 95_test_vectors.md section 2: the illegal words, by the reason of R94. -/
theorem test_word_illegal :
    decode 0x00000007#32 = .error .reservedOp ∧ decode 0x0000000F#32 = .error .reservedOp ∧
      decode 0x00000104#32 = .error .nonzeroField ∧ decode 0x00000022#32 = .error .nonzeroField ∧
      decode 0x00010003#32 = .error .nonzeroField ∧ decode 0x00004206#32 = .error .nonzeroField ∧
      decode 0x80000000#32 = .error .nonzeroField ∧ decode 0x00000013#32 = .error .nonzeroField := by decide

theorem test_table_word : decodeTableWord 32 0x00010806 = some (.encode 8 1) ∧ decodeTableWord 32 0x00000007 = none := by
  decide

/-! ### Commands: vectors of 95_test_vectors.md -/

/-- Vector 3.1. -/
theorem test_nop_status : regRead (after .nop (accept 0x00000000#32 State.reset)) .status = 0x00000002#32 := by decide +kernel

/-- Vector 3.9. -/
theorem test_load_full :
    (after .load { State.reset with inNbytes := 0x00100000#32 }).inLen = 0x00800000#32 := by decide +kernel

/-- Vector 3.10. -/
theorem test_load_too_long :
    regRead (after .load (accept 0x00000001#32 { State.reset with inLen := 8#32, inNbytes := 0x00100001#32 })) .status =
        0x00000176#32 ∧
      (after .load { State.reset with inLen := 8#32, inNbytes := 0x00100001#32 }).inLen = 8#32 := by decide +kernel

/-- The example of 1.1: IBUF of 0xB4 is 0,0,1,0,1,1,0,1. -/
theorem test_getbit_i_order :
    (List.range 8).map (fun k =>
        (after (.getbit .ibuf) { withBytes [0xB4#8] 32#6 with argIndex := BitVec.ofNat 32 k }).resultBit) =
      [false, false, true, false, true, true, false, true] := by decide +kernel

/-- Vectors 3.5 and 3.7: an index at the length, and an empty OBUF. -/
theorem test_getbit_out_of_range :
    regRead (after (.getbit .ibuf) (accept 0x00000002#32 { withBytes [0xB4#8] 32#6 with argIndex := 8#32 })) .status =
        0x00000216#32 ∧
      regRead (after (.getbit .obuf) (accept 0x00000012#32 State.reset)) .status = 0x00000216#32 := by decide +kernel

/-- Vector 4.2: a tie of the values 1 and 2. -/
theorem test_hist_2 :
    (fun t => (regRead t .histW, t.histSum, t.histMax, t.histMaxval, t.histZeroval,
        (List.range 5).map t.histCounter)) (after (.hist 2) (withBytes [0xB4#8] 32#6)) =
      (0x00000102#32, 6#32, 2#32, 1#32, 0#32, [1#32, 2#32, 2#32, 1#32, 0#32]) := by decide +kernel

/-- Vector 4.5: width and length equal, no data. -/
theorem test_hist_no_data :
    (fun t => (regRead t .histW, t.histSum, t.histMax, t.histMaxval, t.histZeroval, t.histCounter 0))
        (after (.hist 8) (withBytes [0xB4#8] 32#6)) = (0x00000708#32, 0#32, 0#32, 0#32, 0#32, 0#32) := by decide +kernel

/-- Vector 6.1. -/
theorem test_escsearch_b4 :
    (fun t => (t.escW, t.escVal, t.bestW, t.bestVal, t.bestCount, regRead t .status))
        (after .escsearch (accept 0x00000004#32 (withBytes [0xB4#8] 32#6))) =
      (3#6, 0#32, 1#6, 0#32, 4#32, 0x00000402#32) := by decide +kernel

/-- Vector 6.2: MAXW exceeded; BEST_* are still written. -/
theorem test_escsearch_fails :
    (fun t => (t.escW, t.escVal, t.bestW, t.bestVal, t.bestCount, regRead t .status))
        (after .escsearch (accept 0x00000004#32 (withBytes [0xB4#8] 2#6))) =
      (0#6, 0#32, 1#6, 0#32, 4#32, 0x00000436#32) := by decide +kernel

/-- Vector 6.10, whose tie at width 32 the lowest value wins. -/
theorem test_vicsearch_aa :
    (fun t => (t.escW, t.vicW, t.vicVal, t.outLen, t.matchCount, t.delta, locRead t (.outWord 0)))
        (after .vicsearch (withBytes (List.replicate 8 0xAA#8) 32#6)) =
      (2#6, 32#6, 0x55555555#32, 48#32, 2#32, 0xFFFFFFF0#32, 0x5555555F#32) := by decide +kernel

/-- Vector 6.8: the widest width of a tie is the closest, and OBUF is IBUF. -/
theorem test_vicsearch_not_beneficial :
    (fun t => (t.vicW, t.vicVal, t.closestDelta, t.outLen, t.matchCount, t.delta, t.outByte 0, regRead t .status))
        (after .vicsearch (accept 0x00000005#32 (withBytes [0xB4#8] 32#6))) =
      (7#6, 22#32, 16#32, 8#32, 0#32, 0#32, 0xB4#8, 0x00000546#32) := by decide +kernel

/-- Vector 5.1. -/
theorem test_encode_b4 :
    (fun t => (t.outLen, t.matchCount, t.delta, t.outByte 0, t.outByte 1, t.outByte 2))
        (after (.encode 2 1) { withBytes [0xB4#8] 32#6 with valA := 1#32, valB := 0#32 }) =
      (18#32, 3#32, 10#32, 0x50#8, 0x00#8, 0x01#8) := by decide +kernel

/-- Vectors 5.15 and 5.17: the value check, and the width check before it. -/
theorem test_encode_checks :
    regRead (after (.encode 2 1) (accept 0x00010206#32 { State.reset with valA := 4#32 })) .status = 0x00000666#32 ∧
      regRead (after (.encode 0 1) (accept 0x00010006#32 { State.reset with valA := 9#32, valB := 9#32 })) .status =
        0x00000626#32 := by decide +kernel

/-! ### The step, the port and host programs -/

/-- A command of the opcode table runs as the first after reset. -/
theorem test_first_command : regRead (nextOf (step (State.reset.withFetchWord 32 0x00000705))) .status = 0x00000556#32 ∧
    regRead (nextOf (step (State.reset.withFetchWord 32 0x00000503))) .status = 0x00000302#32 := by decide +kernel

/-- Vector 7.15: the low address bits are ignored, and lanes are little-endian. -/
theorem test_read_in_mem :
    (hostRead 0x10000002#32 (withBytes [0x11#8, 0x22#8, 0x33#8, 0x44#8] 32#6)).rdata = 0x44332211#32 := by decide +kernel

/-- Vector 7.16. -/
theorem test_write_one_lane :
    (fun s => (s.inByte 0, s.inByte 1, s.inByte 2))
        (hostWrite 0x10000001#32 0x0000AB00#32 0b0010#4 (withBytes [0x11#8, 0x22#8, 0x33#8] 32#6)) =
      (0x11#8, 0xAB#8, 0x33#8) := by decide +kernel

/-- Vectors 7.7 and 7.8: a write to CMD while busy is dropped, with HAZ. -/
theorem test_busy_write_dropped :
    (fun s => (s.cmd, s.status.haz)) (hostWrite 0x00000018#32 0x00000203#32 0xF#4 (accept 0x00000005#32 State.reset)) =
      (0x00000005#32, true) := by decide +kernel

/-- The state a run of a host program leaves, with whether it has ended, under a list of choices. -/
def runProgram (orders : List Bool) (s : State) (lines : List HostLine) : Option (Bool × State) :=
  match assembleProgram lines with
  | none => none
  | some acts =>
    match Session.run orders { acts := acts, machine := s } with
    | .next d => some (d.acts.isEmpty, d.machine)
    | .fault _ => none
    | .refused _ => none

/-- R98: `GET.O 3` as its acts, and the assembler's refusal of `DO HIST 64`. -/
theorem test_get_o_acts :
    (HostLine.getO 3#32).acts = [.once (.wr (.reg .argIndex) 3#32), .once (.cmd (.getbit .obuf)), .wait,
        .once (.rd (.reg .resultBit))] ∧ assembleProgram [.doCmd (.hist 64)] = none := by decide +kernel

/-- R98: `DO NOP` with one busy read, then a `WAIT` begun idle, which reads STATUS once. -/
theorem test_wait_tests_busy :
    (runProgram [false, false, true, false, false] State.reset [.doCmd .nop, .wait]).map
        (fun r => (r.1, r.2.rdata)) = some (true, 0x00000002#32) ∧
      (runProgram [false, false, false, false] State.reset [.doCmd .nop]).map (fun r => (r.1, r.2.rdata)) =
        some (false, 0x00000001#32) := by decide +kernel

/-- R188: a line after a command that no WAIT follows may fall before the completion or after it. -/
theorem test_order_is_free :
    (runProgram [false, false] State.reset [.op (.cmd .nop), .op (.wr (.reg .valA) 7#32)]).map
        (fun r => (r.2.valA, r.2.status.haz)) = some (0#32, true) ∧
      (runProgram [false, true, false] State.reset [.op (.cmd .nop), .op (.wr (.reg .valA) 7#32)]).map
        (fun r => (r.2.valA, r.2.status.haz)) = some (7#32, false) := by decide +kernel

/-- A write of the value an unlisted location reads as removes the listing. -/
theorem test_memory_canonical :
    ((⟨[(3, 1#32), (5, 2#32)], .zero⟩ : Memory 32).write 3 0#32) = ⟨[(5, 2#32)], .zero⟩ ∧
      ((⟨[(5, 2#8)], .drawn 0⟩ : Memory 8).write 3 0#8) = ⟨[(3, 0#8), (5, 2#8)], .drawn 0⟩ := by decide

theorem test_memory_wf_at_reset : State.reset.inMem.wf ∧ State.reset.outMem.wf ∧ State.reset.histMem.wf := by decide

/-! ### Witnesses: for each statement with hypotheses, values that meet them together, clause by clause -/

theorem witness_DecodeOfEncode : (Instr.encode 63 63).wellFormed = true ∧ (Instr.hist 0).wellFormed = true := by decide

theorem witness_EncodeOfDecode : decode 0x003F3F06#32 = .ok (.encode 63 63) := by decide

theorem witness_LegalWordsMatchOneRow :
    0x00000012#32 &&& 0xFFFFFFEF#32 = 0x00000002#32 ∧ 0x003F3F06#32 &&& 0xFFC0C0FF#32 = 0x00000006#32 ∧
      decode 0x00000007#32 = .error .reservedOp := by decide

theorem witness_AssemblerWords :
    (63 : Nat) ≤ 63 ∧ 63 < (64 : Nat) ∧ ((63 : Nat) < 64 ∨ (63 : Nat) < 0) ∧ ((63 : Nat) < 0 ∨ (63 : Nat) < 64) := by decide

/-- A command in flight with no pending input, and one whose first pending input is late. -/
theorem witness_StepRunsDecodedCommand :
    ((accept 0x00000203#32 State.reset).status.busy = true ∧
      (∀ t ∈ (accept 0x00000203#32 State.reset).turns.head?, t.late = true) ∧
      decode (accept 0x00000203#32 State.reset).cmd = .ok (.hist 2)) ∧
    ((accept 0x00000012#32 { State.reset with turns := [⟨true, .reset⟩] }).status.busy = true ∧
      (∀ t ∈ (accept 0x00000012#32 { State.reset with turns := [⟨true, .reset⟩] }).turns.head?, t.late = true) ∧
      decode (accept 0x00000012#32 { State.reset with turns := [⟨true, .reset⟩] }).cmd = .ok (.getbit .obuf)) ∧
    decodeTableWord 32 0x00000203 = some (.hist 2) := by decide +kernel

/-- A late input with no command in flight, an early one with one in flight, and an idle block. -/
theorem witness_StepPerformsPendingInput :
    (({ State.reset with turns := [⟨true, .reset⟩] } : State).turns = ⟨true, .reset⟩ :: [] ∧
      ({ State.reset with turns := [⟨true, .reset⟩] } : State).status.busy = false) ∧
    (accept 0x00000005#32 { State.reset with turns := [⟨false, .read 0x14#32⟩] }).turns = ⟨false, .read 0x14#32⟩ :: [] ∧
    (accept 0x00000005#32 { State.reset with turns := [⟨false, .read 0x14#32⟩] }).status.busy = true ∧
    State.reset.turns = [] ∧ State.reset.status.busy = false := by decide +kernel

theorem witness_AcceptanceWrites :
    (0x0000001B#32).toNat / 4 = 0x018 / 4 ∧ (0x00000018#32).toNat / 4 = 0x018 / 4 ∧ State.reset.status.busy = false := by
  decide +kernel

/-- Every command answers a next state from reset. -/
theorem witness_CodesOfEachCommand :
    [Instr.nop, .load, .getbit .ibuf, .getbit .obuf, .hist 1, .escsearch, .vicsearch, .encode 1 1].all
      (fun i => isNext (exec i State.reset)) = true := by decide +kernel

theorem witness_IllegalWordCompletes :
    (accept 0x80000000#32 State.reset).status.busy = true ∧
      (∀ t ∈ (accept 0x80000000#32 State.reset).turns.head?, t.late = true) ∧
      decode (accept 0x80000000#32 State.reset).cmd = .error .nonzeroField ∧
      decode (accept 0x00000007#32 State.reset).cmd = .error .reservedOp ∧ (0x0000001B#32).toNat / 4 = 0x018 / 4 ∧
      State.reset.status.busy = false ∧ (∀ t ∈ State.reset.turns.head?, t.late = true) := by decide +kernel

theorem witness_WriteSetFrame :
    exec .load State.reset = .next (after .load State.reset) ∧ writeSet .load (.reg .status) = false ∧
      writeSet .load (.outWord 0) = false ∧ Loc.reg .maxw ≠ .reg .status ∧ writeSet .load (.reg .maxw) = false ∧
      (∀ m, writeSet .load (.outWord m) = false) ∧ ∀ k, writeSet .load (.counter k) = false :=
  ⟨next_nextOf (by decide +kernel), by decide, by decide, by decide, by decide, fun _ => rfl, fun _ => rfl⟩

/-- Two states that agree on the operands and differ in the rest, and a HIST that succeeds in both. -/
theorem witness_CommandsDependOnOperandsOnly :
    SameOperands (withBytes [0xB4#8] 32#6)
        { withBytes [0xB4#8] 32#6 with histSum := 9#32, draws := 7, cmd := 1#32, escW := 3#6 } ∧
      isNext (exec (.hist 2) (withBytes [0xB4#8] 32#6)) = true ∧
      (after (.hist 2) (withBytes [0xB4#8] 32#6)).status.code = .success ∧
      computes (.hist 2) .histSum = true ∧ computes .escsearch .escW = true :=
  ⟨⟨rfl, rfl, rfl, rfl, rfl, rfl, rfl, rfl, fun _ _ => rfl, fun _ _ => rfl⟩, by decide +kernel, by decide +kernel,
    by decide, by decide⟩

theorem witness_CommandInFlightEnds :
    (accept 0x00000005#32 { State.reset with turns := [⟨false, .read 0x14#32⟩] }).status.busy = true := by decide +kernel

/-- A GETBIT of an empty buffer, in flight. -/
theorem witness_OnlyGetbitOutOfRangeViolates :
    step (accept 0x00000002#32 State.reset) = .next (nextOf (step (accept 0x00000002#32 State.reset))) ∧
      State.hostViolation (nextOf (step (accept 0x00000002#32 State.reset))) :=
  ⟨next_nextOf (by decide +kernel), by decide +kernel⟩

/-- Each check at the least operand that fails it. -/
theorem witness_OperandErrorsWriteNothing :
    (({ State.reset with inNbytes := 0x00100001#32 } : State).params.inCapBytes < (0x00100001#32).toNat) ∧
      (({ withBytes [0xB4#8] 32#6 with argIndex := 8#32 } : State).inLen.toNat ≤ (8#32).toNat) ∧
      State.reset.outLen.toNat ≤ State.reset.argIndex.toNat ∧ (0 < 1 ∧ State.reset.maxw.toNat < 33) ∧
      (1 ≤ 32 ∧ 32 ≤ State.reset.maxw.toNat ∧ 2 ^ 2 ≤ (4#32).toNat ∧ 2 ^ 1 ≤ (2#32).toNat) := by decide +kernel

/-- A LOAD of all of IN_MEM, and of nothing. -/
theorem witness_LoadCompletes :
    State.reset.params.legal ∧ (0x00100000#32).toNat ≤ State.reset.params.inCapBytes ∧
      State.reset.inNbytes.toNat ≤ State.reset.params.inCapBytes := by decide +kernel

theorem witness_LoadRoundTrip :
    State.reset.params.legal ∧
      exec .load { State.reset with inNbytes := 1#32 } = .next (after .load { State.reset with inNbytes := 1#32 }) ∧
      (after .load { State.reset with inNbytes := 1#32 }).status.code = .success ∧
      (after .nop (after .load { State.reset with inNbytes := 1#32 })).inLen =
        (after .load { State.reset with inNbytes := 1#32 }).inLen ∧
      (∀ k, k < (1#32).toNat → (after .nop (after .load { State.reset with inNbytes := 1#32 })).inByte k =
        (after .load { State.reset with inNbytes := 1#32 }).inByte k) ∧ 0 < (1#32).toNat ∧ 7 < 8 :=
  ⟨by decide +kernel, next_nextOf (by decide +kernel), by decide +kernel, by decide +kernel, fun _ _ => rfl, by decide,
    by decide⟩

/-- The last bit of each buffer. -/
theorem witness_GetbitCompletes :
    ({ withBytes [0xB4#8] 32#6 with argIndex := 7#32 } : State).argIndex.toNat <
        ({ withBytes [0xB4#8] 32#6 with argIndex := 7#32 } : State).inLen.toNat ∧
      ({ withOutput [true, false] with argIndex := 1#32 } : State).argIndex.toNat <
        ({ withOutput [true, false] with argIndex := 1#32 } : State).outLen.toNat := by decide +kernel

theorem witness_WindowIsShiftExtended : (1 : Nat) ≤ 1 ∧ window (fun k => k == 3) 1 1 = 0 := by decide

/-- The narrowest buffer with data at width 2. -/
theorem witness_AbsenceIsInherited :
    (1 : Nat) ≤ 1 ∧ 1 + 1 < 3 ∧ (countedWindows (fun _ => false) 3 1).count 1 = 0 := by decide

/-- The ends of the width range; a width with an absent value and one without. -/
theorem witness_HistCompletes :
    (withBytes [0xB4#8] 32#6).maxw.toNat ≤ 32 ∧ (1 : Nat) ≤ 1 ∧ 32 ≤ (withBytes [0xB4#8] 32#6).maxw.toNat ∧
      HasAbsent (withBytes [0x80#8] 32#6).ibuf 8 1 ∧ ¬ HasAbsent (withBytes [0xB4#8] 32#6).ibuf 8 1 := by
  refine ⟨by decide +kernel, by decide, by decide +kernel, ⟨1, by decide, by decide +kernel⟩, ?_⟩
  rintro ⟨p, hp, h⟩
  have : ∀ p < 2 ^ 1, occurrences (withBytes [0xB4#8] 32#6).ibuf 8 1 p ≠ 0 := by decide +kernel
  exact this p hp h

theorem escape_80 (mw : BitVec 6) (h : 1 ≤ mw.toNat) : IsEscape (withBytes [0x80#8] mw) 1 1 := by
  refine ⟨⟨by decide, h, ?_, fun w h1 h2 => by omega⟩, ⟨by decide, ?_⟩, fun p hp => ?_⟩
  · show 1 < (8#32).toNat
    decide
  · show occurrences (packedBit fun k => ((cellAt [(0, 0x80#8)] k).getD _)) 8 1 1 = 0
    decide +kernel
  · by_contra hlt
    have hp0 : p = 0 := by omega
    subst hp0
    exact absurd hp.2 (by
      show occurrences (packedBit fun k => ((cellAt [(0, 0x80#8)] k).getD _)) 8 1 0 ≠ 0
      decide +kernel)

/-- Vector 6.7: the escape at the narrowest width. -/
theorem witness_EscsearchFindsEscape : (withBytes [0x80#8] 32#6).maxw.toNat ≤ 32 ∧ IsEscape (withBytes [0x80#8] 32#6) 1 1 :=
  ⟨by decide +kernel, escape_80 32#6 (by decide)⟩

/-- Vector 6.3: no escape at width 1. -/
theorem noEscape_b4 : NoEscape (withBytes [0xB4#8] 1#6) := by
  rintro w ⟨h1, h2, -, -⟩ ⟨p, hp, h⟩
  have h2' : w ≤ 1 := h2
  have hw : w = 1 := by omega
  subst hw
  have : ∀ p < 2 ^ 1, occurrences (withBytes [0xB4#8] 1#6).ibuf (withBytes [0xB4#8] 1#6).inBits 1 p ≠ 0 := by
    decide +kernel
  exact this p hp h

theorem witness_EscsearchFindsNone : NoEscape (withBytes [0xB4#8] 1#6) ∧ State.reset.inBits = 0 :=
  ⟨noEscape_b4, by decide +kernel⟩

theorem witness_SearchesKeepBest :
    (withBytes [0xB4#8] 3#6).maxw.toNat ≤ 32 ∧
      exec .escsearch (withBytes [0xB4#8] 3#6) = .next (after .escsearch (withBytes [0xB4#8] 3#6)) ∧
      exec .vicsearch (withBytes [0xB4#8] 3#6) = .next (after .vicsearch (withBytes [0xB4#8] 3#6)) :=
  ⟨by decide +kernel, next_nextOf (by decide +kernel), next_nextOf (by decide +kernel)⟩

/-- The shortest non-empty input, on which Mode A fails at the narrowest MAXW. -/
theorem witness_NoDataGuardNeverFires :
    8 ≤ (withBytes [0xB4#8] 1#6).inBits ∧ (withBytes [0xB4#8] 1#6).modeA.escape = none ∧
      exec .escsearch (withBytes [0xB4#8] 1#6) = .next (after .escsearch (withBytes [0xB4#8] 1#6)) ∧
      (after .escsearch (withBytes [0xB4#8] 1#6)).status.code = .noEscapeFound ∧
      exec .vicsearch (withBytes [0xB4#8] 1#6) = .next (after .vicsearch (withBytes [0xB4#8] 1#6)) ∧
      (after .vicsearch (withBytes [0xB4#8] 1#6)).status.code = .noEscapeFound :=
  ⟨by decide +kernel, by decide +kernel, next_nextOf (by decide +kernel), by decide +kernel,
    next_nextOf (by decide +kernel), by decide +kernel⟩

/-- A small machine has the invariant. -/
theorem inv_withBytes (bytes : List Byte) (mw : BitVec 6) (hb : bytes.length ≤ 8) (h1 : 1 ≤ mw.toNat) (h2 : mw.toNat ≤ 32) :
    (withBytes bytes mw).Inv := by
  have hlen : (BitVec.ofNat 32 (8 * bytes.length)).toNat = 8 * bytes.length := by
    rw [BitVec.toNat_ofNat, Nat.mod_eq_of_lt (by omega)]
  have hcap : State.reset.params.inCapBytes = 2 ^ 20 := rfl
  constructor
  case legal => show Params.default.legal; decide
  case maxwLow => exact h1
  case maxwHigh => exact h2
  case inLenBytes => show (BitVec.ofNat 32 (8 * bytes.length)).toNat % 8 = 0; omega
  case inLenCap => show (BitVec.ofNat 32 (8 * bytes.length)).toNat ≤ 8 * 2 ^ 20; omega
  case inWf =>
    refine ⟨?_, fun h => by cases h⟩
    show List.Pairwise _ ((List.range bytes.length).map (fun k => (k, bytes.getD k 0#8)))
    rw [List.pairwise_map]
    exact List.pairwise_lt_range
  case inBound =>
    intro c hc
    have hc' : c ∈ (List.range bytes.length).map (fun k => (k, bytes.getD k 0#8)) := hc
    obtain ⟨k, hk, rfl⟩ := List.mem_map.1 hc'
    have := List.mem_range.1 hk
    show k < 2 ^ 20
    omega
  case outPadding => intro k _ hk; exact absurd (show k < 8 * bytesFor (0#32).toNat from hk) (Nat.not_lt_zero k)
  case outListed => intro k hk; exact absurd (show k < bytesFor (0#32).toNat from hk) (Nat.not_lt_zero k)
  case inFresh => intro d hd; cases hd; show 0 < 1; decide
  case outFresh => intro d hd; cases hd; show 0 < 1; decide
  case histFresh => intro d hd; cases hd; show 0 < 1; decide
  case outBound => intro c hc; cases hc
  case histBound => intro c hc; cases hc
  case busyClear => intro h; cases h
  case searchHvalid => intro h; cases h
  case hvalidFill => intro h; cases h
  case outWf => show (Memory.unspecified 8 0).wf; decide
  case histWf => show (Memory.unspecified 32 0).wf; decide
  case errCode => rfl
  case lastopCmd => rfl
  all_goals first | exact Nat.zero_le _ | exact Nat.zero_lt_one

/-- Four zero bytes with MAXW 16: no wider width remains after the accepted one. -/
theorem witness_VicsearchAccepts :
    (withBytes (List.replicate 4 0x00#8) 16#6).Inv ∧ IsEscape (withBytes (List.replicate 4 0x00#8) 16#6) 1 1 ∧
      Evaluated (withBytes (List.replicate 4 0x00#8) 16#6) 1 1 16 0
        (encodeImage (withBytes (List.replicate 4 0x00#8) 16#6).ibuf 32 0 16 1 1).1 2 ∧
      (encodeImage (withBytes (List.replicate 4 0x00#8) 16#6).ibuf 32 0 16 1 1).1.length <
        (withBytes (List.replicate 4 0x00#8) 16#6).inBits ∧
      ∀ v mv x n, 16 < v → ¬ Evaluated (withBytes (List.replicate 4 0x00#8) 16#6) 1 1 v mv x n := by
  have hocc : occurrences (withBytes (List.replicate 4 0x00#8) 16#6).ibuf 32 16 0 = 16 := by decide +kernel
  refine ⟨inv_withBytes _ _ (by decide) (by decide) (by decide), ⟨⟨by decide, by decide, by decide +kernel, fun w h1 h2 => by omega⟩,
    ⟨by decide, by decide +kernel⟩, fun p hp => ?_⟩, ⟨by decide, by decide, by decide +kernel, ⟨⟨by decide, ⟨0, by decide, ?_⟩, ?_⟩,
    fun _ _ => Nat.zero_le _⟩, by decide +kernel⟩, by decide +kernel, fun v mv x n hv h => ?_⟩
  · by_contra hlt
    have hp0 : p = 0 := by omega
    subst hp0
    exact absurd hp.2 (by decide +kernel)
  · rfl
  · rintro c ⟨p, -, rfl⟩
    show occurrences _ 32 16 p ≤ occurrences _ 32 16 0
    rw [hocc]
    exact (Finset.card_filter_le _ _).trans (by simp)
  · have := h.2.1
    change v ≤ 16 at this
    omega

/-- 0x80 with MAXW 2: the one width evaluated does not reduce. -/
theorem witness_VicsearchNotBeneficial :
    (withBytes [0x80#8] 2#6).Inv ∧ IsEscape (withBytes [0x80#8] 2#6) 1 1 ∧
      ∀ v mv x n, Evaluated (withBytes [0x80#8] 2#6) 1 1 v mv x n → (withBytes [0x80#8] 2#6).inBits ≤ x.length := by
  refine ⟨inv_withBytes _ _ (by decide) (by decide) (by decide), escape_80 2#6 (by decide), fun v mv x n h => ?_⟩
  obtain ⟨h1, -, -, -, h2⟩ := h
  have hx : x = (encodeImage (withBytes [0x80#8] 2#6).ibuf (withBytes [0x80#8] 2#6).inBits mv v 1 1).1 := by rw [h2]
  have hL : (withBytes [0x80#8] 2#6).inBits = 8 := by decide +kernel
  rw [hx, hL]
  simp only [encodeImage, header, bitsMsb, List.length_append, List.length_map, List.length_range]
  omega

/-- The clauses of that statement: a width that is evaluated, and MAXW at the escape's width, where none is (vector
6.14's case). -/
theorem witness_VicsearchNotBeneficial_clauses :
    Evaluated (withBytes [0x80#8] 2#6) 1 1 2 0
        (encodeImage (withBytes [0x80#8] 2#6).ibuf (withBytes [0x80#8] 2#6).inBits 0 2 1 1).1 3 ∧
      (withBytes [0x80#8] 1#6).Inv ∧ IsEscape (withBytes [0x80#8] 1#6) 1 1 ∧
      ∀ v mv x n, ¬ Evaluated (withBytes [0x80#8] 1#6) 1 1 v mv x n := by
  have hocc : occurrences (withBytes [0x80#8] 2#6).ibuf 8 2 0 = 6 := by decide +kernel
  refine ⟨⟨by decide, by decide, by decide +kernel, ⟨⟨by decide, ⟨0, by decide, rfl⟩, ?_⟩, fun _ _ => Nat.zero_le _⟩,
    by decide +kernel⟩, inv_withBytes _ _ (by decide) (by decide) (by decide), escape_80 1#6 (by decide),
    fun v mv x n h => ?_⟩
  · rintro c ⟨p, -, rfl⟩
    show occurrences _ 8 2 p ≤ occurrences _ 8 2 0
    rw [hocc]
    exact (Finset.card_filter_le _ _).trans (by simp)
  · have h1 := h.1
    have h2 : v ≤ 1 := h.2.1
    omega

theorem witness_VicsearchFindsNoEscape : NoEscape (withBytes [0xB4#8] 1#6) := noEscape_b4

/-- The narrowest victim wider than its replacement, at the widest buffer without data for it. -/
theorem witness_NoDataWidthsNeverReduce : (1 : Nat) ≤ 1 ∧ 1 < 2 ∧ (2 : Nat) ≤ 2 := by decide

theorem witness_ImageSize : (1 : Nat) ≤ 1 ∧ encodeImage (fun _ => true) 2 1 1 0 1 = (header 1 1 0 1 ++ [false, false], 2) := by
  decide

/-- A start with a full window outside every match, and the output with that bit copied and the match replaced. -/
theorem witness_MatchesAreGreedy :
    (1 : Nat) ≤ 2 ∧ 0 + 2 ≤ 3 ∧ (∀ j ∈ [1], ¬ (j ≤ 0 ∧ 0 < j + 2)) ∧
      encodeImage (fun k => decide (1 ≤ k)) 3 3 2 0 1 =
        (headerBits 3 2 0 1 ++ spliced (fun k => decide (1 ≤ k)) 3 2 (digitsMsb 0 1) 0 [1], [1].length) := by decide

theorem witness_ShortBufferCopied : (0 : Nat) < 1 ∧ (7 : Nat) < 8 := by decide

/-- Vector 5.8: both widths at the maximum, the replacement at its largest value. -/
theorem witness_EncodeCompletes :
    ({ withBytes [0xB4#8] 32#6 with valB := 0xFFFFFFFF#32 } : State).Inv ∧ 1 ≤ 32 ∧
      32 ≤ ({ withBytes [0xB4#8] 32#6 with valB := 0xFFFFFFFF#32 } : State).maxw.toNat ∧
      ({ withBytes [0xB4#8] 32#6 with valB := 0xFFFFFFFF#32 } : State).valA.toNat < 2 ^ 32 ∧
      ({ withBytes [0xB4#8] 32#6 with valB := 0xFFFFFFFF#32 } : State).valB.toNat < 2 ^ 32 ∧
      (encodeImage (withBytes [0xB4#8] 32#6).ibuf 8 0 32 0xFFFFFFFF 32).1.length ≤ State.reset.params.outCapBits :=
  ⟨{ inv_withBytes [0xB4#8] 32#6 (by decide) (by decide) (by decide) with }, by decide, by decide +kernel,
    by decide +kernel, by decide +kernel, by decide +kernel⟩

theorem witness_HeaderReadsBack :
    (withBytes [0x00#8] 32#6).Inv ∧
      exec (.encode 32 32) (withBytes [0x00#8] 32#6) = .next (after (.encode 32 32) (withBytes [0x00#8] 32#6)) ∧
      (after (.encode 32 32) (withBytes [0x00#8] 32#6)).status.code = .success :=
  ⟨inv_withBytes _ _ (by decide) (by decide) (by decide), next_nextOf (by decide +kernel), by decide +kernel⟩

/-- The tiny build has the invariant, and each of its eight bits grows to 32. -/
theorem witness_EncodeCapacity :
    tinyState.Inv ∧ 1 ≤ 1 ∧ 32 ≤ tinyState.maxw.toNat ∧ tinyState.valA.toNat < 2 ^ 1 ∧ tinyState.valB.toNat < 2 ^ 32 ∧
      tinyState.params.outCapBits <
        (encodeImage tinyState.ibuf tinyState.inBits tinyState.valA.toNat 1 tinyState.valB.toNat 32).1.length ∧
      exec (.encode 1 32) tinyState = .next (after (.encode 1 32) tinyState) ∧
      (after (.encode 1 32) tinyState).status.code = .capacityExceeded := by
  refine ⟨?_, by decide, by decide +kernel, by decide +kernel, by decide +kernel, by decide +kernel,
    next_nextOf (by decide +kernel), by decide +kernel⟩
  constructor
  case outPadding => intro k _ hk; exact absurd (show k < 8 * bytesFor (0#32).toNat from hk) (Nat.not_lt_zero k)
  case outListed => intro k hk; exact absurd (show k < bytesFor (0#32).toNat from hk) (Nat.not_lt_zero k)
  case inFresh => intro d hd; cases hd; show 0 < 1; decide
  case outFresh => intro d hd; cases hd; show 0 < 1; decide
  case histFresh => intro d hd; cases hd; show 0 < 1; decide
  all_goals decide +kernel

/-- The first and last byte addresses of each region, and the addresses next to them. -/
theorem witness_AddressMap :
    Params.default.legal ∧ 0x000 ≤ (0x00000000#32).toNat ∧ (0x00000077#32).toNat < 0x074 + 4 ∧
      locOf Params.default 0x00000077#32 = .reg .closestDelta ∧ locOf Params.default 0x00000078#32 = .reserved ∧
      locOf Params.default 0x10000000#32 = .inWord 0 ∧ locOf Params.default 0x100FFFFF#32 = .inWord 0x3FFFF ∧
      locOf Params.default 0x10100000#32 = .reserved ∧ locOf Params.default 0x20000000#32 = .outWord 0 ∧
      locOf Params.default 0x201FFFFF#32 = .outWord 0x7FFFF ∧ locOf Params.default 0x20200000#32 = .reserved ∧
      locOf Params.default 0x40000000#32 = .counter 0 ∧ locOf Params.default 0x4003FFFF#32 = .counter 0xFFFF ∧
      locOf Params.default 0x40040000#32 = .reserved ∧ locOf Params.default 0xFFFFFFFF#32 = .reserved := by decide +kernel

theorem witness_IgnoredWrites :
    locOf State.reset.params 0x30000000#32 = .reserved ∧ locOf State.reset.params 0x00000024#32 = .reg .inLen ∧
      Reg.inLen ∉ [Reg.ctrl, .status, .cmd, .maxw, .inNbytes, .argIndex, .valA, .valB] ∧
      locOf State.reset.params 0x0000002C#32 = .reg .valA ∧ (0b0011#4 ≠ 0xF#4) ∧
      locOf State.reset.params 0x20000000#32 = .outWord 0 ∧ locOf State.reset.params 0x40000000#32 = .counter 0 := by
  decide +kernel

/-- No command in flight, an illegal word in flight, and ESCSEARCH in flight with OUT_LEN outside its write set. -/
theorem witness_ReadsHaveNoSideEffect :
    State.reset.status.busy = false ∧ decode (accept 0x00000007#32 State.reset).cmd = .error .reservedOp ∧
      decode (accept 0x00000004#32 State.reset).cmd = .ok .escsearch ∧
      writeSet .escsearch (locOf State.reset.params 0x00000068#32) = false := by decide +kernel

/-- A VICSEARCH in flight: a register, a counter and an OUT_MEM word of its write set, in a build whose last OUT_MEM word
has one lane past the capacity. -/
theorem witness_BusyReadsAreUnspecified :
    (accept 0x00000005#32 tinyState).status.busy = true ∧ decode (accept 0x00000005#32 tinyState).cmd = .ok .vicsearch ∧
      locOf tiny 0x00000060#32 = .reg .vicW ∧ writeSet .vicsearch (.reg .vicW) = true ∧
      locOf tiny 0x40000004#32 = .counter 1 ∧ writeSet .vicsearch (.counter 1) = true ∧
      locOf tiny 0x20000008#32 = .outWord 2 ∧ writeSet .vicsearch (.outWord 2) = true ∧
      4 * 2 + 2 < (tiny.outCapBits + 7) / 8 ∧ ¬ 4 * 2 + 3 < (tiny.outCapBits + 7) / 8 ∧
      locOf tiny 0x00000014#32 = .reg .status ∧ locOf tiny 0x00000018#32 = .reg .cmd ∧
      locOf tiny 0x10000000#32 = .inWord 0 := by decide +kernel

/-- The last byte of IN_MEM, and a byte whose lane is not strobed. -/
theorem witness_InMemWriteStoresLanes :
    State.reset.inMem.wf ∧ State.reset.status.busy = false ∧
      locOf State.reset.params 0x100FFFFC#32 = .inWord 0x3FFFF ∧ (0b1000#4).getLsbD 3 = true ∧
      4 * 0x3FFFF + 3 < State.reset.params.inCapBytes ∧
      ∀ j, j < 4 → (0b1000#4).getLsbD j = true → 4 * 0x3FFFF + j < State.reset.params.inCapBytes → 0 ≠ 4 * 0x3FFFF + j := by
  refine ⟨by decide, by decide, by decide +kernel, by decide, by decide +kernel, fun j _ _ _ => by omega⟩

/-- The last bits of both buffers, and the lanes next to them in the tiny build. -/
theorem witness_BitsSitInWords :
    8 * State.reset.params.inCapBytes - 1 < 8 * State.reset.params.inCapBytes ∧
      8 * tiny.outBytes - 1 < 8 * tiny.outBytes ∧ (4 * 0 + 0 < tiny.inCapBytes ∧ ¬ 4 * 0 + 1 < tiny.inCapBytes) := by
  decide +kernel

theorem witness_BusyWritesDropped :
    (accept 0x00000000#32 State.reset).status.busy = true ∧ locOf State.reset.params 0x00000018#32 = .reg .cmd ∧
      locOf State.reset.params 0x00000030#32 = .reg .valB ∧ locOf State.reset.params 0x100FFFFC#32 = .inWord 0x3FFFF ∧
      (0b1000#4).getLsbD 3 = true ∧ 4 * 0x3FFFF + 3 < State.reset.params.inCapBytes := by decide +kernel

/-- A poll of STATUS while a search runs. -/
theorem witness_OperandsFrozenWhileBusy :
    (fun s => step s = .next (nextOf (step s)) ∧ s.status.busy = true ∧ (nextOf (step s)).status.busy = true)
      (accept 0x00000005#32 { State.reset with turns := [⟨false, .read 0x14#32⟩] }) :=
  ⟨next_nextOf (by decide +kernel), by decide +kernel, by decide +kernel⟩

theorem witness_RegisterWrites :
    locOf State.reset.params 0x00000010#32 = .reg .ctrl ∧ locOf State.reset.params 0x00000014#32 = .reg .status ∧
      State.reset.status.busy = false ∧ locOf State.reset.params 0x00000020#32 = .reg .inNbytes ∧
      locOf State.reset.params 0x00000028#32 = .reg .argIndex ∧ locOf State.reset.params 0x0000002C#32 = .reg .valA ∧
      locOf State.reset.params 0x00000030#32 = .reg .valB := by decide +kernel

/-- The ends of the legal range, and the values of vectors 7.2 to 7.4. -/
theorem witness_MaxwIsWarl :
    locOf State.reset.params 0x0000001C#32 = .reg .maxw ∧ State.reset.status.busy = false ∧
      (1 ≤ (32#32).toNat % 64 ∧ (32#32).toNat % 64 ≤ State.reset.params.maxWidthHw ∧ (32#32).toNat / 64 = 0) ∧
      (1 ≤ (1#32).toNat % 64 ∧ (1#32).toNat % 64 ≤ State.reset.params.maxWidthHw ∧ (1#32).toNat / 64 = 0) ∧
      ¬ 1 ≤ (0#32).toNat % 64 ∧ ¬ (33#32).toNat % 64 ≤ State.reset.params.maxWidthHw ∧ ¬ (0x50#32).toNat / 64 = 0 := by
  decide +kernel

theorem witness_ConstantRegisters : State.reset.params.legal ∧ tiny.legal ∧ step State.reset = .next State.reset :=
  ⟨by decide, by decide, rfl⟩

/-- A dropped write to CMD and one to IN_MEM set HAZ; a write of 1 and a reset clear it. -/
theorem witness_HazSetOnlyByDroppedWrite :
    (fun s => isNext (step s) = true ∧ (nextOf (step s)).status.haz ≠ s.status.haz ∧ (nextOf (step s)).status.haz = true)
        (accept 0x00000005#32 { State.reset with turns := [⟨false, .write 0x18#32 0#32 0xF#4⟩] }) ∧
      (fun s => isNext (step s) = true ∧ (nextOf (step s)).status.haz ≠ s.status.haz ∧ (nextOf (step s)).status.haz = true)
        (accept 0x00000005#32 { State.reset with turns := [⟨false, .write 0x100FFFFC#32 0#32 0b1000#4⟩] }) ∧
      (fun s => isNext (step s) = true ∧ (nextOf (step s)).status.haz ≠ s.status.haz)
        (setHaz { State.reset with turns := [⟨false, .write 0x14#32 8#32 0xF#4⟩] }) ∧
      (fun s => isNext (step s) = true ∧ (nextOf (step s)).status.haz ≠ s.status.haz)
        (setHaz { State.reset with turns := [⟨false, .reset⟩] }) := by decide +kernel

theorem witness_InMemChangesOnlyByHost :
    (fun s => isNext (step s) = true ∧ (nextOf (step s)).inByte 1 ≠ s.inByte 1)
      { withBytes [0x11#8, 0x22#8] 32#6 with turns := [⟨false, .write 0x10000001#32 0xAB00#32 0b0010#4⟩] } := by
  decide +kernel

theorem witness_IrqLevel :
    isNext (exec .nop { State.reset with ie := true }) = true ∧
      (fun s => s.status.busy = true ∧ (∀ u ∈ s.turns.head?, u.late = true) ∧ decode s.cmd = .error .reservedOp ∧
        isNext (step s) = true) (accept 0x00000007#32 { State.reset with ie := true }) ∧ locOf State.reset.params 0x14#32 = .reg .status ∧
      (2#32).getLsbD 1 = true ∧ locOf State.reset.params 0x10#32 = .reg .ctrl ∧ (0#32).getLsbD 0 = false ∧
      locOf State.reset.params 0x18#32 = .reg .cmd ∧ State.reset.status.busy = false := by decide +kernel

theorem witness_ResetLeavesResetValues :
    (withBytes [0xB4#8] 3#6).params.legal ∧ Reg.cmd ∉ [Reg.id, .param0, .param1, .param2, .maxw] := by decide +kernel

/-- The ends of the width range, and the largest values of width 1. -/
theorem witness_CommandsBeforeLoad :
    tinyState.params.legal ∧ 1 ≤ 32 ∧ 32 ≤ (perform .reset tinyState).maxw.toNat ∧ (1#32).toNat < 2 ^ 1 ∧
      (1#32).toNat < 2 ^ 1 := by decide +kernel

theorem witness_EveryStepKeepsInvariant :
    (withBytes [0xB4#8] 32#6).Inv ∧ step (withBytes [0xB4#8] 32#6) = .next (withBytes [0xB4#8] 32#6) :=
  ⟨inv_withBytes _ _ (by decide) (by decide) (by decide), rfl⟩

theorem witness_ResetHasInvariant : Params.default.legal ∧ tiny.legal := by decide

end Sys2Proof.Tests
end

section
/-! PROOFS. Windows: the sum of 00_scope.md R7 and the shift-extend step of R8. -/

namespace Sys2Proof.Machine

/-- The window is the sum of 00_scope.md R7: one more bit doubles the weight of every earlier one. -/
theorem window_eq_windowSum (b : Nat → Bool) (i w : Nat) : window b i w = windowSum b i w := by
  induction w with
  | zero => rfl
  | succ w ih =>
    have hweight : ∀ k ∈ Finset.range w,
        (b (i + k)).toNat * 2 ^ (w + 1 - 1 - k) = 2 * ((b (i + k)).toNat * 2 ^ (w - 1 - k)) := by
      intro k hk
      have hk := Finset.mem_range.1 hk
      rw [show w + 1 - 1 - k = (w - 1 - k) + 1 by omega, pow_succ]
      ring
    rw [window, ih, windowSum, windowSum, Finset.sum_range_succ, Finset.sum_congr rfl hweight, ← Finset.mul_sum]
    simp

/-- A window split at its earliest bit, the most significant. -/
theorem window_succ_left (b : Nat → Bool) (i w : Nat) :
    window b i (w + 1) = (b i).toNat * 2 ^ w + window b (i + 1) w := by
  induction w with
  | zero => simp [window]
  | succ w ih =>
    have hidx : i + (w + 1) = i + 1 + w := by omega
    rw [window, ih, hidx, window, pow_succ]
    ring

/-- The next window is the one a bit wider without its earliest bit. -/
theorem window_next (b : Nat → Bool) (i w : Nat) : window b (i + 1) w = window b i (w + 1) % 2 ^ w := by
  rw [window_succ_left, Nat.mul_add_mod_self_right, Nat.mod_eq_of_lt (window_lt b (i + 1) w)]

/-- Shifting in one bit below a mask of `w + 1` bits, in arithmetic. -/
theorem shift_mask_or_bit (x w : Nat) (c : Bool) :
    ((x <<< 1) &&& (2 ^ (w + 1) - 1)) ||| c.toNat = (2 * x + c.toNat) % 2 ^ (w + 1) := by
  have hc : c.toNat < 2 := Bool.toNat_lt c
  have hmask : (x <<< 1) &&& (2 ^ (w + 1) - 1) = 2 ^ 1 * (x % 2 ^ w) := by
    rw [Nat.and_two_pow_sub_one_eq_mod, Nat.shiftLeft_eq, pow_one, pow_succ', Nat.mul_comm x, Nat.mul_mod_mul_left]
  have hhalf : (2 * x + c.toNat) / 2 = x := by omega
  rw [hmask, ← Nat.two_pow_add_eq_or_of_lt hc, pow_succ' 2 w, Nat.mod_mul, hhalf]
  omega

/-- Settles O23: the sum by induction on the width, the step from the window one bit wider. -/
theorem windowIsShiftExtended : Obligations.WindowIsShiftExtended := by
  intro b i w
  refine ⟨window_eq_windowSum b i w, fun hw => ?_⟩
  obtain ⟨v, rfl⟩ := Nat.exists_eq_add_of_le' hw
  rw [shift_mask_or_bit, window_next, window]

end Sys2Proof.Machine
end

section
/-! PROOFS. The invariant under the host's inputs: each state operation of the port keeps it (20_memory.md R60 to R72;
70_reset_and_hazards.md R210). -/

namespace Sys2Proof.Machine

variable {s : State}

/-- An empty OBUF has no byte to write and no bit to keep clean (10_state.md R49). -/
theorem obuf_clean_of_empty (hlen : s.outLen = 0#32) :
    (∀ k, k < bytesFor s.outLen.toNat → (cellAt s.outMem.cells k).isSome = true) ∧
      ∀ k, s.outLen.toNat ≤ k → k < 8 * bytesFor s.outLen.toNat → s.obuf k = false := by
  have hbytes : bytesFor s.outLen.toNat = 0 := by rw [hlen]; rfl
  constructor <;> intros <;> omega

/-- The reset state of a legal build has the invariant (10_state.md R53). -/
theorem inv_resetWith {p : Params} (hp : p.legal) (d : Nat) : (State.resetWith p d).Inv := by
  have hmaxw : (BitVec.ofNat 6 p.maxWidthHw).toNat = p.maxWidthHw := by
    rw [BitVec.toNat_ofNat, Nat.mod_eq_of_lt (by omega)]
  exact
    { legal := hp
      maxwLow := by show 1 ≤ (BitVec.ofNat 6 p.maxWidthHw).toNat; omega
      maxwHigh := by show (BitVec.ofNat 6 p.maxWidthHw).toNat ≤ p.maxWidthHw; omega
      inLenBytes := rfl
      inLenCap := Nat.zero_le _
      outLenCap := Nat.zero_le _
      busyClear := nofun
      errCode := rfl
      lastopCmd := rfl
      searchHvalid := nofun
      hvalidFill := nofun
      histWidth := Nat.zero_le _
      histMaxval := Nat.one_pos
      histZeroval := Nat.one_pos
      histMaxSum := Nat.le_refl _
      histSumCap := Nat.zero_le _
      escWidth := Nat.zero_le _
      escValue := Nat.one_pos
      bestWidth := Nat.zero_le _
      bestValue := Nat.one_pos
      vicWidth := Nat.zero_le _
      vicValue := Nat.one_pos
      inWf := Memory.wf_unspecified d
      outWf := Memory.wf_unspecified d
      histWf := Memory.wf_unspecified d
      inBound := nofun
      outBound := nofun
      histBound := nofun
      outListed := (obuf_clean_of_empty rfl).1
      outPadding := (obuf_clean_of_empty rfl).2
      inFresh := fun _ he => Fill.drawn.inj he ▸ Nat.lt_succ_self d
      outFresh := fun _ he => Fill.drawn.inj he ▸ Nat.lt_succ_self d
      histFresh := fun _ he => Fill.drawn.inj he ▸ Nat.lt_succ_self d }

theorem inv_assertReset (h : s.Inv) : (assertReset s).Inv :=
  { inv_resetWith h.legal s.draws with }

/-- Drawing one more free value leaves every earlier draw of the memories below the count. -/
theorem inv_nextDraw (h : s.Inv) : { s with draws := s.draws + 1 }.Inv :=
  { h with
    inFresh := fun d hd => Nat.lt_succ_of_lt (h.inFresh d hd)
    outFresh := fun d hd => Nat.lt_succ_of_lt (h.outFresh d hd)
    histFresh := fun d hd => Nat.lt_succ_of_lt (h.histFresh d hd) }

theorem inv_hostRead (a : Word) (h : s.Inv) : (hostRead a s).Inv := by
  rw [hostRead_eq]
  split
  · exact { inv_nextDraw h with }
  · exact { h with }

theorem inv_setHaz (h : s.Inv) : (setHaz s).Inv := { h with }

/-- Acceptance clears DONE, ERR and CODE, copies LASTOP from the word, and clears HVALID for a search (20_memory.md
R70). -/
theorem inv_accept (c : Word) (h : s.Inv) : (accept c s).Inv :=
  { h with
    busyClear := fun _ => ⟨rfl, rfl⟩
    errCode := rfl
    lastopCmd := rfl
    searchHvalid := fun _ hc => by simp [show isSearchWord c = true from hc]
    hvalidFill := fun hv => h.hvalidFill (Bool.and_eq_true_iff.1 hv).1 }

/-- Clearing DONE or HAZ keeps what BUSY = 1 says of DONE and CODE (10_state.md R29). -/
theorem inv_writeOneToClear (d : Word) (h : s.Inv) : { s with status := s.status.writeOneToClear d }.Inv :=
  { h with
    busyClear := fun hb => by
      obtain ⟨hdone, hcode⟩ := h.busyClear hb
      exact ⟨by simp [Status.writeOneToClear, hdone], hcode⟩ }

theorem inv_writeMaxw (d : Word) (h : s.Inv) : (writeMaxw d s).Inv := by
  rcases writeMaxw_cases d s with ⟨m, hlow, hhigh, he⟩ | he <;> rw [he]
  · exact { h with maxwLow := hlow, maxwHigh := hhigh }
  · exact h

/-- The lanes that a write reaches are bytes that exist (20_memory.md R62, R65). -/
theorem lt_inCapBytes_of_mem_inLanes {p : Params} {m j : Nat} {be : BitVec 4} (hj : j ∈ inLanes p m be) :
    4 * m + j < p.inCapBytes := by
  have hj := (List.mem_filter.1 hj).2
  simp only [Bool.and_eq_true, decide_eq_true_eq] at hj
  exact hj.2

theorem inv_inWordWrite (m : Nat) (d : Word) (be : BitVec 4) (h : s.Inv) : (inWordWrite m d be s).Inv :=
  { h with
    inWf := Memory.wf_foldl_write (fun j => 4 * m + j) (byteOf d) _ h.inWf
    inBound := fun c hc => by
      rcases Memory.mem_foldl_write (fun j => 4 * m + j) (byteOf d) _ hc with ⟨j, hj, he⟩ | hc
      · rw [he]; exact lt_inCapBytes_of_mem_inLanes hj
      · exact h.inBound c hc
    inFresh := fun n hn =>
      h.inFresh n (by rwa [inWordWrite_inMem, Memory.fill_foldl_write (fun j => 4 * m + j)] at hn) }

theorem inv_hostWrite (a d : Word) (be : BitVec 4) (h : s.Inv) : (hostWrite a d be s).Inv := by
  rcases hostWrite_cases a d be s with he | ⟨-, he⟩ | ⟨r, -, -, hreg⟩ | ⟨m, -, -, he⟩
  · rw [he]; exact h
  · rw [he]; exact inv_setHaz h
  · rcases hreg with ⟨-, he⟩ | ⟨-, he⟩ | ⟨-, ⟨-, he⟩ | ⟨-, he⟩ | ⟨-, he⟩ | ⟨-, he⟩ | ⟨-, he⟩ | ⟨-, he⟩⟩ <;> rw [he]
    · exact { h with }
    · exact inv_writeOneToClear d h
    · exact inv_accept d h
    · exact inv_writeMaxw d h
    · exact { h with }
    · exact { h with }
    · exact { h with }
    · exact { h with }
  · rw [he]; exact inv_inWordWrite m d be h

theorem inv_perform (x : Input) (h : s.Inv) : (perform x s).Inv := by
  cases x with
  | read a => exact inv_hostRead a h
  | write a d be => exact inv_hostWrite a d be h
  | reset => exact inv_assertReset h

end Sys2Proof.Machine
end

section
/-! PROOFS. The invariant under the results of the commands, one lemma per shared operation, and under every completion
(40_bitbuffer.md to 43_encoder.md). -/

namespace Sys2Proof.Machine

variable {s : State}

/-- A completion leaves BUSY 0, and ERR says whether the code is other than 0 (20_memory.md R70). -/
theorem inv_complete (e : ErrorCode) (h : s.Inv) : (complete e s).Inv :=
  { h with busyClear := nofun, errCode := rfl, searchHvalid := nofun }

/-- A 32-bit register holds a number as it is, where it is at most a number that fits. -/
theorem toNat_word_of_le {v m : Nat} (h : v ≤ m) (hm : m < 2 ^ 32) : (BitVec.ofNat 32 v).toNat = v := by
  rw [BitVec.toNat_ofNat, Nat.mod_eq_of_lt (by omega)]

/-- `w` is a width the build supports, or 0 where there is no pattern, and `v` a value of that width (00_scope.md R4). -/
def PatternFits (p : Params) (w v : Nat) : Prop := w ≤ p.maxWidthHw ∧ v < 2 ^ w

theorem patternFits_zero (p : Params) : PatternFits p 0 0 := ⟨Nat.zero_le _, Nat.one_pos⟩

/-- A width field holds the width of a pattern that fits. -/
theorem PatternFits.toNat_width {p : Params} (hp : p.legal) {w v : Nat} (h : PatternFits p w v) :
    (BitVec.ofNat 6 w).toNat = w := by
  have hw := h.1
  rw [BitVec.toNat_ofNat, Nat.mod_eq_of_lt (by omega)]

/-- A pattern that fits keeps its bounds in a register pair. -/
theorem PatternFits.registers {p : Params} (hp : p.legal) {w v : Nat} (h : PatternFits p w v) :
    (BitVec.ofNat 6 w).toNat ≤ p.maxWidthHw ∧ (BitVec.ofNat 32 v).toNat < 2 ^ (BitVec.ofNat 6 w).toNat := by
  rw [h.toNat_width hp]
  exact ⟨h.1, Nat.lt_of_le_of_lt (by rw [BitVec.toNat_ofNat]; exact Nat.mod_le _ _) h.2⟩

/-- LOAD sets IN_LEN to 8 times a count of bytes within the capacity (40_bitbuffer.md R112). -/
theorem inv_load (h : s.Inv) {n : Nat} (hn : n ≤ s.params.inCapBytes) :
    { s with inLen := BitVec.ofNat 32 (8 * n) }.Inv := by
  have hcap : s.params.inCapBytes ≤ 2 ^ 27 := h.legal.2.2.1.2
  have hlen : (BitVec.ofNat 32 (8 * n)).toNat = 8 * n := toNat_word_of_le (Nat.mul_le_mul_left 8 hn) (by omega)
  exact
    { h with
      inLenBytes := by show (BitVec.ofNat 32 (8 * n)).toNat % 8 = 0; omega
      inLenCap := by show (BitVec.ofNat 32 (8 * n)).toNat ≤ 8 * s.params.inCapBytes; omega }

/-- `mostFreq` is a value of the width, 0 where no window is counted. -/
theorem mostFreq_countedWindows_lt (b : Nat → Bool) (len w : Nat) : mostFreq (countedWindows b len w) < 2 ^ w := by
  by_cases hws : countedWindows b len w = []
  · rw [hws, mostFreq_nil]; exact Nat.two_pow_pos w
  · exact countedWindows_lt (mostFreq_spec hws).1

/-- No value is counted more often than there are windows. -/
theorem maxCount_le_length (ws : List Nat) : maxCount ws ≤ ws.length := by
  by_cases hws : ws = []
  · simp [hws]
  · obtain ⟨-, p, -, hp⟩ := maxCount_attained hws
    rw [← hp]
    exact List.count_le_length

/-- IBUF is no longer than IN_MEM, which is no longer than OUT_MEM, and both lengths fit 32 bits (00_scope.md R3;
10_state.md R33). -/
theorem inBits_le_capacities (h : s.Inv) :
    s.inBits ≤ 8 * s.params.inCapBytes ∧ 8 * s.params.inCapBytes < 2 ^ 32 ∧
      8 * s.params.inCapBytes ≤ s.params.outCapBits ∧ s.params.outCapBits < 2 ^ 32 := by
  obtain ⟨-, -, ⟨-, hin⟩, hlow, hhigh⟩ := h.legal
  exact ⟨h.inLenCap, by omega, by omega, by omega⟩

/-- A HIST of a legal width keeps the invariant; only a search command asks HVALID to stay 0 while it runs. -/
theorem inv_putHist (h : s.Inv) (hcmd : isSearchWord s.cmd = false) {w : Nat} (hw : w ≤ s.maxw.toNat) :
    (putHist w (countedWindows s.ibuf s.inBits w) s).Inv := by
  obtain ⟨hbits, hin, -, -⟩ := inBits_le_capacities h
  have hwide : w ≤ s.params.maxWidthHw := Nat.le_trans hw h.maxwHigh
  have hlen : (countedWindows s.ibuf s.inBits w).length ≤ 8 * s.params.inCapBytes := by
    rw [length_countedWindows]; omega
  have hmax := maxCount_le_length (countedWindows s.ibuf s.inBits w)
  obtain ⟨hwf, hfill, hbound⟩ := histMemOf_wf s.params.histVisW (countedWindows s.ibuf s.inBits w)
  have hmaxval : PatternFits s.params w (mostFreq (countedWindows s.ibuf s.inBits w)) :=
    ⟨hwide, mostFreq_countedWindows_lt _ _ _⟩
  have hzeroval : (putHist w (countedWindows s.ibuf s.inBits w) s).histZeroval.toNat < 2 ^ (BitVec.ofNat 6 w).toNat := by
    rw [putHist_histZeroval]
    split
    · rename_i hz; exact (PatternFits.registers (v := firstAbsent _) h.legal ⟨hwide, hz⟩).2
    · exact Nat.two_pow_pos _
  exact
    { h with
      searchHvalid := fun _ hc => absurd (hcmd.symm.trans hc) Bool.false_ne_true
      hvalidFill := fun _ => hfill
      histWidth := (hmaxval.registers h.legal).1
      histMaxval := (hmaxval.registers h.legal).2
      histZeroval := hzeroval
      histMaxSum := by
        rw [putHist_histMax, putHist_histSum, toNat_word_of_le hlen hin, toNat_word_of_le (hmax.trans hlen) hin]
        exact hmax
      histSumCap := by rw [putHist_histSum, toNat_word_of_le hlen hin]; exact hlen
      histWf := hwf
      histBound := hbound
      histFresh := fun d hd => by rw [putHist_histMem, hfill] at hd; cases hd }

/-- The patterns that Mode A returns are patterns of the build, 0 where it has none. -/
def ModeA.Fits (p : Params) (a : ModeA) : Prop :=
  PatternFits p (a.escape.elim 0 Pattern.width) (a.escape.elim 0 Pattern.value) ∧
    PatternFits p a.best.width a.best.value

/-- Mode A's escape has a width of `1 .. MAXW` and a value of that width (42_width_selector.md R142). -/
theorem modeA_escape_bounds {e : Pattern} (he : s.modeA.escape = some e) :
    1 ≤ e.width ∧ e.width ≤ s.maxw.toNat ∧ e.value < 2 ^ e.width := by
  obtain ⟨hesc, -, -⟩ := modeALoop_spec s.ibuf s.inBits s.maxw.toNat 1 { count := 0, width := 0, value := 0 }
  obtain ⟨⟨hlow, -, -⟩, hhigh, hzero, hval⟩ := hesc e he
  rw [hval]
  exact ⟨hlow, by omega, hzero⟩

/-- Mode A's best pattern is 0, or has a width of at most MAXW and a value of that width (42_width_selector.md R144). -/
theorem modeA_best_bounds (s : State) :
    s.modeA.best.width ≤ s.maxw.toNat ∧ s.modeA.best.value < 2 ^ s.modeA.best.width := by
  obtain ⟨-, -, hbest⟩ := modeALoop_spec s.ibuf s.inBits s.maxw.toNat 1 { count := 0, width := 0, value := 0 }
  change BestOver _ _ _ _ s.modeA.best at hbest
  rcases hbest with ⟨he, -⟩ | ⟨-, ⟨-, hhigh⟩, -, hval, -, -⟩
  · rw [he]; exact ⟨Nat.zero_le _, Nat.one_pos⟩
  · rw [hval]; exact ⟨by omega, mostFreq_countedWindows_lt _ _ _⟩

theorem modeA_fits (h : s.Inv) : s.modeA.Fits s.params := by
  constructor
  · cases he : s.modeA.escape with
    | none => exact patternFits_zero _
    | some e =>
      obtain ⟨-, hw, hv⟩ := modeA_escape_bounds he
      exact ⟨hw.trans h.maxwHigh, hv⟩
  · obtain ⟨hw, hv⟩ := modeA_best_bounds s
    exact ⟨hw.trans h.maxwHigh, hv⟩

theorem inv_drawHistMem (h : s.Inv) (hv : s.histW.hvalid = false) : (drawHistMem s).Inv :=
  { inv_nextDraw h with
    hvalidFill := fun ht => absurd (hv.symm.trans ht) Bool.false_ne_true
    histWf := Memory.wf_unspecified _
    histBound := nofun
    histFresh := fun _ he => Fill.drawn.inj he ▸ Nat.lt_succ_self s.draws }

theorem inv_clearHvalid (h : s.Inv) : (clearHvalid s).Inv :=
  { h with searchHvalid := fun _ _ => rfl, hvalidFill := nofun }

/-- What both searches write from Mode A keeps the invariant. -/
theorem inv_putModeA (h : s.Inv) {a : ModeA} (ha : a.Fits s.params) : (putModeA a s).Inv := by
  obtain ⟨hesc, hbest⟩ := ha
  have hdraw : (drawHistMem (clearHvalid s)).Inv := inv_drawHistMem (inv_clearHvalid h) rfl
  exact
    { hdraw with
      escWidth := (hesc.registers h.legal).1
      escValue := (hesc.registers h.legal).2
      bestWidth := (hbest.registers h.legal).1
      bestValue := (hbest.registers h.legal).2 }

/-- Writing OBUF lists its bytes, clean to the end of the last one (10_state.md R49). -/
theorem inv_putObuf (h : s.Inv) {x : List Bool} (hx : x.length ≤ s.params.outCapBits) : (putObuf x s).Inv := by
  obtain ⟨-, -, -, hout⟩ := inBits_le_capacities h
  have hlen : (putObuf x s).outLen.toNat = x.length := toNat_word_of_le hx hout
  exact
    { inv_nextDraw h with
      outLenCap := by rw [hlen]; exact hx
      outWf := by
        refine ⟨?_, nofun⟩
        rw [putObuf_outMem, List.pairwise_map]
        exact List.pairwise_lt_range
      outBound := fun c hc => by
        obtain ⟨k, hk, rfl⟩ := List.mem_map.1 hc
        have hk := List.mem_range.1 hk
        simp only [bytesFor] at hk
        show k < (s.params.outCapBits + 7) / 8
        omega
      outListed := fun k hk => by
        rw [hlen] at hk
        rw [putObuf_outMem, cellAt_map_range, if_pos hk]
        rfl
      outPadding := fun k hlow hhigh => by
        rw [hlen] at hlow hhigh
        rw [obuf_putObuf x s k hhigh, List.getElem?_eq_none hlow]
        rfl
      outFresh := fun _ he => Fill.drawn.inj he ▸ Nat.lt_succ_self s.draws }

theorem inv_putImage (h : s.Inv) {x : List Bool} (n : Nat) (hx : x.length ≤ s.params.outCapBits) :
    (putImage x n s).Inv :=
  { inv_putObuf h hx with }

/-- The original fits OUT_MEM, whose capacity exceeds that of IN_MEM (00_scope.md R3; 42_width_selector.md R152). -/
theorem inv_putOriginal (h : s.Inv) : (putOriginal s).Inv := by
  obtain ⟨hbits, -, hroom, -⟩ := inBits_le_capacities h
  have hfit : (slice s.ibuf 0 s.inBits).length ≤ s.params.outCapBits := by rw [length_slice]; omega
  exact { inv_putObuf h hfit with }

/-- An output that does not fit leaves OBUF empty, so nothing of OUT_MEM has to be written (43_encoder.md R171). -/
theorem inv_putTooLong (h : s.Inv) : (putTooLong s).Inv :=
  { inv_nextDraw h with
    outLenCap := Nat.zero_le _
    outWf := Memory.wf_unspecified _
    outBound := nofun
    outListed := (obuf_clean_of_empty rfl).1
    outPadding := (obuf_clean_of_empty rfl).2
    outFresh := fun _ he => Fill.drawn.inj he ▸ Nat.lt_succ_self s.draws }

/-- The victim of a candidate is a pattern of the build, 0 where there is no candidate. -/
def CandidateFits (p : Params) (c : Option Candidate) : Prop :=
  PatternFits p (c.elim 0 fun c => c.victim.width) (c.elim 0 fun c => c.victim.value)

theorem inv_putCandidate (h : s.Inv) {c : Option Candidate} (hc : CandidateFits s.params c) :
    (putCandidate c s).Inv :=
  { h with vicWidth := (hc.registers h.legal).1, vicValue := (hc.registers h.legal).2 }

/-- The candidate of a width that the build supports is a pattern of the build. -/
theorem candidateFits_candidateAt {p : Params} (b : Nat → Bool) (len : Nat) (e : Pattern) {v : Nat}
    (hv : v ≤ p.maxWidthHw) : CandidateFits p (some (candidateAt b len e v)) :=
  ⟨hv, mostFreq_countedWindows_lt b len v⟩

/-- An accepted candidate of Mode B has a width the build supports, and its output is shorter than the input
(42_width_selector.md R150). -/
theorem modeB_accepted_bounds (h : s.Inv) {e : Pattern} {c : Candidate} {x : List Bool} {n : Nat}
    (hb : s.modeB e = .accepted c x n) : CandidateFits s.params (some c) ∧ x.length < s.inBits := by
  obtain ⟨hacc, -⟩ := modeBLoop_spec s.ibuf s.inBits e (e.width + 1) (s.maxw.toNat - e.width) none
  obtain ⟨v, hlow, hhigh, -, rfl, hneg, himage, -⟩ := hacc c x n hb
  have hmaxw := h.maxwHigh
  refine ⟨candidateFits_candidateAt _ _ _ (by omega), ?_⟩
  simp only [candidateAt, himage, imageDelta] at hneg
  omega

/-- The closest candidate of a Mode B without an accepted one has a width the build supports (42_width_selector.md
R152). -/
theorem modeB_closest_fits (h : s.Inv) {e : Pattern} {r : Option Candidate} (hb : s.modeB e = .notBeneficial r) :
    CandidateFits s.params r := by
  obtain ⟨-, hnot⟩ := modeBLoop_spec s.ibuf s.inBits e (e.width + 1) (s.maxw.toNat - e.width) none
  obtain ⟨-, hclosest⟩ := hnot r hb
  have hmaxw := h.maxwHigh
  rcases hclosest with ⟨rfl, -⟩ | ⟨v, ⟨hlow, hhigh, -⟩, rfl, -⟩
  · exact patternFits_zero _
  · exact candidateFits_candidateAt _ _ _ (by omega)

/-- A completion of the command that CMD holds keeps the invariant: each of its results does. -/
theorem inv_exec {i : Instr} {t : State} (h : s.Inv) (hcmd : decode s.cmd = .ok i) (hexec : exec i s = .next t) :
    t.Inv := by
  have hmodeA : (putModeA s.modeA s).Inv := inv_putModeA h (modeA_fits h)
  cases i with
  | nop =>
    have ht : t = complete .success s := exec_cases hexec
    exact ht ▸ inv_complete _ h
  | load =>
    rcases exec_cases hexec with ⟨-, rfl⟩ | ⟨hn, rfl⟩
    · exact inv_complete _ h
    · exact inv_complete _ (inv_load h hn)
  | getbit src =>
    rcases exec_cases hexec with ⟨-, rfl⟩ | ⟨-, rfl⟩
    · exact inv_complete _ h
    · exact inv_complete _ { h with }
  | hist w =>
    have hsearch : isSearchWord s.cmd = false := by simp [isSearchWord, hcmd]
    rcases exec_cases hexec with ⟨hw, rfl⟩ | ⟨-, rfl⟩
    · exact inv_complete _ (inv_putHist h hsearch hw.2)
    · exact inv_complete _ h
  | escsearch =>
    rcases exec_cases hexec with ⟨-, rfl⟩ | ⟨-, rfl⟩ <;> exact inv_complete _ hmodeA
  | vicsearch =>
    rcases exec_cases hexec with ⟨-, rfl⟩ | ⟨e, -, ⟨c, x, n, hb, rfl⟩ | ⟨r, hb, rfl⟩⟩
    · exact inv_complete _ (inv_putCandidate hmodeA (patternFits_zero _))
    · obtain ⟨hc, hshort⟩ := modeB_accepted_bounds h hb
      obtain ⟨hbits, -, hroom, -⟩ := inBits_le_capacities h
      have hfit : x.length ≤ (putModeA s.modeA s).params.outCapBits := by rw [putModeA_params]; omega
      refine inv_complete _ (inv_putCandidate (inv_putImage hmodeA n hfit) ?_)
      rwa [putImage_params, putModeA_params]
    · refine inv_complete _ (inv_putCandidate (inv_putOriginal hmodeA) ?_)
      rw [putOriginal_params, putModeA_params]
      exact modeB_closest_fits h hb
  | encode vw rw =>
    rcases exec_cases hexec with ⟨-, rfl⟩ | ⟨-, ⟨-, rfl⟩ | ⟨-, r, -, ⟨-, rfl⟩ | ⟨hfit, rfl⟩⟩⟩
    · exact inv_complete _ h
    · exact inv_complete _ h
    · exact inv_complete _ (inv_putTooLong h)
    · exact inv_complete _ (inv_putImage h r.2 hfit)

/-- Settles O59: a step is an input, a completion, the completion of an illegal word, or nothing, and each keeps the
invariant. -/
theorem everyStepKeepsInvariant : Obligations.EveryStepKeepsInvariant := by
  intro s t h hstep
  rcases step_cases hstep with ⟨u, rest, -, -, rfl⟩ | ⟨-, i, hcmd, hexec⟩ | ⟨-, -, rfl⟩ | ⟨-, -, rfl⟩
  · exact inv_perform u.input { h with }
  · exact inv_exec h hcmd hexec
  · exact inv_complete _ h
  · exact h

end Sys2Proof.Machine
end

section
/-! PROOFS. A command is a function of its operands (00_scope.md R10; 10_state.md R51): the searches read only bits below
the length, and each shared operation gives equal results from equal arguments. -/

namespace Sys2Proof.Machine

/-! ### What the searches compute from buffers that agree below the length -/

theorem modeALoop_congr {b b' : Nat → Bool} {len : Nat} (h : ∀ k, k < len → b k = b' k) (ws : List Nat) (best : Best) :
    modeALoop b len ws best = modeALoop b' len ws best := by
  induction ws generalizing best with
  | nil => rfl
  | cons w ws ih => simp only [modeALoop, countedWindows_congr w h, ih]

/-- The scan of Mode B; a victim width is at least 1, so a match consumes input. -/
theorem modeBLoop_congr {b b' : Nat → Bool} {len : Nat} (h : ∀ k, k < len → b k = b' k) (e : Pattern) {vs : List Nat}
    (hpos : ∀ v ∈ vs, 1 ≤ v) (closest : Option Candidate) :
    modeBLoop b len e vs closest = modeBLoop b' len e vs closest := by
  induction vs generalizing closest with
  | nil => rfl
  | cons v vs ih =>
    have hv : 1 ≤ v := hpos v List.mem_cons_self
    have ih := ih fun u hu => hpos u (List.mem_cons_of_mem v hu)
    simp only [modeBLoop, countedWindows_congr v h, encodeImage_congr hv _ e.value e.width h, ih]

section
variable {s s' : State} (h : SameOperands s s')
include h

theorem SameOperands.inBits_eq : s'.inBits = s.inBits := congrArg BitVec.toNat h.inLen

theorem SameOperands.widthLegal_iff (w : Nat) : widthLegal s' w ↔ widthLegal s w := by
  rw [widthLegal, widthLegal, h.maxw]

theorem SameOperands.countedWindows_eq (w : Nat) :
    countedWindows s'.ibuf s'.inBits w = countedWindows s.ibuf s.inBits w := by
  rw [h.inBits_eq]
  exact countedWindows_congr w h.ibuf

theorem SameOperands.modeA_eq : s'.modeA = s.modeA := by
  rw [State.modeA, State.modeA, modeA, modeA, h.inBits_eq, h.maxw]
  exact modeALoop_congr h.ibuf _ _

theorem SameOperands.modeB_eq (e : Pattern) : s'.modeB e = s.modeB e := by
  rw [State.modeB, State.modeB, modeB, modeB, h.inBits_eq, h.maxw]
  refine modeBLoop_congr h.ibuf e (fun v hv => ?_) none
  obtain ⟨hlow, -⟩ := List.mem_range'_1.1 (List.mem_reverse.1 hv)
  omega

theorem SameOperands.encodeImage_eq {vw : Nat} (hw : 1 ≤ vw) (rw : Nat) :
    encodeImage s'.ibuf s'.inBits s'.valA.toNat vw s'.valB.toNat rw =
      encodeImage s.ibuf s.inBits s.valA.toNat vw s.valB.toNat rw := by
  rw [h.inBits_eq, h.valA, h.valB]
  exact encodeImage_congr hw _ _ _ h.ibuf

theorem SameOperands.input_eq : slice s'.ibuf 0 s'.inBits = slice s.ibuf 0 s.inBits := by
  rw [h.inBits_eq]
  exact slice_congr fun k hk => h.ibuf (0 + k) (by rwa [Nat.zero_add])

/-- The source of GETBIT has the same length in both states, and the same bits below it (40_bitbuffer.md R114). -/
theorem SameOperands.sourceBuffer_eq (src : Src) :
    (sourceBuffer s' src).1 = (sourceBuffer s src).1 ∧
      ∀ k, k < (sourceBuffer s src).1 → (sourceBuffer s' src).2 k = (sourceBuffer s src).2 k := by
  cases src with
  | ibuf => exact ⟨congrArg BitVec.toNat h.inLen, h.ibuf⟩
  | obuf => exact ⟨congrArg BitVec.toNat h.outLen, h.obuf⟩

end

/-! ### Equal results -/

/-- The registers that a command computes, as a list (20_memory.md R71; 42_width_selector.md R141). -/
def computedRegs : Instr → List Reg
  | .nop => []
  | .load => [.inLen]
  | .getbit _ => [.resultBit]
  | .hist _ => [.histW, .histSum, .histMax, .histMaxval, .histZeroval]
  | .escsearch => [.escW, .escVal, .bestW, .bestVal, .bestCount]
  | .vicsearch =>
    [.escW, .escVal, .bestW, .bestVal, .bestCount, .outLen, .matchCount, .delta, .vicW, .vicVal, .closestDelta]
  | .encode _ _ => [.outLen, .matchCount, .delta]

theorem mem_computedRegs {i : Instr} {r : Reg} (hr : computes i r = true) : r ∈ computedRegs i := by
  cases i with
  | nop => simp [computes, writeSet] at hr
  | load => simpa [computes, writeSet, computedRegs] using hr
  | getbit src => simpa [computes, writeSet, computedRegs] using hr
  | hist w => simpa [computes, writeSet, computedRegs] using hr
  | escsearch => revert hr; cases r <;> decide
  | vicsearch => revert hr; cases r <;> decide
  | encode vw rw => simpa [computes, writeSet, outputWrites, computedRegs] using hr

theorem status_notMem_computedRegs (i : Instr) : Reg.status ∉ computedRegs i := by
  cases i <;> simp [computedRegs]

/-- What command `i` leaves in `t` and `t'`, run from `s` and `s'`, is one result: the code, OBUF, and each register it
computes, unless both states keep theirs. -/
structure SameResults (i : Instr) (s s' t t' : State) : Prop where
  code : t'.status.code = t.status.code
  outLen : t'.outLen = t.outLen
  obuf : ∀ k, k < t.outLen.toNat → t'.obuf k = t.obuf k
  regs : ∀ r, computes i r = true →
    regRead t' r = regRead t r ∨ (regRead t r = regRead s r ∧ regRead t' r = regRead s' r)

section
variable {i : Instr} {s s' u u' : State}

/-- A completion with one code in both states adds nothing to the results already written. -/
theorem sameResults_complete (e : ErrorCode) (hlen : u'.outLen = u.outLen)
    (hobuf : ∀ k, k < u.outLen.toNat → u'.obuf k = u.obuf k)
    (hregs : ∀ r ∈ computedRegs i,
      regRead u' r = regRead u r ∨ (regRead u r = regRead s r ∧ regRead u' r = regRead s' r)) :
    SameResults i s s' (complete e u) (complete e u') where
  code := rfl
  outLen := hlen
  obuf := hobuf
  regs r hr := by
    have hmem : r ∈ computedRegs i := mem_computedRegs hr
    have hne : r ∉ [Reg.status] := fun hs =>
      status_notMem_computedRegs i (List.mem_singleton.1 hs ▸ hmem)
    rw [regsKept_complete e u r hne, regsKept_complete e u' r hne]
    exact hregs r hmem

/-- A command that ends with an error and writes nothing: OBUF is an operand. -/
theorem SameOperands.sameResults_error (h : SameOperands s s') (e : ErrorCode) :
    SameResults i s s' (complete e s) (complete e s') :=
  sameResults_complete e h.outLen h.obuf fun _ _ => .inr ⟨rfl, rfl⟩

/-- A command that computes its registers and leaves OBUF alone. -/
theorem SameOperands.sameResults_of_obuf_kept (h : SameOperands s s') (e : ErrorCode)
    (hlen : u.outLen = s.outLen ∧ u'.outLen = s'.outLen) (hmem : u.outMem = s.outMem ∧ u'.outMem = s'.outMem)
    (hregs : ∀ r ∈ computedRegs i,
      regRead u' r = regRead u r ∨ (regRead u r = regRead s r ∧ regRead u' r = regRead s' r)) :
    SameResults i s s' (complete e u) (complete e u') := by
  refine sameResults_complete e (by rw [hlen.1, hlen.2, h.outLen]) (fun k hk => ?_) hregs
  rw [obuf_of_eq hmem.1, obuf_of_eq hmem.2]
  exact h.obuf k (hlen.1 ▸ hk)

/-- The same sequence written to OBUF reads the same, whatever OUT_MEM held (10_state.md R49). -/
theorem obuf_putObuf_congr (x : List Bool) (s s' : State) {k : Nat} (hk : k < (putObuf x s).outLen.toNat) :
    (putObuf x s').obuf k = (putObuf x s).obuf k := by
  have hlen : k < x.length := by
    rw [putObuf_outLen, BitVec.toNat_ofNat] at hk
    exact Nat.lt_of_lt_of_le hk (Nat.mod_le _ _)
  rw [obuf_putObuf x s k (lt_bytesFor hlen), obuf_putObuf x s' k (lt_bytesFor hlen)]

/-- A command that writes the same sequence to OBUF in both states, on top of `v` and `v'`. -/
theorem sameResults_of_putObuf (e : ErrorCode) (x : List Bool) {v v' : State}
    (hlen : u.outLen = (putObuf x v).outLen ∧ u'.outLen = (putObuf x v').outLen)
    (hmem : u.outMem = (putObuf x v).outMem ∧ u'.outMem = (putObuf x v').outMem)
    (hregs : ∀ r ∈ computedRegs i, regRead u' r = regRead u r) :
    SameResults i s s' (complete e u) (complete e u') := by
  refine sameResults_complete e (hlen.2.trans hlen.1.symm) (fun k hk => ?_) fun r hr => .inl (hregs r hr)
  rw [obuf_of_eq hmem.1, obuf_of_eq hmem.2]
  exact obuf_putObuf_congr x v v' (hlen.1 ▸ hk)

end

section
variable {s s' t t' : State}

theorem SameOperands.sameResults_load (h : SameOperands s s') (ht : exec .load s = .next t) (ht' : exec .load s' = .next t') :
    SameResults .load s s' t t' := by
  rcases exec_cases ht with ⟨hn, rfl⟩ | ⟨hn, rfl⟩ <;>
    simp only [exec, execLoad, h.params, h.inNbytes] at ht'
  · rw [if_pos hn] at ht'
    obtain rfl := Host.Outcome.next.inj ht'
    exact h.sameResults_error _
  · rw [if_neg (Nat.not_lt.2 hn)] at ht'
    obtain rfl := Host.Outcome.next.inj ht'
    refine h.sameResults_of_obuf_kept _ ⟨rfl, rfl⟩ ⟨rfl, rfl⟩ fun r hr => .inl ?_
    obtain rfl := List.mem_singleton.1 hr
    rfl

theorem SameOperands.sameResults_getbit {src : Src} (h : SameOperands s s') (ht : exec (.getbit src) s = .next t)
    (ht' : exec (.getbit src) s' = .next t') : SameResults (.getbit src) s s' t t' := by
  obtain ⟨hlen, hbit⟩ := h.sourceBuffer_eq src
  rcases exec_cases ht with ⟨hk, rfl⟩ | ⟨hk, rfl⟩ <;>
    simp only [exec, execGetbit, hlen, h.argIndex] at ht'
  · rw [if_pos hk] at ht'
    obtain rfl := Host.Outcome.next.inj ht'
    exact h.sameResults_error _
  · rw [if_neg (Nat.not_le.2 hk), hbit _ hk] at ht'
    obtain rfl := Host.Outcome.next.inj ht'
    refine h.sameResults_of_obuf_kept _ ⟨rfl, rfl⟩ ⟨rfl, rfl⟩ fun r hr => .inl ?_
    obtain rfl := List.mem_singleton.1 hr
    rfl

theorem regRead_putHist_congr (w : Nat) (ws : List Nat) (s s' : State) :
    ∀ r ∈ computedRegs (.hist w), regRead (putHist w ws s') r = regRead (putHist w ws s) r := by
  simp [computedRegs, regRead]

/-- HIST: the counters are results too, where it succeeds (41_histogram.md R125). -/
theorem SameOperands.sameResults_hist {w : Nat} (h : SameOperands s s') (ht : exec (.hist w) s = .next t)
    (ht' : exec (.hist w) s' = .next t') :
    SameResults (.hist w) s s' t t' ∧ (t.status.code = .success → t'.histMem = t.histMem) := by
  rcases exec_cases ht with ⟨hw, rfl⟩ | ⟨hw, rfl⟩ <;>
    simp only [exec, execHist, h.widthLegal_iff, h.countedWindows_eq] at ht'
  · rw [if_pos hw] at ht'
    obtain rfl := Host.Outcome.next.inj ht'
    exact ⟨h.sameResults_of_obuf_kept _ ⟨rfl, rfl⟩ ⟨rfl, rfl⟩ fun r hr => .inl (regRead_putHist_congr w _ s s' r hr),
      fun _ => by simp [h.params]⟩
  · rw [if_neg hw] at ht'
    obtain rfl := Host.Outcome.next.inj ht'
    exact ⟨h.sameResults_error _, nofun⟩

theorem regRead_putModeA_congr (a : ModeA) (s s' : State) :
    ∀ r ∈ computedRegs .escsearch, regRead (putModeA a s') r = regRead (putModeA a s) r := by
  simp [computedRegs, regRead]

theorem SameOperands.sameResults_escsearch (h : SameOperands s s') (ht : exec .escsearch s = .next t)
    (ht' : exec .escsearch s' = .next t') : SameResults .escsearch s s' t t' := by
  rcases exec_cases ht with ⟨ha, rfl⟩ | ⟨⟨e, ha⟩, rfl⟩ <;>
  · simp only [exec, execEscsearch, h.modeA_eq, ha] at ht'
    obtain rfl := Host.Outcome.next.inj ht'
    exact h.sameResults_of_obuf_kept _ ⟨rfl, rfl⟩ ⟨rfl, rfl⟩ fun r hr =>
      .inl (regRead_putModeA_congr s.modeA s s' r hr)

theorem SameOperands.sameResults_vicsearch (h : SameOperands s s') (ht : exec .vicsearch s = .next t)
    (ht' : exec .vicsearch s' = .next t') : SameResults .vicsearch s s' t t' := by
  have hbits : (putModeA s.modeA s').inBits = (putModeA s.modeA s).inBits := h.inBits_eq
  rcases exec_cases ht with ⟨ha, rfl⟩ | ⟨e, ha, ⟨c, x, n, hb, rfl⟩ | ⟨r, hb, rfl⟩⟩
  · simp only [exec, execVicsearch, h.modeA_eq, ha] at ht'
    obtain rfl := Host.Outcome.next.inj ht'
    refine h.sameResults_of_obuf_kept _ (by simp) (by simp) ?_
    simp [computedRegs, regRead]
  · simp only [exec, execVicsearch, h.modeA_eq, ha, h.modeB_eq, hb] at ht'
    obtain rfl := Host.Outcome.next.inj ht'
    refine sameResults_of_putObuf _ x (v := putModeA s.modeA s) (v' := putModeA s.modeA s') ?_ ?_ ?_
    · simp only [putCandidate_outLen, putImage_outLen, putObuf_outLen, and_self]
    · simp only [putCandidate_outMem, putImage_outMem, and_self]
    · simp [computedRegs, regRead, hbits]
  · simp only [exec, execVicsearch, h.modeA_eq, ha, h.modeB_eq, hb] at ht'
    obtain rfl := Host.Outcome.next.inj ht'
    have hinput : slice (putModeA s.modeA s').ibuf 0 (putModeA s.modeA s').inBits =
        slice (putModeA s.modeA s).ibuf 0 (putModeA s.modeA s).inBits := h.input_eq
    refine sameResults_of_putObuf _ (slice (putModeA s.modeA s).ibuf 0 (putModeA s.modeA s).inBits)
      (v := putModeA s.modeA s) (v' := putModeA s.modeA s') ?_ ?_ ?_
    · simp only [putCandidate_outLen, putOriginal_outLen, putObuf_outLen, hinput, and_self]
    · simp only [putCandidate_outMem, putOriginal_outMem, hinput, and_self]
    · simp [computedRegs, regRead, hbits]

theorem SameOperands.sameResults_encode {vw rw : Nat} (h : SameOperands s s') (ht : exec (.encode vw rw) s = .next t)
    (ht' : exec (.encode vw rw) s' = .next t') : SameResults (.encode vw rw) s s' t t' := by
  rcases exec_cases ht with ⟨hw, rfl⟩ | ⟨hw, ⟨hv, rfl⟩ | ⟨hv, r, rfl, ⟨hfit, rfl⟩ | ⟨hfit, rfl⟩⟩⟩ <;>
    simp only [exec, execEncode, h.widthLegal_iff] at ht'
  · rw [if_neg hw] at ht'
    obtain rfl := Host.Outcome.next.inj ht'
    exact h.sameResults_error _
  · rw [if_pos hw, h.valA, h.valB, if_neg hv] at ht'
    obtain rfl := Host.Outcome.next.inj ht'
    exact h.sameResults_error _
  · rw [if_pos hw, h.encodeImage_eq hw.1.1, h.valA, h.valB, if_pos hv, h.params, if_pos hfit] at ht'
    obtain rfl := Host.Outcome.next.inj ht'
    refine sameResults_complete _ rfl nofun ?_
    simp [computedRegs, regRead]
  · rw [if_pos hw, h.encodeImage_eq hw.1.1, h.valA, h.valB, if_pos hv, h.params, if_neg (Nat.not_lt.2 hfit)] at ht'
    obtain rfl := Host.Outcome.next.inj ht'
    refine sameResults_of_putObuf _ _ ⟨rfl, rfl⟩ ⟨rfl, rfl⟩ ?_
    simp [computedRegs, regRead, h.inBits_eq]

/-- Every command computes the same results from the same operands. -/
theorem SameOperands.sameResults_exec (h : SameOperands s s') {i : Instr} (ht : exec i s = .next t)
    (ht' : exec i s' = .next t') : SameResults i s s' t t' := by
  cases i with
  | nop =>
    obtain rfl := Host.Outcome.next.inj ht
    obtain rfl := Host.Outcome.next.inj ht'
    exact h.sameResults_error .success
  | load => exact h.sameResults_load ht ht'
  | getbit src => exact h.sameResults_getbit ht ht'
  | hist w => exact (h.sameResults_hist ht ht').1
  | escsearch => exact h.sameResults_escsearch ht ht'
  | vicsearch => exact h.sameResults_vicsearch ht ht'
  | encode vw rw => exact h.sameResults_encode ht ht'

end

/-- Settles O15: command by command, and for HIST also HIST_MEM. -/
theorem commandsDependOnOperandsOnly : Obligations.CommandsDependOnOperandsOnly := by
  intro i s s' t t' h ht ht'
  obtain ⟨hcode, hlen, hobuf, hregs⟩ := h.sameResults_exec ht ht'
  refine ⟨hcode, hlen, hobuf, hregs, ?_⟩
  rintro w rfl hsuccess k
  exact histMemKept_of_eq ((h.sameResults_hist ht ht').2 hsuccess) k

end Sys2Proof.Machine
end

section
/-! PROOFS. The address map (10_state.md R23; 20_memory.md R64 to R67): which location an address is, region by region. -/

namespace Sys2Proof.Machine

/-- Every register has its own word below 0x78 (10_state.md R23). -/
theorem Reg.offset_spec (r : Reg) :
    r.offset % 4 = 0 ∧ r.offset < 0x78 ∧ regsInOrder[r.offset / 4]? = some r := by
  cases r <;> decide

/-- Words are counted from a region's base as bytes are, since every base is the address of a word. -/
theorem word_sub_base {base : Nat} (hbase : base % 4 = 0) (n : Nat) : n / 4 - base / 4 = (n - base) / 4 := by omega

section
variable {p : Params} {a : Word}

theorem locOf_counter (hlow : histBase ≤ a.toNat) (hhigh : a.toNat < histBase + 4 * 2 ^ p.histVisW) :
    locOf p a = .counter ((a.toNat - histBase) / 4) := by
  simp only [histBase] at hlow hhigh
  rw [locOf, if_pos (by simp only [histBase]; omega), word_sub_base (by decide)]

/-- An address of OUT_MEM is below HIST_MEM, since OUT_CAP_BITS is below `2^31` (00_scope.md R3). -/
theorem locOf_outWord (hp : p.legal) (hlow : outBase ≤ a.toNat) (hhigh : a.toNat < outBase + 4 * wordsFor p.outBytes) :
    locOf p a = .outWord ((a.toNat - outBase) / 4) := by
  have hbytes : p.outBytes ≤ 2 ^ 28 := by simp only [Params.outBytes]; omega
  simp only [outBase, wordsFor] at hlow hhigh
  rw [locOf, if_neg (by simp only [histBase]; omega), if_pos (by simp only [outBase, wordsFor]; omega),
    word_sub_base (by decide)]

/-- An address of IN_MEM is below OUT_MEM, since IN_CAP_BYTES is at most `2^27` (00_scope.md R3). -/
theorem locOf_inWord (hp : p.legal) (hlow : inBase ≤ a.toNat) (hhigh : a.toNat < inBase + 4 * wordsFor p.inCapBytes) :
    locOf p a = .inWord ((a.toNat - inBase) / 4) := by
  simp only [inBase, wordsFor] at hlow hhigh
  rw [locOf, if_neg (by simp only [histBase]; omega), if_neg (by simp only [outBase]; omega),
    if_pos (by simp only [inBase, wordsFor]; omega), word_sub_base (by decide)]

/-- Outside the three memories an address is that of a register, or reserved past the last one. -/
theorem locOf_outside_memories (hin : a.toNat < inBase ∨ inBase + 4 * wordsFor p.inCapBytes ≤ a.toNat)
    (hout : a.toNat < outBase ∨ outBase + 4 * wordsFor p.outBytes ≤ a.toNat)
    (hhist : a.toNat < histBase ∨ histBase + 4 * 2 ^ p.histVisW ≤ a.toNat) :
    locOf p a = (regsInOrder[a.toNat / 4]?).elim .reserved Loc.reg := by
  simp only [inBase, outBase, histBase] at hin hout hhist
  rw [locOf, if_neg (by simp only [histBase]; omega), if_neg (by simp only [outBase]; omega),
    if_neg (by simp only [inBase]; omega)]

theorem locOf_reg {r : Reg} (hlow : r.offset ≤ a.toNat) (hhigh : a.toNat < r.offset + 4) : locOf p a = .reg r := by
  obtain ⟨haligned, hbound, hget⟩ := r.offset_spec
  have hword : a.toNat / 4 = r.offset / 4 := by omega
  rw [locOf_outside_memories (.inl (by simp only [inBase]; omega)) (.inl (by simp only [outBase]; omega))
    (.inl (by simp only [histBase]; omega)), hword, hget]
  rfl

end

/-- Settles O42: each region by its own lemma, the table's offsets being those of `regsInOrder`. -/
theorem addressMap : Obligations.AddressMap := by
  unfold Obligations.AddressMap
  extract_lets table
  intro p a hp
  have hoffset : ∀ x ∈ table, x.1 = x.2.offset := by simp only [table]; decide
  refine ⟨fun x hx hlow hhigh => ?_, locOf_inWord hp, locOf_outWord hp, locOf_counter,
    fun hregs hin hout hhist => ?_⟩
  · rw [hoffset x hx] at hlow hhigh
    exact locOf_reg hlow hhigh
  · have hlast : regsInOrder[a.toNat / 4]? = none :=
      List.getElem?_eq_none (by rw [show regsInOrder.length = 30 from rfl]; omega)
    rw [locOf_outside_memories hin hout hhist, hlast]
    rfl

end Sys2Proof.Machine
end

section
/-! PROOFS. Full-strobe writes to the registers (10_state.md R28 to R35). -/

namespace Sys2Proof.Machine

variable {s : State} {a : Word}

theorem hostWrite_reg {r : Reg} (h : locOf s.params a = .reg r) (d : Word) : hostWrite a d 0xF#4 s = regWrite d s r := by
  simp [hostWrite, h]

theorem unlessBusy_idle (h : s.status.busy = false) (s' : State) : unlessBusy s s' = s' := by simp [unlessBusy, h]

/-- Settles O50: `regWrite`, register by register. -/
theorem registerWrites : Obligations.RegisterWrites := by
  intro s a d
  refine ⟨fun h => hostWrite_reg h d, fun h => hostWrite_reg h d, fun hidle => ⟨fun h => ?_, fun h => ?_, fun h => ?_,
    fun h => ?_⟩⟩ <;> exact (hostWrite_reg h d).trans (unlessBusy_idle hidle _)

theorem toNat_lowBits (d : Word) : (d.extractLsb' 0 6).toNat = d.toNat % 64 := by
  simp [BitVec.extractLsb'_toNat]

theorem highBits_eq_zero_iff (d : Word) : d.extractLsb' 6 26 = 0#26 ↔ d.toNat / 64 = 0 := by
  have hd : d.toNat < 2 ^ 32 := d.isLt
  rw [← BitVec.toNat_inj, BitVec.extractLsb'_toNat, Nat.shiftRight_eq_div_pow, BitVec.toNat_ofNat]
  omega

/-- MAXW's check of a write, in the arithmetic of 10_state.md R31. -/
theorem writeMaxw_eq (d : Word) (s : State) :
    writeMaxw d s =
      if 1 ≤ d.toNat % 64 ∧ d.toNat % 64 ≤ s.params.maxWidthHw ∧ d.toNat / 64 = 0 then
        { s with maxw := d.extractLsb' 0 6 }
      else s := by
  refine if_congr ?_ rfl rfl
  rw [toNat_lowBits, highBits_eq_zero_iff]
  tauto

/-- Settles O51: an idle write to MAXW is `writeMaxw`, whose check is the rule's. -/
theorem maxwIsWarl : Obligations.MaxwIsWarl := by
  intro s a d hloc hidle
  have hwrite : hostWrite a d 0xF#4 s = writeMaxw d s := (hostWrite_reg hloc d).trans (unlessBusy_idle hidle _)
  rw [hwrite, writeMaxw_eq]
  refine ⟨fun hlow hhigh hzero => ?_, fun hillegal => if_neg hillegal⟩
  have hvalue : (d.extractLsb' 0 6).toNat = d.toNat := by rw [toNat_lowBits]; omega
  rw [if_pos ⟨hlow, hhigh, hzero⟩]
  refine ⟨_, hvalue, rfl, BitVec.eq_of_toNat_eq ?_⟩
  exact (BitVec.toNat_setWidth_of_le (by decide)).trans hvalue

end Sys2Proof.Machine
end

section
/-! PROOFS. The words that registers read as, field by field (10_state.md R24 to R43), and their values at reset (R53). -/

namespace Sys2Proof.Machine

/-- Concatenation in arithmetic: the high part weighs `2^n`. -/
theorem toNat_append_eq_add {m n : Nat} (x : BitVec m) (y : BitVec n) :
    (x ++ y).toNat = 2 ^ n * x.toNat + y.toNat := by
  rw [BitVec.toNat_append, Nat.shiftLeft_eq, Nat.mul_comm, Nat.two_pow_add_eq_or_of_lt y.isLt]

/-- STATUS as the sum of its fields at the places of 10_state.md R29. -/
theorem Status.toNat_word (t : Status) :
    t.word.toNat = t.busy.toNat + 2 * t.done.toNat + 4 * t.err.toNat + 8 * t.haz.toNat + 16 * t.code.num.toNat +
      256 * t.lastop.toNat := by
  simp only [Status.word, toNat_append_eq_add, BitVec.toNat_ofBool, BitVec.toNat_ofNat]
  omega

/-- HIST_W as the sum of its fields at the places of 10_state.md R37. -/
theorem HistW.toNat_word (h : HistW) :
    h.word.toNat = h.width.toNat + 256 * h.hvalid.toNat + 512 * h.nodata.toNat + 1024 * h.zfound.toNat := by
  simp only [HistW.word, toNat_append_eq_add, BitVec.toNat_ofBool, BitVec.toNat_ofNat]
  omega

theorem toNat_bitRegister (b : Bool) : ((BitVec.ofBool b).zeroExtend 32 : Word).toNat = b.toNat :=
  (BitVec.toNat_setWidth_of_le (by decide)).trans (BitVec.toNat_ofBool b)

theorem toNat_widthRegister (w : BitVec 6) : (w.zeroExtend 32 : Word).toNat = w.toNat :=
  BitVec.toNat_setWidth_of_le (by decide)

/-- Settles O53: the packed words by their sums, the narrow registers by zero extension, the others as they are. -/
theorem flagWords : Obligations.FlagWords :=
  ⟨fun s => ⟨s.status.toNat_word, s.histW.toNat_word, toNat_bitRegister s.ie, toNat_bitRegister s.resultBit,
    toNat_widthRegister s.maxw, toNat_widthRegister s.escW, toNat_widthRegister s.bestW, toNat_widthRegister s.vicW,
    rfl, rfl, rfl, rfl, rfl, rfl, rfl, rfl, rfl, rfl, rfl, rfl, rfl, rfl, rfl, rfl, rfl, rfl⟩,
    by decide⟩

/-- PARAM0 as the sum of its fields: a legal build's parameters fit them (10_state.md R25). -/
theorem toNat_param0Word {p : Params} (hp : p.legal) : (param0Word p).toNat = p.maxWidthHw + 2 ^ 8 * p.histVisW := by
  simp only [param0Word, toNat_append_eq_add, BitVec.toNat_ofNat]
  omega

theorem Status.word_reset : Status.reset.word = 0#32 := by decide

theorem HistW.word_reset : HistW.reset.word = 0#32 := by decide

/-- Every register but the constants and MAXW is 0 after reset (10_state.md R53). -/
theorem regRead_resetWith {r : Reg} (hr : r ∉ [Reg.id, .param0, .param1, .param2, .maxw]) (p : Params) (d : Nat) :
    regRead (State.resetWith p d) r = 0#32 := by
  cases r
  case id | param0 | param1 | param2 | maxw => exact absurd hr (by decide)
  case status => exact Status.word_reset
  case histW => exact HistW.word_reset
  all_goals rfl

/-- Asserting reset shows the reset state of the same build in every register. -/
theorem regRead_assertReset (s : State) (r : Reg) :
    regRead (assertReset s) r = regRead (State.resetWith s.params s.draws) r := by
  cases r <;> rfl

/-- The constants depend on the build alone (10_state.md R24 to R27). -/
theorem regRead_constant {r : Reg} (hr : r ∈ [Reg.id, .param0, .param1, .param2]) {s t : State}
    (h : t.params = s.params) : regRead t r = regRead s r := by
  simp only [List.mem_cons, List.not_mem_nil, or_false] at hr
  rcases hr with rfl | rfl | rfl | rfl <;> simp only [regRead, h]

/-- Settles O57: each register's reset value, and the build's registers kept. -/
theorem resetLeavesResetValues : Obligations.ResetLeavesResetValues := by
  refine ⟨fun s hp => ⟨fun r hr => ?_, fun r hr => regRead_constant hr rfl, ?_, rfl⟩,
    fun r hr => regRead_resetWith hr _ _, rfl, by decide, by decide, by decide, by decide, rfl⟩
  · exact (regRead_assertReset s r).trans (regRead_resetWith hr _ _)
  · calc (regRead (assertReset s) .maxw).toNat
        = (BitVec.ofNat 6 s.params.maxWidthHw).toNat := toNat_widthRegister _
      _ = s.params.maxWidthHw := by rw [BitVec.toNat_ofNat]; omega

/-- Settles O60: the default build is legal. -/
theorem resetHasInvariant : Obligations.ResetHasInvariant :=
  ⟨inv_resetWith (by decide) 0, fun _ d hp => inv_resetWith hp d⟩

end Sys2Proof.Machine
end

section
/-! PROOFS. What a step changes: the frame of every completion (20_memory.md R71; 40_bitbuffer.md R111), of the port's
inputs, and of the step (10_state.md R22, R24 to R27, R45; 20_memory.md R70, R72). -/

namespace Sys2Proof.Machine

/-! ### The completion of the command in flight -/

theorem decodeRow_ok {c : Word} {i j : Instr} (h : decodeRow c i = .ok j) : j = i := by
  unfold decodeRow at h
  split at h
  · exact (Except.ok.inj h).symm
  · cases h

theorem fieldWa_fits (c : Word) : widthFits (fieldWa c) := Nat.le_of_lt_succ (c.extractLsb' 8 6).isLt

theorem fieldWb_fits (c : Word) : widthFits (fieldWb c) := Nat.le_of_lt_succ (c.extractLsb' 16 6).isLt

/-- A decoded command's width operands come from 6-bit fields, so they fit its word (30_encoding.md R91, R95). -/
theorem wellFormed_of_decode {c : Word} {i : Instr} (h : decode c = .ok i) : i.wellFormed = true := by
  unfold decode at h
  split at h
  case h_8 => cases h
  all_goals
    obtain rfl := decodeRow_ok h
    simp [Instr.wellFormed, fieldWa_fits, fieldWb_fits]

/-- While a command runs and its completion is due, no input comes first (60_exceptions.md R188; log 1). -/
theorem dueInput_eq_none {s : State} (hbusy : s.status.busy = true) (hlate : ∀ t ∈ s.turns.head?, t.late = true) :
    dueInput s = none := by
  rcases dueInput_cases s with ⟨u, rest, hturns, hidle | hearly, -⟩ | ⟨-, hnone⟩
  · simp [hbusy] at hidle
  · simp [hlate u (by simp [hturns])] at hearly
  · exact hnone

theorem step_eq_exec {s : State} {i : Instr} (hbusy : s.status.busy = true)
    (hlate : ∀ t ∈ s.turns.head?, t.late = true) (hcmd : decode s.cmd = .ok i) : step s = exec i s := by
  simp [step, dueInput_eq_none hbusy hlate, hbusy, engineStep, fetchWord, hcmd]

theorem late_head_deferFirst (ts : List Turn) : ∀ t ∈ (deferFirst ts).head?, t.late = true := by
  cases ts <;> simp [deferFirst]

theorem decode_of_decodeTableWord {n w : Nat} {i : Instr} (h : decodeTableWord n w = some i) :
    decode (tableWord n w) = .ok i := by
  unfold decodeTableWord at h
  cases hd : decode (tableWord n w) with
  | ok j => rw [hd] at h; exact congrArg _ (Option.some.inj h)
  | error why => rw [hd] at h; cases h

/-- Settles O6: the acceptance of a table word leaves it in flight with its completion due. -/
theorem stepRunsDecodedCommand : Obligations.StepRunsDecodedCommand :=
  ⟨fun _ _ hbusy hlate hcmd => ⟨wellFormed_of_decode hcmd, step_eq_exec hbusy hlate hcmd⟩,
    fun s _ _ hword => step_eq_exec rfl (late_head_deferFirst s.turns) (decode_of_decodeTableWord hword)⟩

/-! ### The frame of a completion -/

/-- `u` keeps of `s` all that no command's rule lists as its result: what the host writes, the build, STATUS, IN_MEM and
the port (20_memory.md R71; 40_bitbuffer.md R111). -/
structure ResultsFrame (s u : State) : Prop where
  params : u.params = s.params
  ie : u.ie = s.ie
  status : u.status = s.status
  cmd : u.cmd = s.cmd
  maxw : u.maxw = s.maxw
  inNbytes : u.inNbytes = s.inNbytes
  argIndex : u.argIndex = s.argIndex
  valA : u.valA = s.valA
  valB : u.valB = s.valB
  inMem : u.inMem = s.inMem
  turns : u.turns = s.turns
  rdata : u.rdata = s.rdata

section
variable (s : State)

theorem ResultsFrame.refl : ResultsFrame s s :=
  ⟨rfl, rfl, rfl, rfl, rfl, rfl, rfl, rfl, rfl, rfl, rfl, rfl⟩

theorem resultsFrame_putHist (w : Nat) (ws : List Nat) : ResultsFrame s (putHist w ws s) :=
  ⟨rfl, rfl, rfl, rfl, rfl, rfl, rfl, rfl, rfl, rfl, rfl, rfl⟩

theorem resultsFrame_putModeA (a : ModeA) : ResultsFrame s (putModeA a s) :=
  ⟨rfl, rfl, rfl, rfl, rfl, rfl, rfl, rfl, rfl, rfl, rfl, rfl⟩

theorem resultsFrame_putCandidate (c : Option Candidate) : ResultsFrame s (putCandidate c s) :=
  ⟨rfl, rfl, rfl, rfl, rfl, rfl, rfl, rfl, rfl, rfl, rfl, rfl⟩

theorem resultsFrame_putImage (x : List Bool) (n : Nat) : ResultsFrame s (putImage x n s) :=
  ⟨rfl, rfl, rfl, rfl, rfl, rfl, rfl, rfl, rfl, rfl, rfl, rfl⟩

theorem resultsFrame_putOriginal : ResultsFrame s (putOriginal s) :=
  ⟨rfl, rfl, rfl, rfl, rfl, rfl, rfl, rfl, rfl, rfl, rfl, rfl⟩

theorem resultsFrame_putTooLong : ResultsFrame s (putTooLong s) :=
  ⟨rfl, rfl, rfl, rfl, rfl, rfl, rfl, rfl, rfl, rfl, rfl, rfl⟩

end

theorem ResultsFrame.trans {s u v : State} (h : ResultsFrame s u) (g : ResultsFrame u v) : ResultsFrame s v where
  params := g.params.trans h.params
  ie := g.ie.trans h.ie
  status := g.status.trans h.status
  cmd := g.cmd.trans h.cmd
  maxw := g.maxw.trans h.maxw
  inNbytes := g.inNbytes.trans h.inNbytes
  argIndex := g.argIndex.trans h.argIndex
  valA := g.valA.trans h.valA
  valB := g.valB.trans h.valB
  inMem := g.inMem.trans h.inMem
  turns := g.turns.trans h.turns
  rdata := g.rdata.trans h.rdata

/-- Every completion is one of a state that differs from the command's own in its results only. -/
theorem exec_eq_complete {i : Instr} {s t : State} (h : exec i s = .next t) :
    ∃ e u, t = complete e u ∧ ResultsFrame s u := by
  have hmodeA : ResultsFrame s (putModeA s.modeA s) := resultsFrame_putModeA s _
  cases i with
  | nop => exact ⟨_, _, exec_cases h, .refl s⟩
  | load =>
    rcases exec_cases h with ⟨-, ht⟩ | ⟨-, ht⟩
    · exact ⟨_, _, ht, .refl s⟩
    · exact ⟨_, _, ht, { ResultsFrame.refl s with }⟩
  | getbit src =>
    rcases exec_cases h with ⟨-, ht⟩ | ⟨-, ht⟩
    · exact ⟨_, _, ht, .refl s⟩
    · exact ⟨_, _, ht, { ResultsFrame.refl s with }⟩
  | hist w =>
    rcases exec_cases h with ⟨-, ht⟩ | ⟨-, ht⟩
    · exact ⟨_, _, ht, resultsFrame_putHist s _ _⟩
    · exact ⟨_, _, ht, .refl s⟩
  | escsearch => rcases exec_cases h with ⟨-, ht⟩ | ⟨-, ht⟩ <;> exact ⟨_, _, ht, hmodeA⟩
  | vicsearch =>
    rcases exec_cases h with ⟨-, ht⟩ | ⟨_, -, ⟨_, _, _, -, ht⟩ | ⟨_, -, ht⟩⟩
    · exact ⟨_, _, ht, hmodeA.trans (resultsFrame_putCandidate _ _)⟩
    · exact ⟨_, _, ht, (hmodeA.trans (resultsFrame_putImage _ _ _)).trans (resultsFrame_putCandidate _ _)⟩
    · exact ⟨_, _, ht, (hmodeA.trans (resultsFrame_putOriginal _)).trans (resultsFrame_putCandidate _ _)⟩
  | encode vw rw =>
    rcases exec_cases h with ⟨-, ht⟩ | ⟨-, ⟨-, ht⟩ | ⟨-, _, -, ⟨-, ht⟩ | ⟨-, ht⟩⟩⟩
    · exact ⟨_, _, ht, .refl s⟩
    · exact ⟨_, _, ht, .refl s⟩
    · exact ⟨_, _, ht, resultsFrame_putTooLong s⟩
    · exact ⟨_, _, ht, resultsFrame_putImage s _ _⟩

/-- What a step can be, with the completions told by their frame: an input, the completion of the command or illegal word
in flight, or nothing. -/
theorem step_cases_frame {s t : State} (h : step s = .next t) :
    (∃ u rest, s.turns = u :: rest ∧ t = perform u.input { s with turns := rest }) ∨
      (∃ e u, t = complete e u ∧ ResultsFrame s u) ∨ t = s := by
  rcases step_cases h with ⟨u, rest, hturns, -, ht⟩ | ⟨-, i, -, hexec⟩ | ⟨-, -, ht⟩ | ⟨-, -, ht⟩
  · exact .inl ⟨u, rest, hturns, ht⟩
  · exact .inr (.inl (exec_eq_complete hexec))
  · exact .inr (.inl ⟨_, s, ht, .refl s⟩)
  · exact .inr (.inr ht)

/-! ### The build -/

@[simp] theorem hostRead_params (a : Word) (s : State) : (hostRead a s).params = s.params := by
  rw [hostRead_eq]; split <;> rfl

@[simp] theorem writeMaxw_params (d : Word) (s : State) : (writeMaxw d s).params = s.params := by
  rcases writeMaxw_cases d s with ⟨m, -, -, h⟩ | h <;> rw [h]

@[simp] theorem hostWrite_params (a d : Word) (be : BitVec 4) (s : State) : (hostWrite a d be s).params = s.params := by
  rcases hostWrite_cases a d be s with h | ⟨-, h⟩ | ⟨r, -, -, hreg⟩ | ⟨m, -, -, h⟩
  · rw [h]
  · rw [h, setHaz_params]
  · rcases hreg with ⟨-, h⟩ | ⟨-, h⟩ | ⟨-, ⟨-, h⟩ | ⟨-, h⟩ | ⟨-, h⟩ | ⟨-, h⟩ | ⟨-, h⟩ | ⟨-, h⟩⟩ <;> rw [h]
    · exact accept_params d s
    · exact writeMaxw_params d s
  · rw [h, inWordWrite_params]

@[simp] theorem perform_params (x : Input) (s : State) : (perform x s).params = s.params := by
  cases x with
  | read a => exact hostRead_params a s
  | write a d be => exact hostWrite_params a d be s
  | reset => rfl

theorem step_params {s t : State} (h : step s = .next t) : t.params = s.params := by
  rcases step_cases_frame h with ⟨u, rest, -, rfl⟩ | ⟨e, u, rfl, hframe⟩ | rfl
  · exact perform_params _ _
  · exact hframe.params
  · rfl

/-- Settles O52: a legal build's parameters fit the registers that show them, and no step changes the build. -/
theorem constantRegisters : Obligations.ConstantRegisters := by
  refine ⟨fun s hp => ?_, fun s t => step_params⟩
  obtain ⟨-, -, ⟨-, hin⟩, -, hout⟩ := id hp
  exact ⟨rfl, toNat_param0Word hp, toNat_word_of_le hin (by decide), toNat_word_of_le hout (by decide)⟩

/-! ### HAZ -/

/-- The registers whose writes R72 drops while a command runs (20_memory.md R72). -/
def heldRegs : List Reg := [.cmd, .maxw, .inNbytes, .argIndex, .valA, .valB]

@[simp] theorem hostRead_status_eq (a : Word) (s : State) : (hostRead a s).status = s.status := by
  rw [hostRead_eq]; split <;> rfl

@[simp] theorem writeMaxw_status (d : Word) (s : State) : (writeMaxw d s).status = s.status := by
  rcases writeMaxw_cases d s with ⟨m, -, -, h⟩ | h <;> rw [h]

/-- A held write sets HAZ exactly if a command runs. -/
theorem haz_unlessBusy {s s' : State} (h : s'.status.haz = s.status.haz) :
    (unlessBusy s s').status.haz = (s.status.haz || s.status.busy) := by
  cases hbusy : s.status.busy <;> simp [unlessBusy, hbusy, h]

theorem haz_regWrite_held {r : Reg} (hr : r ∈ heldRegs) (d : Word) (s : State) :
    (regWrite d s r).status.haz = (s.status.haz || s.status.busy) := by
  simp only [heldRegs, List.mem_cons, List.not_mem_nil, or_false] at hr
  rcases hr with rfl | rfl | rfl | rfl | rfl | rfl <;> refine haz_unlessBusy ?_
  case inr.inl => rw [writeMaxw_status]
  all_goals rfl

theorem haz_regWrite_status (d : Word) (s : State) :
    (regWrite d s .status).status.haz = (s.status.haz && !d.getLsbD 3) := rfl

theorem haz_regWrite_other {r : Reg} (hheld : r ∉ heldRegs) (hstatus : r ≠ .status) (d : Word) (s : State) :
    (regWrite d s r).status.haz = s.status.haz := by
  cases r
  case status => exact absurd rfl hstatus
  case cmd | maxw | inNbytes | argIndex | valA | valB => exact absurd (by decide) hheld
  all_goals rfl

/-- What a host write does to HAZ: set by a dropped one, cleared by a 1 written to it, otherwise kept (10_state.md R29;
20_memory.md R72; log 11). -/
theorem haz_hostWrite_cases (a d : Word) (be : BitVec 4) (s : State) :
    (hostWrite a d be s).status.haz = s.status.haz ∨
      ((hostWrite a d be s).status.haz = true ∧ s.status.busy = true ∧
        ((be = 0xF#4 ∧ ∃ r ∈ heldRegs, locOf s.params a = .reg r) ∨
          ∃ m j, locOf s.params a = .inWord m ∧ j ∈ inLanes s.params m be)) ∨
      ((hostWrite a d be s).status.haz = false ∧ be = 0xF#4 ∧ locOf s.params a = .reg .status ∧ d.getLsbD 3 = true) := by
  cases hloc : locOf s.params a with
  | reg r =>
    by_cases hbe : be = 0xF#4
    · subst hbe
      rw [hostWrite_reg hloc]
      by_cases hheld : r ∈ heldRegs
      · rw [haz_regWrite_held hheld]
        cases hbusy : s.status.busy
        · exact .inl (Bool.or_false _)
        · exact .inr (.inl ⟨Bool.or_true _, rfl, .inl ⟨rfl, r, hheld, rfl⟩⟩)
      by_cases hstatus : r = .status
      · subst hstatus
        rw [haz_regWrite_status]
        cases hbit : d.getLsbD 3
        · exact .inl (Bool.and_true _)
        · exact .inr (.inr ⟨Bool.and_false _, rfl, rfl, rfl⟩)
      · exact .inl (haz_regWrite_other hheld hstatus d s)
    · exact .inl (by simp [hostWrite, hloc, hbe])
  | inWord m =>
    cases hlanes : inLanes s.params m be with
    | nil => exact .inl (by simp [hostWrite, hloc, hlanes])
    | cons j js =>
      have hwrite : hostWrite a d be s = unlessBusy s (inWordWrite m d be s) := by simp [hostWrite, hloc, hlanes]
      rw [hwrite, haz_unlessBusy (by rw [inWordWrite_status])]
      cases hbusy : s.status.busy
      · exact .inl (Bool.or_false _)
      · exact .inr (.inl ⟨Bool.or_true _, rfl, .inr ⟨m, j, rfl, hlanes ▸ List.mem_cons_self⟩⟩)
  | outWord m => exact .inl (by simp [hostWrite, hloc])
  | counter k => exact .inl (by simp [hostWrite, hloc])
  | reserved => exact .inl (by simp [hostWrite, hloc])

theorem mem_inLanes {p : Params} {m j : Nat} {be : BitVec 4} :
    j ∈ inLanes p m be ↔ j < 4 ∧ be.getLsbD j = true ∧ 4 * m + j < p.inCapBytes := by
  simp [inLanes]

/-- Settles O54: a completion keeps HAZ, so only an input can change it; of the inputs a read keeps it. -/
theorem hazSetOnlyByDroppedWrite : Obligations.HazSetOnlyByDroppedWrite := by
  intro s t hstep hne
  rcases step_cases_frame hstep with ⟨u, rest, hturns, rfl⟩ | ⟨e, v, rfl, hframe⟩ | rfl
  · refine ⟨u, rest, hturns, ?_⟩
    cases hinput : u.input with
    | read a => simp [hinput, perform] at hne
    | reset => exact .inr ⟨by simp only [perform, assertReset_status]; rfl, .inl rfl⟩
    | write a d be =>
      rw [hinput] at hne
      rcases haz_hostWrite_cases a d be { s with turns := rest } with hkept | ⟨hset, hbusy, hdropped⟩ |
        ⟨hclear, rfl, hloc, hbit⟩
      · exact absurd hkept hne
      · refine .inl ⟨hset, hbusy, a, d, be, rfl, hdropped.imp_right ?_⟩
        rintro ⟨m, j, hloc, hj⟩
        obtain ⟨hlane, hstrobe, hcap⟩ := mem_inLanes.1 hj
        exact ⟨m, j, hloc, hlane, hstrobe, hcap⟩
      · exact .inr ⟨hclear, .inr ⟨a, d, rfl, hloc, hbit⟩⟩
  · exact absurd (congrArg Status.haz hframe.status) hne
  · exact absurd rfl hne

/-! ### IN_MEM -/

@[simp] theorem hostRead_inMem (a : Word) (s : State) : (hostRead a s).inMem = s.inMem := by
  rw [hostRead_eq]; split <;> rfl

@[simp] theorem writeMaxw_inMem (d : Word) (s : State) : (writeMaxw d s).inMem = s.inMem := by
  rcases writeMaxw_cases d s with ⟨m, -, -, h⟩ | h <;> rw [h]

/-- A host write leaves IN_MEM alone, or stores lanes of one word of it while no command runs. -/
theorem inMem_hostWrite_cases (a d : Word) (be : BitVec 4) (s : State) :
    (hostWrite a d be s).inMem = s.inMem ∨
      ∃ m, locOf s.params a = .inWord m ∧ s.status.busy = false ∧ hostWrite a d be s = inWordWrite m d be s := by
  rcases hostWrite_cases a d be s with h | ⟨-, h⟩ | ⟨r, -, -, hreg⟩ | hstore
  · exact .inl (by rw [h])
  · exact .inl (by rw [h, setHaz_inMem])
  · refine .inl ?_
    rcases hreg with ⟨-, h⟩ | ⟨-, h⟩ | ⟨-, ⟨-, h⟩ | ⟨-, h⟩ | ⟨-, h⟩ | ⟨-, h⟩ | ⟨-, h⟩ | ⟨-, h⟩⟩ <;> rw [h]
    · exact accept_inMem d s
    · exact writeMaxw_inMem d s
  · exact .inr hstore

/-- A strobed write changes only the lanes it reaches (20_memory.md R62, R65). -/
theorem inByte_inWordWrite_other {m k : Nat} {be : BitVec 4} {s : State}
    (hk : ∀ j ∈ inLanes s.params m be, k ≠ 4 * m + j) (d : Word) : (inWordWrite m d be s).inByte k = s.inByte k := by
  rw [State.inByte, inWordWrite_inMem, Memory.read_foldl_write_other Config.freeInByte (fun j => 4 * m + j) _ _ _ hk]
  rfl

/-- A byte that a strobed write changes is in a lane it reaches. -/
theorem exists_lane_of_inByte_ne {m k : Nat} {d : Word} {be : BitVec 4} {s : State}
    (hne : (inWordWrite m d be s).inByte k ≠ s.inByte k) : ∃ j ∈ inLanes s.params m be, k = 4 * m + j := by
  by_contra hnone
  exact hne (inByte_inWordWrite_other (fun j hj he => hnone ⟨j, hj, he⟩) d)

/-- Settles O55: completions keep IN_MEM, and of the inputs only a reset or a write to the byte's own lane can change
it. -/
theorem inMemChangesOnlyByHost : Obligations.InMemChangesOnlyByHost := by
  intro s t k hstep hne
  rcases step_cases_frame hstep with ⟨u, rest, hturns, rfl⟩ | ⟨e, v, rfl, hframe⟩ | rfl
  · refine ⟨u, rest, hturns, ?_⟩
    cases hinput : u.input with
    | read a =>
      rw [hinput] at hne
      exact absurd (inMemKept_of_eq (hostRead_inMem a { s with turns := rest }) k) hne
    | reset => exact .inl rfl
    | write a d be =>
      rw [hinput] at hne
      rcases inMem_hostWrite_cases a d be { s with turns := rest } with hkept | ⟨m, hloc, hidle, hstore⟩
      · exact absurd (inMemKept_of_eq (s := s) hkept k) hne
      · rw [perform, hstore] at hne
        obtain ⟨j, hj, rfl⟩ := exists_lane_of_inByte_ne hne
        obtain ⟨hlt, hstrobe, hcap⟩ := mem_inLanes.1 hj
        have hword : (4 * m + j) / 4 = m := by omega
        have hbyte : (4 * m + j) % 4 = j := by omega
        exact .inr ⟨hidle, a, d, be, rfl, by rw [hword]; exact hloc, by rw [hbyte]; exact hstrobe, hcap⟩
  · exact absurd (inMemKept_of_eq hframe.inMem k) hne
  · exact absurd rfl hne

end Sys2Proof.Machine
end

section
/-! PROOFS. The words of the byte memories (20_memory.md R65 to R68): byte lanes, bits, and the word an address names
(R61). -/

namespace Sys2Proof.Machine

/-- Byte `j` of a word, in arithmetic. -/
theorem toNat_byteOf (d : Word) (j : Nat) : (byteOf d j).toNat = d.toNat / 2 ^ (8 * j) % 2 ^ 8 := by
  rw [byteOf, BitVec.extractLsb'_toNat, Nat.shiftRight_eq_div_pow]

/-- Bit `i` of a word is bit `i mod 8` of its byte `i / 8`. -/
theorem getLsbD_byteOf (d : Word) (i : Nat) : (byteOf d (i / 8)).getLsbD (i % 8) = d.getLsbD i := by
  have hbit : i % 8 < 8 := Nat.mod_lt i (by decide)
  rw [byteOf, BitVec.getLsbD_extractLsb', decide_eq_true hbit, Bool.true_and, Nat.div_add_mod]

/-- Byte lane `j` of word `m` is byte `4m + j` (20_memory.md R65). -/
theorem byteOf_laneWord (cap : Nat) (byte : Nat → Byte) (m : Nat) {j : Nat} (hj : j < 4) :
    byteOf (laneWord cap byte m) j = laneByte cap byte (4 * m + j) := by
  have hlane : ∀ b3 b2 b1 b0 : Byte, byteOf (b3 ++ b2 ++ b1 ++ b0) 0 = b0 ∧ byteOf (b3 ++ b2 ++ b1 ++ b0) 1 = b1 ∧
      byteOf (b3 ++ b2 ++ b1 ++ b0) 2 = b2 ∧ byteOf (b3 ++ b2 ++ b1 ++ b0) 3 = b3 := by
    intro b3 b2 b1 b0
    simp only [← BitVec.toNat_inj, toNat_byteOf, toNat_append_eq_add]
    omega
  obtain ⟨h0, h1, h2, h3⟩ := hlane (laneByte cap byte (4 * m + 3)) (laneByte cap byte (4 * m + 2))
    (laneByte cap byte (4 * m + 1)) (laneByte cap byte (4 * m))
  obtain rfl | rfl | rfl | rfl : j = 0 ∨ j = 1 ∨ j = 2 ∨ j = 3 := by omega
  · exact h0
  · exact h1
  · exact h2
  · exact h3

/-- The value of byte lane `j` of word `m`, 0 past the capacity (20_memory.md R65, R66). -/
theorem toNat_lane_laneWord (cap : Nat) (byte : Nat → Byte) (m : Nat) {j : Nat} (hj : j < 4) :
    (laneWord cap byte m).toNat / 2 ^ (8 * j) % 2 ^ 8 = if 4 * m + j < cap then (byte (4 * m + j)).toNat else 0 := by
  rw [← toNat_byteOf, byteOf_laneWord cap byte m hj, laneByte]
  split <;> rfl

/-- Bit `k` of a packed array is bit `k mod 32` of its word `k / 32` (20_memory.md R68). -/
theorem packedBit_eq_laneWord {cap : Nat} (byte : Nat → Byte) {k : Nat} (hk : k < 8 * cap) :
    packedBit byte k = (laneWord cap byte (k / 32)).getLsbD (k % 32) := by
  have hlane : k % 32 / 8 < 4 := by omega
  have hbyte : 4 * (k / 32) + k % 32 / 8 = k / 8 := by omega
  have hbit : k % 32 % 8 = k % 8 := by omega
  have hcap : k / 8 < cap := by omega
  rw [← getLsbD_byteOf, byteOf_laneWord cap byte _ hlane, hbyte, hbit, laneByte, if_pos hcap, packedBit]

/-- Settles O47: IN_MEM and OUT_MEM are lane words of their bytes. -/
theorem bitsSitInWords : Obligations.BitsSitInWords :=
  ⟨fun s m _ hj => ⟨toNat_lane_laneWord _ s.inByte m hj, toNat_lane_laneWord _ s.outByte m hj⟩,
    fun s _ => ⟨packedBit_eq_laneWord s.inByte, packedBit_eq_laneWord s.outByte⟩, fun _ _ => rfl⟩

/-- Clearing bits [1:0] of an address keeps its word. -/
theorem word_of_aligned (a : Word) : (a &&& 0xFFFFFFFC#32).toNat / 4 = a.toNat / 4 := by
  have hbound : a.toNat / 2 ^ 2 < 2 ^ 30 := by have := a.isLt; omega
  have hmask : (0xFFFFFFFC#32).toNat >>> 2 = 2 ^ 30 - 1 := by decide
  calc (a &&& 0xFFFFFFFC#32).toNat / 4
      = (a.toNat &&& (0xFFFFFFFC#32).toNat) >>> 2 := by rw [BitVec.toNat_and, Nat.shiftRight_eq_div_pow]
    _ = a.toNat / 2 ^ 2 % 2 ^ 30 := by
        rw [Nat.shiftRight_and_distrib, hmask, Nat.and_two_pow_sub_one_eq_mod, Nat.shiftRight_eq_div_pow]
    _ = a.toNat / 4 := Nat.mod_eq_of_lt hbound

/-- The location of an address is that of its word (20_memory.md R61). -/
theorem locOf_aligned (p : Params) (a : Word) : locOf p (a &&& 0xFFFFFFFC#32) = locOf p a := by
  simp only [locOf, word_of_aligned]

/-- Settles O41: a transaction depends on its address through the location alone. -/
theorem addressBitsIgnored : Obligations.AddressBitsIgnored := by
  intro s a d be
  simp only [hostRead, hostWrite, locOf_aligned, and_self]

end Sys2Proof.Machine
end

section
/-! PROOFS. Host reads (20_memory.md R60, R63, R66, R71). -/

namespace Sys2Proof.Machine

variable {s : State} {a : Word}

/-- A read changes the port's last word and the count of draws alone (20_memory.md R63). -/
theorem hostRead_frame (a : Word) (s : State) : ∃ r d, hostRead a s = { s with rdata := r, draws := d } := by
  rw [hostRead_eq]
  split
  · exact ⟨_, _, rfl⟩
  · exact ⟨_, s.draws, rfl⟩

/-- Outside the write set of the command in flight a read returns the current value (20_memory.md R71). -/
theorem rdata_hostRead_of_not_written (h : inFlightWrites s (locOf s.params a) = false) :
    (hostRead a s).rdata = locRead s (locOf s.params a) := by
  simp [hostRead_eq, h]

/-- No location is being written while no command runs, while an illegal word runs, and while a command runs whose write
set does not hold it (20_memory.md R71). -/
theorem inFlightWrites_eq_false {l : Loc} (h : s.status.busy = false ∨ (∃ why, decode s.cmd = .error why) ∨
    ∃ i, decode s.cmd = .ok i ∧ writeSet i l = false) : inFlightWrites s l = false := by
  rcases h with hidle | ⟨why, hillegal⟩ | ⟨i, hcmd, hset⟩
  · simp [inFlightWrites, hidle]
  · simp [inFlightWrites, fetchWord, hillegal, Except.toOption]
  · simp [inFlightWrites, fetchWord, hcmd, hset, Except.toOption]

theorem inFlightWrites_eq_true {i : Instr} {l : Loc} (hbusy : s.status.busy = true) (hcmd : decode s.cmd = .ok i)
    (hset : writeSet i l = true) : inFlightWrites s l = true := by
  simp [inFlightWrites, fetchWord, hbusy, hcmd, hset, Except.toOption]

/-- What a location holds does not depend on the port's last word or on the count of draws. -/
theorem locRead_of_port (s : State) (r : Word) (d : Nat) (l : Loc) :
    locRead { s with rdata := r, draws := d } l = locRead s l := by
  cases l with
  | reg reg => cases reg <;> rfl
  | inWord | outWord | counter | reserved => rfl

/-- A read after a read returns the value the location had before both, where no command writes it. -/
theorem rdata_hostRead_hostRead (h : inFlightWrites s (locOf s.params a) = false) (a' : Word) :
    (hostRead a (hostRead a' s)).rdata = locRead s (locOf s.params a) := by
  obtain ⟨r, d, hread⟩ := hostRead_frame a' s
  rw [hread]
  exact (rdata_hostRead_of_not_written (s := { s with rdata := r, draws := d }) h).trans (locRead_of_port s r d _)

/-- Settles O44: a read changes neither what a later read depends on, nor anything else of the block. -/
theorem readsHaveNoSideEffect : Obligations.ReadsHaveNoSideEffect := by
  refine fun s a => ⟨?_, fun h => ?_⟩
  · obtain ⟨r, d, hread⟩ := hostRead_frame a s
    rw [hread]
  · have hquiet := inFlightWrites_eq_false h
    have hvalue := rdata_hostRead_of_not_written hquiet
    exact ⟨hvalue, fun a' => (rdata_hostRead_hostRead hquiet a').trans hvalue.symm⟩

/-- STATUS, CMD and IN_MEM are in no command's write set (20_memory.md R71). -/
theorem writeSet_status_cmd_inWord {l : Loc} (hl : l = .reg .status ∨ l = .reg .cmd ∨ ∃ m, l = .inWord m) (i : Instr) :
    writeSet i l = false := by
  rcases hl with rfl | rfl | ⟨m, rfl⟩ <;> cases i <;> simp [writeSet, searchWrites, outputWrites]

theorem writeSet_reserved (i : Instr) : writeSet i .reserved = false := by
  cases i <;> simp [writeSet, searchWrites, outputWrites]

/-- A location in no command's write set is written by no command in flight. -/
theorem inFlightWrites_of_never {l : Loc} (hl : ∀ i, writeSet i l = false) (s : State) : inFlightWrites s l = false := by
  refine inFlightWrites_eq_false (.inr ?_)
  cases hcmd : decode s.cmd with
  | error why => exact .inl ⟨why, rfl⟩
  | ok i => exact .inr ⟨i, rfl, hl i⟩

/-- A read of the write set of the command in flight draws a free value (20_memory.md R71; log 8). -/
theorem hostRead_of_written (h : inFlightWrites s (locOf s.params a) = true) :
    hostRead a s = { s with rdata := unspecifiedRead s s.draws (locOf s.params a), draws := s.draws + 1 } := by
  rw [hostRead_eq, if_pos h]

/-- The lanes of an UNSPECIFIED word of OUT_MEM: those of the free value, 0 past the capacity (20_memory.md R66; log 8). -/
theorem lane_unspecifiedRead_outWord (s : State) (d m : Nat) {j : Nat} (hj : j < 4) :
    (unspecifiedRead s d (.outWord m)).toNat / 2 ^ (8 * j) % 2 ^ 8 =
      if 4 * m + j < s.params.outBytes then (Config.freeRead d).toNat / 2 ^ (8 * j) % 2 ^ 8 else 0 := by
  have hlane : (4 * m + j) % 4 = j := by omega
  rw [unspecifiedRead, toNat_lane_laneWord _ _ m hj, hlane, toNat_byteOf]

/-- Settles O45: a read in the write set draws a free word, and STATUS, CMD and IN_MEM are in none. -/
theorem busyReadsAreUnspecified : Obligations.BusyReadsAreUnspecified := by
  refine ⟨fun s a i hbusy hcmd hset => ?_,
    fun s a hl => rdata_hostRead_of_not_written (inFlightWrites_of_never (writeSet_status_cmd_inWord hl) s)⟩
  rw [hostRead_of_written (inFlightWrites_eq_true hbusy hcmd hset)]
  refine ⟨rfl, fun r hloc => ?_, fun k hloc => ?_, fun m hloc j hj => ?_⟩ <;> simp only [hloc]
  · rfl
  · rfl
  · exact lane_unspecifiedRead_outWord s s.draws m hj

end Sys2Proof.Machine
end
section
/-! PROOFS. Host writes: the acceptance of a command (20_memory.md R70), the bytes stored in IN_MEM (R62, R65), writes
dropped while busy (R72) and writes ignored (R62, R64, R66, R67). -/

namespace Sys2Proof.Machine

variable {s : State} {a : Word}

/-! ### Acceptance -/

/-- A legal word has the fixed bits of its row (30_encoding.md R93, R95). -/
theorem row_of_decode {c : Word} {i : Instr} (h : decode c = .ok i) : c &&& rowMask i = rowMatch i := by
  have hrow : ∀ j, decodeRow c j = .ok i → c &&& rowMask i = rowMatch i := by
    intro j hj
    obtain rfl := decodeRow_ok hj
    by_contra hne
    simp [decodeRow, hne] at hj
  unfold decode at h
  split at h
  case h_8 => cases h
  all_goals exact hrow _ h

theorem and_fullMask (c : Word) : c &&& 0xFFFFFFFF#32 = c := BitVec.and_allOnes

theorem decode_eq_escsearch {c : Word} : decode c = .ok .escsearch ↔ c = 0x00000004#32 := by
  refine ⟨fun h => ?_, fun h => by subst h; decide⟩
  exact (and_fullMask c).symm.trans (row_of_decode h)

theorem decode_eq_vicsearch {c : Word} : decode c = .ok .vicsearch ↔ c = 0x00000005#32 := by
  refine ⟨fun h => ?_, fun h => by subst h; decide⟩
  exact (and_fullMask c).symm.trans (row_of_decode h)

/-- The legal search words are those of the two search rows (20_memory.md R70; 30_encoding.md R93). -/
theorem isSearchWord_eq (c : Word) :
    isSearchWord c = (decide (c = 0x00000004#32) || decide (c = 0x00000005#32)) := by
  simp only [← decode_eq_escsearch, ← decode_eq_vicsearch, isSearchWord]
  cases decode c with
  | error why => simp
  | ok i => cases i <;> simp

/-- Settles O9: CMD is the register at offset 0x018, and an idle write to it is the acceptance of the word. -/
theorem acceptanceWrites : Obligations.AcceptanceWrites := by
  intro s a c hword hidle
  have hoffset : Reg.offset .cmd = 0x018 := by decide
  have hloc : locOf s.params a = .reg .cmd := locOf_reg (by omega) (by omega)
  rw [hostWrite_reg hloc, regWrite, unlessBusy_idle hidle, accept, isSearchWord_eq, Status.accept]

/-! ### Writes to IN_MEM -/

theorem hostWrite_inWord_strobed {m j : Nat} {be : BitVec 4} (hloc : locOf s.params a = .inWord m)
    (hj : j ∈ inLanes s.params m be) (d : Word) : hostWrite a d be s = unlessBusy s (inWordWrite m d be s) := by
  have hlanes : inLanes s.params m be ≠ [] := List.ne_nil_of_mem hj
  simp [hostWrite, hloc, hlanes]

theorem hostWrite_inWord_idle {m : Nat} (hloc : locOf s.params a = .inWord m) (hidle : s.status.busy = false)
    (d : Word) (be : BitVec 4) : hostWrite a d be s = inWordWrite m d be s := by
  cases hlanes : inLanes s.params m be with
  | nil => simp [hostWrite, hloc, hlanes, inWordWrite]
  | cons j js => rw [hostWrite_inWord_strobed hloc (hlanes ▸ List.mem_cons_self), unlessBusy_idle hidle]

/-- A strobed lane that exists takes its byte of the word (20_memory.md R62, R65). -/
theorem inByte_inWordWrite_same {m j : Nat} {be : BitVec 4} (hwf : s.inMem.wf) (hj : j ∈ inLanes s.params m be)
    (d : Word) : (inWordWrite m d be s).inByte (4 * m + j) = byteOf d j :=
  Memory.read_foldl_write_same Config.freeInByte (fun j => 4 * m + j) (byteOf d)
    (fun _ _ he => congrArg (byteOf d) (Nat.add_left_cancel he)) _ hwf hj

/-- Settles O46: an idle write stores the lanes of `inLanes` in IN_MEM and is no write to anything else. -/
theorem inMemWriteStoresLanes : Obligations.InMemWriteStoresLanes := by
  intro s a d be m hwf hidle hloc
  rw [hostWrite_inWord_idle hloc hidle]
  refine ⟨fun j hj hstrobe hcap => ?_, fun k hk => inByte_inWordWrite_other (fun j hj => ?_) d,
    regsKept_inWordWrite m d be s, outMemKept_of_eq rfl, histMemKept_of_eq rfl⟩
  · rw [inByte_inWordWrite_same hwf (mem_inLanes.2 ⟨hj, hstrobe, hcap⟩), toNat_byteOf]
  · obtain ⟨hlane, hstrobe, hcap⟩ := mem_inLanes.1 hj
    exact hk j hlane hstrobe hcap

/-! ### Dropped and ignored writes -/

theorem unlessBusy_busy (h : s.status.busy = true) (s' : State) : unlessBusy s s' = setHaz s := by simp [unlessBusy, h]

/-- A write to a held register while a command runs is dropped and sets HAZ (20_memory.md R72). -/
theorem regWrite_held_busy {r : Reg} (hr : r ∈ heldRegs) (hbusy : s.status.busy = true) (d : Word) :
    regWrite d s r = setHaz s := by
  simp only [heldRegs, List.mem_cons, List.not_mem_nil, or_false] at hr
  rcases hr with rfl | rfl | rfl | rfl | rfl | rfl <;> exact unlessBusy_busy hbusy _

/-- Settles O48: a held register and a strobed byte that exists are written through `unlessBusy`. -/
theorem busyWritesDropped : Obligations.BusyWritesDropped :=
  ⟨fun _ _ d _ hbusy hloc hr => (hostWrite_reg hloc d).trans (regWrite_held_busy hr hbusy d),
    fun _ _ d _ _ _ hbusy hloc hj hstrobe hcap =>
      (hostWrite_inWord_strobed hloc (mem_inLanes.2 ⟨hj, hstrobe, hcap⟩) d).trans (unlessBusy_busy hbusy _)⟩

/-- A read-only register ignores a write (10_state.md R23). -/
theorem regWrite_readOnly {r : Reg} (hr : r ∉ .ctrl :: .status :: heldRegs) (d : Word) (s : State) :
    regWrite d s r = s := by
  cases r
  case ctrl | status | cmd | maxw | inNbytes | argIndex | valA | valB => exact absurd (by decide) hr
  all_goals rfl

/-- Settles O43: outside IN_MEM only a full-strobe write to a writable register has an effect. -/
theorem ignoredWrites : Obligations.IgnoredWrites := by
  refine ⟨fun s a hloc => ?_, fun s a d be hignored => ?_⟩
  · have hquiet : inFlightWrites s (locOf s.params a) = false :=
      inFlightWrites_of_never (hloc ▸ writeSet_reserved) s
    rw [rdata_hostRead_of_not_written hquiet, hloc, locRead]
  · cases hloc : locOf s.params a with
    | reg r =>
      simp only [hloc] at hignored
      by_cases hbe : be = 0xF#4
      · subst hbe
        rw [hostWrite_reg hloc]
        exact regWrite_readOnly (hignored.resolve_right (not_not_intro rfl)) d s
      · simp [hostWrite, hloc, hbe]
    | inWord m => simp [hloc] at hignored
    | outWord m => simp [hostWrite, hloc]
    | counter k => simp [hostWrite, hloc]
    | reserved => simp [hostWrite, hloc]

end Sys2Proof.Machine
end
section
/-! PROOFS. Steps with a command in flight: its completion within its write set (20_memory.md R71; 60_exceptions.md R180),
its end at last (R229), and what stays as it is until then (R72, R73). -/

namespace Sys2Proof.Machine

/-! ### Every step answers a next state -/

theorem exec_next (i : Instr) (s : State) : ∃ t, exec i s = .next t := by
  cases i with
  | nop => exact ⟨_, rfl⟩
  | load => simp only [exec, execLoad]; split <;> exact ⟨_, rfl⟩
  | getbit src => simp only [exec, execGetbit]; split <;> exact ⟨_, rfl⟩
  | hist w => simp only [exec, execHist]; split <;> exact ⟨_, rfl⟩
  | escsearch => simp only [exec, execEscsearch]; split <;> exact ⟨_, rfl⟩
  | vicsearch =>
    simp only [exec, execVicsearch]
    split
    · exact ⟨_, rfl⟩
    · split <;> exact ⟨_, rfl⟩
  | encode vw rw =>
    simp only [exec, execEncode]
    split
    · split
      · split <;> exact ⟨_, rfl⟩
      · exact ⟨_, rfl⟩
    · exact ⟨_, rfl⟩

theorem engineStep_next (s : State) : ∃ t, engineStep s = .next t := by
  unfold engineStep
  cases decode (fetchWord s) with
  | ok i => exact exec_next i s
  | error why => exact ⟨_, rfl⟩

/-- Settles O8: an input, the engine's completion and the idle step each answer a next state. -/
theorem everyStepHasNextState : Obligations.EveryStepHasNextState := by
  intro s
  unfold step
  cases dueInput s with
  | some due => exact ⟨_, rfl⟩
  | none =>
    cases hbusy : s.status.busy with
    | true => exact engineStep_next s
    | false => exact ⟨s, rfl⟩

/-- Settles O10: `exec_eq_complete` at the state that `exec_next` gives. -/
theorem everyCommandCompletes : Obligations.EveryCommandCompletes := by
  intro i s
  obtain ⟨t, hexec⟩ := exec_next i s
  obtain ⟨e, u, rfl, hframe⟩ := exec_eq_complete hexec
  exact ⟨e, _, hexec, congrArg (Status.complete e) hframe.status, hframe.cmd, hframe.ie, hframe.maxw, hframe.inNbytes,
    hframe.argIndex, hframe.valA, hframe.valB, hframe.inMem, hframe.params, hframe.turns, hframe.rdata⟩

/-! ### The write sets -/

/-- Settles O14: the table has no operand in it, so each row is evaluated. -/
theorem writeSetTable : Obligations.WriteSetTable := by
  refine ⟨⟨rfl, fun k => ?_⟩, ⟨by decide, fun k => ?_⟩, fun src => ⟨rfl, fun k => ?_⟩, fun w => ⟨rfl, fun k => ?_⟩,
    ⟨by decide, fun k => ?_⟩, ⟨by decide, fun k => ?_⟩, fun vw rw => ⟨rfl, fun k => ?_⟩⟩ <;>
  simp [writeSet, searchWrites, outputWrites]

/-- `t` keeps of `s` all that is outside the write set of `i`, but STATUS (20_memory.md R71). -/
structure WriteSetKept (i : Instr) (s t : State) : Prop where
  regs : ∀ r, writeSet i (.reg r) = false → r ≠ .status → regRead t r = regRead s r
  outMem : ∀ m, writeSet i (.outWord m) = false → t.outMem = s.outMem
  histMem : ∀ k, writeSet i (.counter k) = false → t.histMem = s.histMem

section
variable {i : Instr} {s u : State}

/-- A completion with results in the registers `W`, all in the write set. -/
theorem writeSetKept_complete (e : ErrorCode) {W : List Reg} (hregs : RegsKept W s u)
    (hW : ∀ r ∈ W, writeSet i (.reg r) = true) (hout : ∀ m, writeSet i (.outWord m) = false → u.outMem = s.outMem)
    (hhist : ∀ k, writeSet i (.counter k) = false → u.histMem = s.histMem) : WriteSetKept i s (complete e u) where
  regs r hr hne := by
    have hnot : r ∉ W := fun hmem => by simp [hW r hmem] at hr
    rw [regsKept_complete e u r (by simpa using hne), hregs r hnot]
  outMem := hout
  histMem := hhist

/-- A completion with no result. -/
theorem writeSetKept_error (i : Instr) (e : ErrorCode) (s : State) : WriteSetKept i s (complete e s) :=
  writeSetKept_complete e (W := []) (fun _ _ => rfl) nofun (fun _ _ => rfl) fun _ _ => rfl

theorem regsKept_inLen (n : Word) (s : State) : RegsKept [.inLen] s { s with inLen := n } := by
  intro r hr
  cases r
  case inLen => exact absurd (by decide) hr
  all_goals rfl

theorem regsKept_resultBit (b : Bool) (s : State) : RegsKept [.resultBit] s { s with resultBit := b } := by
  intro r hr
  cases r
  case resultBit => exact absurd (by decide) hr
  all_goals rfl

/-- VICSEARCH's results: Mode A's, an output or none, and the candidate (42_width_selector.md R150, R152). -/
theorem writeSetKept_vicsearch (e : ErrorCode) (a : ModeA) (c : Option Candidate)
    (hu : RegsKept [.outLen, .matchCount, .delta] (putModeA a s) u) :
    WriteSetKept .vicsearch s (complete e (putCandidate c u)) := by
  have hmodeA : RegsKept [.histW, .escW, .escVal, .bestW, .bestVal, .bestCount, .outLen, .matchCount, .delta] s u :=
    (regsKept_putModeA a s).trans hu (by decide) (by decide)
  have hall : RegsKept [.histW, .escW, .escVal, .bestW, .bestVal, .bestCount, .outLen, .matchCount, .delta, .vicW,
      .vicVal, .closestDelta] s (putCandidate c u) :=
    hmodeA.trans (regsKept_putCandidate c u) (by decide) (by decide)
  exact writeSetKept_complete e hall (by decide) nofun nofun

end

/-- Every completion stays within its command's write set (20_memory.md R71). -/
theorem exec_writeSetKept {i : Instr} {s t : State} (h : exec i s = .next t) : WriteSetKept i s t := by
  cases i with
  | nop =>
    obtain rfl := Host.Outcome.next.inj h
    exact writeSetKept_error _ _ s
  | load =>
    rcases exec_cases h with ⟨-, rfl⟩ | ⟨-, rfl⟩
    · exact writeSetKept_error _ _ s
    · exact writeSetKept_complete _ (regsKept_inLen _ s) (by decide) (fun _ _ => rfl) fun _ _ => rfl
  | getbit src =>
    rcases exec_cases h with ⟨-, rfl⟩ | ⟨-, rfl⟩
    · exact writeSetKept_error _ _ s
    · exact writeSetKept_complete _ (regsKept_resultBit _ s) (by simp [writeSet]) (fun _ _ => rfl) fun _ _ => rfl
  | hist w =>
    rcases exec_cases h with ⟨-, rfl⟩ | ⟨-, rfl⟩
    · exact writeSetKept_complete _ (regsKept_putHist w _ s) (by simp [writeSet]) (fun _ _ => rfl) nofun
    · exact writeSetKept_error _ _ s
  | escsearch =>
    rcases exec_cases h with ⟨-, rfl⟩ | ⟨-, rfl⟩ <;>
      exact writeSetKept_complete _ (regsKept_putModeA _ s) (by decide) (fun _ _ => rfl) nofun
  | vicsearch =>
    rcases exec_cases h with ⟨-, rfl⟩ | ⟨_, -, ⟨_, _, _, -, rfl⟩ | ⟨_, -, rfl⟩⟩
    · exact writeSetKept_vicsearch _ s.modeA _ fun _ _ => rfl
    · exact writeSetKept_vicsearch _ s.modeA _ (regsKept_putImage _ _ _)
    · exact writeSetKept_vicsearch _ s.modeA _ (regsKept_putOriginal _)
  | encode vw rw =>
    have houtput : ∀ r ∈ [Reg.outLen, .matchCount, .delta], writeSet (.encode vw rw) (.reg r) = true := by
      simp [writeSet, outputWrites]
    rcases exec_cases h with ⟨-, rfl⟩ | ⟨-, ⟨-, rfl⟩ | ⟨-, _, -, ⟨-, rfl⟩ | ⟨-, rfl⟩⟩⟩
    · exact writeSetKept_error _ _ s
    · exact writeSetKept_error _ _ s
    · exact writeSetKept_complete _ (regsKept_putTooLong s) houtput nofun fun _ _ => rfl
    · exact writeSetKept_complete _ (regsKept_putImage _ _ s) houtput nofun fun _ _ => rfl

/-- What a location holds, by what it depends on. -/
theorem locRead_kept {s t : State} {l : Loc} (hparams : t.params = s.params) (hin : InMemKept s t)
    (hreg : ∀ r, l = .reg r → regRead t r = regRead s r) (hout : ∀ m, l = .outWord m → OutMemKept s t)
    (hhist : ∀ k, l = .counter k → HistMemKept s t) : locRead t l = locRead s l := by
  cases l with
  | reg r => exact hreg r rfl
  | inWord m => rw [locRead, locRead, hparams, funext hin]
  | outWord m => rw [locRead, locRead, hparams, funext (hout m rfl)]
  | counter k => exact hhist k rfl k
  | reserved => rfl

/-- Settles O13: command by command in `exec_writeSetKept`; IN_MEM and the build by the frame of every completion. -/
theorem writeSetFrame : Obligations.WriteSetFrame := by
  intro i s t hexec
  obtain ⟨hregs, hout, hhist⟩ := exec_writeSetKept hexec
  obtain ⟨e, u, rfl, hframe⟩ := exec_eq_complete hexec
  have hin : InMemKept s (complete e u) := inMemKept_of_eq hframe.inMem
  refine ⟨fun l hl hne => locRead_kept hframe.params hin ?_ ?_ ?_, hin,
    fun h => outMemKept_of_eq (hout 0 (h 0)), fun h => histMemKept_of_eq (hhist 0 (h 0))⟩
  · rintro r rfl; exact hregs r hl fun hr => hne (congrArg Loc.reg hr)
  · rintro m rfl; exact outMemKept_of_eq (hout m hl)
  · rintro k rfl; exact histMemKept_of_eq (hhist k hl)

/-! ### What an input changes while a command is in flight -/

/-- `t` differs from `s` only in what a host transaction can change while a command runs: CTRL, STATUS, the count of
draws and the port's last word (20_memory.md R72, R73; log 12). -/
def HeldWhileBusy (s t : State) : Prop :=
  ∃ ie status draws rdata, t = { s with ie := ie, status := status, draws := draws, rdata := rdata }

theorem heldWhileBusy_hostRead (a : Word) (s : State) : HeldWhileBusy s (hostRead a s) := by
  obtain ⟨r, d, h⟩ := hostRead_frame a s
  exact ⟨_, _, _, _, h⟩

theorem heldWhileBusy_hostWrite {s : State} (hbusy : s.status.busy = true) (a d : Word) (be : BitVec 4) :
    HeldWhileBusy s (hostWrite a d be s) := by
  rcases hostWrite_cases a d be s with h | ⟨-, h⟩ | ⟨r, -, -, ⟨-, h⟩ | ⟨-, h⟩ | ⟨hidle, -⟩⟩ | ⟨m, -, hidle, -⟩
  · exact ⟨_, _, _, _, h⟩
  · exact ⟨_, _, _, _, h⟩
  · exact ⟨_, _, _, _, h⟩
  · exact ⟨_, _, _, _, h⟩
  · simp [hbusy] at hidle
  · simp [hbusy] at hidle

/-- A step that leaves a command in flight is a host transaction: completions and resets end the command. -/
theorem step_heldWhileBusy {s t : State} (hstep : step s = .next t) (hs : s.status.busy = true)
    (ht : t.status.busy = true) : ∃ u rest, s.turns = u :: rest ∧ HeldWhileBusy { s with turns := rest } t := by
  rcases step_cases hstep with ⟨u, rest, hturns, -, rfl⟩ | ⟨-, i, -, hexec⟩ | ⟨-, -, rfl⟩ | ⟨hidle, -, -⟩
  · refine ⟨u, rest, hturns, ?_⟩
    cases hinput : u.input with
    | read a => exact heldWhileBusy_hostRead a _
    | write a d be => exact heldWhileBusy_hostWrite (s := { s with turns := rest }) hs a d be
    | reset => rw [hinput] at ht; cases ht
  · obtain ⟨e, v, rfl, -⟩ := exec_eq_complete hexec
    cases ht
  · cases ht
  · simp [hs] at hidle

/-- Settles O49: `HeldWhileBusy`, field by field. -/
theorem operandsFrozenWhileBusy : Obligations.OperandsFrozenWhileBusy := by
  intro s t hstep hs ht
  obtain ⟨u, rest, -, ie, status, draws, rdata, rfl⟩ := step_heldWhileBusy hstep hs ht
  refine ⟨rfl, rfl, rfl, rfl, rfl, rfl, rfl, rfl, fun r hr => ?_, fun _ => rfl, fun _ => rfl, fun _ => rfl⟩
  cases r
  case ctrl | status => exact absurd (by decide) hr
  all_goals rfl

/-! ### A command in flight ends -/

theorem run_succ (M : Host.Core) {s t : M.State} (h : M.step s = .next t) (k : Nat) : M.run (k + 1) s = M.run k t := by
  rw [Host.Core.run, h]

/-- A step takes one pending input from a command in flight, or ends it. -/
theorem run_ends {ts : List Turn} {s : State} (hturns : s.turns = ts) (hbusy : s.status.busy = true) :
    ∃ k t, k ≤ ts.length + 1 ∧ Host.Core.run Sys2Proof.core k s = .next t ∧ t.status.busy = false := by
  induction ts generalizing s with
  | nil =>
    obtain ⟨t, hstep⟩ := everyStepHasNextState s
    refine ⟨1, t, le_rfl, run_succ Sys2Proof.core hstep 0, Bool.eq_false_iff.2 fun ht => ?_⟩
    obtain ⟨u, rest, hcons, -⟩ := step_heldWhileBusy hstep hbusy ht
    simp [hturns] at hcons
  | cons u ts ih =>
    obtain ⟨t, hstep⟩ := everyStepHasNextState s
    cases ht : t.status.busy with
    | false => exact ⟨1, t, by omega, run_succ Sys2Proof.core hstep 0, ht⟩
    | true =>
      obtain ⟨v, rest, hcons, ie, status, draws, rdata, rfl⟩ := step_heldWhileBusy hstep hbusy ht
      obtain ⟨-, rfl⟩ := List.cons.inj (hturns.symm.trans hcons)
      obtain ⟨k, t, hk, hrun, hidle⟩ := ih rfl ht
      exact ⟨k + 1, t, Nat.succ_le_succ hk, (run_succ Sys2Proof.core hstep k).trans hrun, hidle⟩

/-- Settles O16: by induction on the pending inputs. -/
theorem commandInFlightEnds : Obligations.CommandInFlightEnds := fun _ hbusy => run_ends rfl hbusy

end Sys2Proof.Machine
end

section
/-! PROOFS. The command word: what the decoder reads from a word, the word of a command, and that the two agree
(30_encoding.md R91 to R96). -/

namespace Sys2Proof

/-! ### Fields of a word -/

theorem fieldWa_eq (c : Word) : fieldWa c = c.toNat / 2 ^ 8 % 2 ^ 6 := by
  rw [fieldWa, BitVec.extractLsb'_toNat, Nat.shiftRight_eq_div_pow]

theorem fieldWb_eq (c : Word) : fieldWb c = c.toNat / 2 ^ 16 % 2 ^ 6 := by
  rw [fieldWb, BitVec.extractLsb'_toNat, Nat.shiftRight_eq_div_pow]

/-- The command of `i`'s row with the operands that the word `c` carries (30_encoding.md R93). -/
def withFields (c : Word) : Instr → Instr
  | .nop => .nop
  | .load => .load
  | .getbit _ => .getbit (fieldSrc c)
  | .hist _ => .hist (fieldWa c)
  | .escsearch => .escsearch
  | .vicsearch => .vicsearch
  | .encode _ _ => .encode (fieldWa c) (fieldWb c)

@[simp] theorem rowMask_withFields (c : Word) (i : Instr) : rowMask (withFields c i) = rowMask i := by
  cases i <;> rfl

@[simp] theorem rowMatch_withFields (c : Word) (i : Instr) : rowMatch (withFields c i) = rowMatch i := by
  cases i <;> rfl

/-! ### What the decoder answers -/

/-- Every row fixes the whole of OP (30_encoding.md R93). -/
theorem fieldOp_and_rowMask (c : Word) (i : Instr) : fieldOp (c &&& rowMask i) = fieldOp c := by
  have hop : (rowMask i).extractLsb' 0 4 = BitVec.allOnes 4 := by cases i <;> rw [rowMask] <;> decide
  rw [fieldOp, BitVec.extractLsb'_and, hop, BitVec.and_allOnes, fieldOp]

/-- OP alone selects the row. -/
theorem decode_eq_decodeRow {c : Word} {i : Instr} (hop : fieldOp c = fieldOp (rowMatch i)) :
    decode c = decodeRow c (withFields c i) := by
  unfold decode
  rw [hop]
  cases i <;> rfl

/-- A word with the fixed bits of a row decodes to that row's command. -/
theorem decode_of_row {c : Word} {i : Instr} (hrow : c &&& rowMask i = rowMatch i) :
    decode c = .ok (withFields c i) := by
  have hop : fieldOp c = fieldOp (rowMatch i) := by rw [← hrow, fieldOp_and_rowMask]
  rw [decode_eq_decodeRow hop, decodeRow, rowMask_withFields, rowMatch_withFields, if_pos hrow]

theorem decode_eq_ok_iff {c : Word} {i : Instr} :
    decode c = .ok i ↔ c &&& rowMask i = rowMatch i ∧ i = withFields c i := by
  constructor
  · intro h
    have hrow := Machine.row_of_decode h
    exact ⟨hrow, Except.ok.inj (h.symm.trans (decode_of_row hrow))⟩
  · rintro ⟨hrow, hfields⟩
    rw [decode_of_row hrow, ← hfields]

/-- A word is illegal exactly when it matches no row (30_encoding.md R94). -/
theorem decode_error_iff {c : Word} : (∃ why, decode c = .error why) ↔ ∀ i, c &&& rowMask i ≠ rowMatch i := by
  constructor
  · rintro ⟨why, h⟩ i hrow
    cases h.symm.trans (decode_of_row hrow)
  · intro hnone
    cases h : decode c with
    | ok i => exact absurd (Machine.row_of_decode h) (hnone i)
    | error why => exact ⟨why, rfl⟩

/-! ### The word of a command -/

theorem ofNat_shiftLeft (w n : Nat) : BitVec.ofNat 32 w <<< n = BitVec.ofNat 32 (w <<< n) := by
  apply BitVec.eq_of_toNat_eq
  simp [BitVec.toNat_shiftLeft, Nat.shiftLeft_eq]

/-- A width placed above the bits of the word so far is a sum: no bit is in both. -/
theorem ofNat_or_shiftLeft {x n : Nat} (hx : x < 2 ^ n) (w : Nat) :
    BitVec.ofNat 32 x ||| (BitVec.ofNat 32 w <<< n) = BitVec.ofNat 32 (x + w * 2 ^ n) := by
  rw [ofNat_shiftLeft, ← BitVec.ofNat_or, Nat.or_comm, ← Nat.shiftLeft_add_eq_or_of_lt hx, Nat.shiftLeft_eq,
    Nat.add_comm]

theorem wellFormed_hist {w : Nat} : (Instr.hist w).wellFormed = true ↔ w ≤ 63 := decide_eq_true_iff

theorem wellFormed_encode {vw rw : Nat} : (Instr.encode vw rw).wellFormed = true ↔ vw ≤ 63 ∧ rw ≤ 63 := by
  simp [Instr.wellFormed]

theorem encode_hist (w : Nat) : encode (.hist w) = BitVec.ofNat 32 (3 + w * 2 ^ 8) :=
  ofNat_or_shiftLeft (by decide) w

theorem encode_encode {vw : Nat} (hvw : vw ≤ 63) (rw : Nat) :
    encode (.encode vw rw) = BitVec.ofNat 32 (6 + vw * 2 ^ 8 + rw * 2 ^ 16) := by
  have hlow : 6 + vw * 2 ^ 8 < 2 ^ 16 := by omega
  rw [encode, ofNat_or_shiftLeft (by decide), ofNat_or_shiftLeft hlow]

theorem row_encode {i : Instr} (hi : i.wellFormed = true) : encode i &&& rowMask i = rowMatch i := by
  cases i with
  | nop => exact Laws.RowBits.nop hi
  | load => exact Laws.RowBits.load hi
  | getbit src => exact Laws.RowBits.getbit src hi
  | hist w => exact Laws.RowBits.hist w hi
  | escsearch => exact Laws.RowBits.escsearch hi
  | vicsearch => exact Laws.RowBits.vicsearch hi
  | encode vw rw => exact Laws.RowBits.encode vw rw hi

theorem withFields_encode {i : Instr} (hi : i.wellFormed = true) : withFields (encode i) i = i := by
  cases i with
  | nop | load | escsearch | vicsearch => rfl
  | getbit src => cases src <;> rfl
  | hist w =>
    have hw := wellFormed_hist.1 hi
    have hwa : fieldWa (encode (.hist w)) = w := by
      rw [encode_hist, fieldWa_eq, BitVec.toNat_ofNat]; omega
    rw [withFields, hwa]
  | encode vw rw =>
    obtain ⟨hvw, hrw⟩ := wellFormed_encode.1 hi
    have hwa : fieldWa (encode (.encode vw rw)) = vw := by
      rw [encode_encode hvw, fieldWa_eq, BitVec.toNat_ofNat]; omega
    have hwb : fieldWb (encode (.encode vw rw)) = rw := by
      rw [encode_encode hvw, fieldWb_eq, BitVec.toNat_ofNat]; omega
    rw [withFields, hwa, hwb]

/-- Settles O1: the word has its row's fixed bits and carries the operands. -/
theorem decodeOfEncode : Obligations.DecodeOfEncode := fun _ hi =>
  decode_eq_ok_iff.2 ⟨row_encode hi, (withFields_encode hi).symm⟩

/-! ### The command of a word -/

theorem srcBit_fieldSrc (c : Word) : srcBit (fieldSrc c) = c &&& 0x00000010#32 := by
  rw [show 0x00000010#32 = BitVec.twoPow 32 4 from rfl, BitVec.and_twoPow, fieldSrc]
  cases c.getLsbD 4 <;> rfl

/-- A field taken out of a word and put back at its place is the word's bits of the field. -/
theorem ofNat_extractLsb'_shiftLeft (c : Word) (n k : Nat) :
    BitVec.ofNat 32 (c.extractLsb' n k).toNat <<< n = c &&& ((BitVec.allOnes k).setWidth 32 <<< n) := by
  rw [BitVec.ofNat_toNat]
  ext j hj
  by_cases hn : j < n
  · simp [hn]
  · have hj' : n + (j - n) = j := by omega
    simp [hn, hj', hj, Bool.and_comm]

/-- The word of the command that `c` carries in a row: the row's fixed bits, and the bits of `c` that the row leaves
free. -/
theorem encode_withFields (c : Word) (i : Instr) : encode (withFields c i) = rowMatch i ||| (c &&& ~~~ rowMask i) := by
  cases i with
  | nop | load | escsearch | vicsearch => simp [encode, withFields, rowMatch, rowMask]
  | getbit src => simp [encode, withFields, rowMatch, rowMask, srcBit_fieldSrc]
  | hist w =>
    have hfree : ~~~ rowMask (.hist w) = (BitVec.allOnes 6).setWidth 32 <<< 8 := by rw [rowMask]; decide
    rw [hfree, withFields, encode, rowMatch, fieldWa, ofNat_extractLsb'_shiftLeft]
  | encode vw rw =>
    have hfree : ~~~ rowMask (.encode vw rw) =
        (BitVec.allOnes 6).setWidth 32 <<< 8 ||| (BitVec.allOnes 6).setWidth 32 <<< 16 := by rw [rowMask]; decide
    rw [hfree, withFields, encode, rowMatch, fieldWa, fieldWb, ofNat_extractLsb'_shiftLeft, ofNat_extractLsb'_shiftLeft,
      BitVec.or_assoc, BitVec.and_or_distrib_left]

/-- The fixed bits of a word and its other bits are the word. -/
theorem and_or_and_not (c m : Word) : (c &&& m) ||| (c &&& ~~~ m) = c := by
  rw [← BitVec.and_or_distrib_left, BitVec.or_not_self, BitVec.and_allOnes]

theorem encode_of_decode {c : Word} {i : Instr} (h : decode c = .ok i) : encode i = c := by
  obtain ⟨hrow, hfields⟩ := decode_eq_ok_iff.1 h
  calc encode i = encode (withFields c i) := congrArg encode hfields
    _ = (c &&& rowMask i) ||| (c &&& ~~~ rowMask i) := by rw [encode_withFields, hrow]
    _ = c := and_or_and_not c _

/-- Settles O2: the fixed bits and the fields are all of the word. -/
theorem encodeOfDecode : Obligations.EncodeOfDecode := fun _ _ h =>
  ⟨Machine.wellFormed_of_decode h, encode_of_decode h⟩

/-! ### The opcode map -/

/-- The columns `match` and `mask` of the opcode map (30_encoding.md R93), a row for each constructor of `Instr`. -/
def opcodeRows : List (Word × Word) :=
  [.nop, .load, .getbit .ibuf, .hist 0, .escsearch, .vicsearch, .encode 0 0].map fun i => (rowMatch i, rowMask i)

theorem mem_opcodeRows {r : Word × Word} : r ∈ opcodeRows ↔ ∃ i, (rowMatch i, rowMask i) = r := by
  refine ⟨fun h => ?_, ?_⟩
  · obtain ⟨i, -, rfl⟩ := List.mem_map.1 h
    exact ⟨i, rfl⟩
  · rintro ⟨i, rfl⟩
    cases i <;> simp [opcodeRows, rowMatch, rowMask]

theorem decode_error_iff_opcodeRows {c : Word} :
    (∃ why, decode c = .error why) ↔ ∀ r ∈ opcodeRows, c &&& r.2 ≠ r.1 := by
  simp only [decode_error_iff, mem_opcodeRows, forall_exists_index, forall_apply_eq_imp_iff]

/-- Rows do not overlap: a word of two of them would decode to a command of each (30_encoding.md R93). -/
theorem opcodeRow_unique {c : Word} :
    ∀ r ∈ opcodeRows, ∀ r' ∈ opcodeRows, c &&& r.2 = r.1 → c &&& r'.2 = r'.1 → r = r' := by
  intro r hr r' hr' hrow hrow'
  obtain ⟨i, rfl⟩ := mem_opcodeRows.1 hr
  obtain ⟨j, rfl⟩ := mem_opcodeRows.1 hr'
  have hsame : withFields c i = withFields c j :=
    Except.ok.inj ((decode_of_row hrow).symm.trans (decode_of_row hrow'))
  rw [← rowMatch_withFields c i, ← rowMask_withFields c i, hsame, rowMatch_withFields, rowMask_withFields]

/-- Settles O3: `decode_eq_ok_iff` row by row, with the numbers of the fields. -/
theorem legalWordsMatchOneRow : Obligations.LegalWordsMatchOneRow := by
  intro c
  refine ⟨?_, ?_, fun src => ?_, fun w => ?_, ?_, ?_, fun vw rw => ?_, decode_error_iff_opcodeRows, opcodeRow_unique⟩
  all_goals simp only [decode_eq_ok_iff, rowMask, rowMatch, withFields, fieldWa_eq, fieldWb_eq, fieldSrc, and_true,
    Instr.getbit.injEq, Instr.hist.injEq, Instr.encode.injEq]

/-- Settles O4: fixed words, evaluated. -/
theorem specWordsDecode : Obligations.SpecWordsDecode := by
  unfold Obligations.SpecWordsDecode
  decide

/-! ### The assembler -/

theorem assemble_of_wellFormed {i : Instr} (hi : i.wellFormed = true) : assemble i = some (encode i) := if_pos hi

theorem assemble_of_not_wellFormed {i : Instr} (hi : ¬ i.wellFormed = true) : assemble i = none := if_neg hi

/-- Settles O5: the width operands' words as sums, and `Instr.wellFormed` on widths above 63. -/
theorem assemblerWords : Obligations.AssemblerWords := by
  refine ⟨rfl, rfl, rfl, rfl, rfl, rfl, fun w hw => ?_, fun w hw => ?_, fun vw rw hvw hrw => ?_, fun vw rw hwide => ?_⟩
  · rw [assemble_of_wellFormed (wellFormed_hist.2 hw), encode_hist]
  · exact assemble_of_not_wellFormed fun hi => absurd (wellFormed_hist.1 hi) hw.not_ge
  · rw [assemble_of_wellFormed (wellFormed_encode.2 ⟨hvw, hrw⟩), encode_encode hvw]
  · refine assemble_of_not_wellFormed fun hi => ?_
    obtain ⟨hvw, hrw⟩ := wellFormed_encode.1 hi
    omega

end Sys2Proof
end

section
/-! PROOFS. The BitBuffer commands (40_bitbuffer.md R110 to R114), and the operand checks of every command (R112, R114;
41_histogram.md R124; 43_encoder.md R161, R162; 60_exceptions.md R183). -/

namespace Sys2Proof.Machine

/-! ### Operand checks: the completion of a command on each side of its check -/

section
variable {s : State}

theorem exec_load_of_lt (h : s.params.inCapBytes < s.inNbytes.toNat) :
    exec .load s = .next (complete .capacityExceeded s) := if_pos h

theorem exec_load_of_le (h : s.inNbytes.toNat ≤ s.params.inCapBytes) :
    exec .load s = .next (complete .success { s with inLen := BitVec.ofNat 32 (8 * s.inNbytes.toNat) }) :=
  if_neg (Nat.not_lt.2 h)

theorem exec_getbit_of_le (src : Src) (h : (sourceBuffer s src).1 ≤ s.argIndex.toNat) :
    exec (.getbit src) s = .next (complete .indexOutOfRange s) := if_pos h

theorem exec_getbit_of_lt (src : Src) (h : s.argIndex.toNat < (sourceBuffer s src).1) :
    exec (.getbit src) s =
      .next (complete .success { s with resultBit := (sourceBuffer s src).2 s.argIndex.toNat }) :=
  if_neg (Nat.not_le.2 h)

theorem exec_hist_of_not_widthLegal {w : Nat} (h : ¬ widthLegal s w) :
    exec (.hist w) s = .next (complete .invalidPatternWidth s) := if_neg h

theorem exec_encode_of_not_widthLegal {vw rw : Nat} (h : ¬ (widthLegal s vw ∧ widthLegal s rw)) :
    exec (.encode vw rw) s = .next (complete .invalidPatternWidth s) := if_neg h

/-- The values are checked once both widths have passed (60_exceptions.md R183). -/
theorem exec_encode_of_not_valueLegal {vw rw : Nat} (hwidths : widthLegal s vw ∧ widthLegal s rw)
    (h : ¬ (valueLegal s.valA.toNat vw ∧ valueLegal s.valB.toNat rw)) :
    exec (.encode vw rw) s = .next (complete .invalidPatternValue s) := (if_pos hwidths).trans (if_neg h)

end

/-- Settles O18: each command on the failing side of its check. -/
theorem operandErrorsWriteNothing : Obligations.OperandErrorsWriteNothing := by
  refine ⟨fun _ hn => exec_load_of_lt hn, fun _ hk => exec_getbit_of_le .ibuf hk,
    fun _ hk => exec_getbit_of_le .obuf hk,
    fun s w hw => exec_hist_of_not_widthLegal ?_, fun s vw rw hw => exec_encode_of_not_widthLegal ?_,
    fun s vw rw hvw hvw' hrw hrw' hv => exec_encode_of_not_valueLegal ⟨⟨hvw, hvw'⟩, ⟨hrw, hrw'⟩⟩ ?_⟩ <;> omega

/-! ### NOP and LOAD -/

/-- Settles O19: NOP has no check and no result. -/
theorem nopCompletes : Obligations.NopCompletes := fun _ => rfl

/-- The bit length of a LOAD within the capacity of a legal build fits IN_LEN (00_scope.md R3; 40_bitbuffer.md R112). -/
theorem toNat_loadLength {p : Params} {n : Nat} (hp : p.legal) (hn : n ≤ p.inCapBytes) :
    (BitVec.ofNat 32 (8 * n)).toNat = 8 * n := by
  obtain ⟨-, -, ⟨-, hcap⟩, -⟩ := hp
  rw [BitVec.toNat_ofNat]
  omega

/-- Settles O20: LOAD on the passing side of its check. -/
theorem loadCompletes : Obligations.LoadCompletes := fun _ hp hn =>
  ⟨_, toNat_loadLength hp hn, exec_load_of_le hn⟩

/-- A LOAD that ends with code 0 is one within the capacity (40_bitbuffer.md R112). -/
theorem load_of_success {s t : State} (h : exec .load s = .next t) (hcode : t.status.code = .success) :
    s.inNbytes.toNat ≤ s.params.inCapBytes ∧
      t = complete .success { s with inLen := BitVec.ofNat 32 (8 * s.inNbytes.toNat) } := by
  rcases exec_cases h with ⟨-, rfl⟩ | hloaded
  · cases hcode
  · exact hloaded

/-! ### The bits of a packed buffer -/

theorem getLsbD_eq_shiftRight (b : Byte) (j : Nat) : b.getLsbD j = ((b.toNat >>> j) % 2 == 1) := by
  rw [BitVec.getLsbD, Nat.testBit_eq_decide_div_mod_eq, Nat.shiftRight_eq_div_pow, beq_eq_decide]

/-- Bit `k` of a packed array, in the shift form of 10_state.md R48 and R49. -/
theorem packedBit_eq_shiftRight (byte : Nat → Byte) (k : Nat) :
    packedBit byte k = (((byte (k / 8)).toNat >>> (k % 8)) % 2 == 1) := getLsbD_eq_shiftRight _ _

/-- Settles O21: IN_LEN by `toNat_loadLength`; bit `8i + j` sits in byte `i`, which LOAD leaves as it is. -/
theorem loadRoundTrip : Obligations.LoadRoundTrip := by
  intro s t u hp hexec hcode hlen hbytes
  obtain ⟨hn, rfl⟩ := load_of_success hexec hcode
  refine ⟨(congrArg BitVec.toNat hlen).trans (toNat_loadLength hp hn), fun i j hi hj => ?_⟩
  have hbyte : (8 * i + j) / 8 = i := by omega
  have hbit : (8 * i + j) % 8 = j := by omega
  rw [State.ibuf, packedBit_eq_shiftRight, hbyte, hbit, hbytes i hi]
  rfl

/-- Settles O22: GETBIT on the passing side of its check, either buffer being a packed array. -/
theorem getbitCompletes : Obligations.GetbitCompletes := by
  refine ⟨fun s hk => ?_, fun s hk => ?_⟩
  · rw [exec_getbit_of_lt .ibuf hk, ← packedBit_eq_shiftRight]
    rfl
  · rw [exec_getbit_of_lt .obuf hk, ← packedBit_eq_shiftRight]
    rfl

end Sys2Proof.Machine
end

section
/-! PROOFS. Histograms: the counts of the counted windows, their sum and what a wider width inherits (41_histogram.md R120
to R123), and the completion of HIST (R124 to R126). -/

namespace Sys2Proof.Machine

/-! ### Counts -/

section
variable (b : Nat → Bool) (len w : Nat)

theorem count_eq_occurrences (p : Nat) : (countedWindows b len w).count p = occurrences b len w p := by
  simp only [count_countedWindows, window_eq_windowSum, occurrences]

/-- Settles O24: every counted window is one of the values that the sum runs over. -/
theorem countsAddUp : Obligations.CountsAddUp := fun b len w => by
  have hvalues : ∀ p ∈ (countedWindows b len w : Multiset Nat), p ∈ Finset.range (2 ^ w) := fun p hp =>
    Finset.mem_range.2 (countedWindows_lt hp)
  have hsum := Multiset.sum_count_eq_card hvalues
  rw [Multiset.coe_card, length_countedWindows] at hsum
  exact ⟨count_eq_occurrences b len w, by simpa only [Multiset.coe_count] using hsum⟩

variable {b len w}

/-- A counted window without its last bit is counted at the width before: it starts at the same place (41_histogram.md
R123). -/
theorem half_mem_countedWindows {q : Nat} (hq : q ∈ countedWindows b len (w + 1)) : q / 2 ∈ countedWindows b len w := by
  obtain ⟨i, hi, rfl⟩ := mem_countedWindows.1 hq
  have hbit : (b (i + w)).toNat < 2 := Bool.toNat_lt _
  exact mem_countedWindows.2 ⟨i, by omega, by rw [window]; omega⟩

/-- Settles O25: both extensions of `p` have the half `p`. -/
theorem absenceIsInherited : Obligations.AbsenceIsInherited := by
  intro b len w p _ _ habsent
  have hext : ∀ q, q / 2 = p → (countedWindows b len (w + 1)).count q = 0 := fun q hhalf =>
    List.count_eq_zero.2 fun hq => List.count_eq_zero.1 habsent (hhalf ▸ half_mem_countedWindows hq)
  exact ⟨hext (2 * p) (by omega), hext (2 * p + 1) (by omega)⟩

/-! ### The selections over a histogram -/

variable (b len w)

/-- With no counted window every count is 0, so 0 is the lowest value with the largest count (41_histogram.md R121,
R124). -/
theorem isLeast_mostFreq :
    IsLeast {p | p < 2 ^ w ∧ occurrences b len w p = maxCount (countedWindows b len w)}
      (mostFreq (countedWindows b len w)) := by
  simp only [← count_eq_occurrences]
  by_cases hws : countedWindows b len w = []
  · rw [hws]
    exact ⟨⟨Nat.two_pow_pos w, rfl⟩, fun _ _ => Nat.zero_le _⟩
  · obtain ⟨hmem, hcount, hleast⟩ := mostFreq_spec hws
    exact ⟨⟨countedWindows_lt hmem, hcount⟩, fun p ⟨_, hp⟩ => hleast p hp⟩

theorem isMaxCount_maxCount : IsMaxCount b len w (maxCount (countedWindows b len w)) := by
  refine ⟨⟨_, (isLeast_mostFreq b len w).1⟩, ?_⟩
  rintro _ ⟨p, -, rfl⟩
  rw [← count_eq_occurrences]
  exact count_le_maxCount _ p

theorem hasZero_iff_hasAbsent : hasZero (countedWindows b len w) w ↔ HasAbsent b len w := by
  simp only [hasZero_iff, HasAbsent, count_eq_occurrences]

variable {b len w}

theorem isFirstAbsent_firstAbsent (h : HasAbsent b len w) :
    IsFirstAbsent b len w (firstAbsent (countedWindows b len w)) := by
  obtain ⟨hnot, hlower⟩ := firstAbsent_spec (countedWindows b len w)
  simp only [IsFirstAbsent, ← count_eq_occurrences, List.count_eq_zero]
  exact ⟨⟨(hasZero_iff_hasAbsent b len w).2 h, hnot⟩, fun p ⟨_, hp⟩ => not_lt.1 fun hlt => hp (hlower p hlt)⟩

theorem occurrences_eq_zero_of_le {p : Nat} (hp : 2 ^ w ≤ p) : occurrences b len w p = 0 := by
  rw [← count_eq_occurrences, List.count_eq_zero]
  exact fun hmem => absurd (countedWindows_lt hmem) (not_lt.2 hp)

end

/-! ### HIST -/

section
variable {s : State} {w : Nat}

theorem exec_hist_of_widthLegal (h : widthLegal s w) :
    exec (.hist w) s = .next (complete .success (putHist w (countedWindows s.ibuf s.inBits w) s)) := if_pos h

/-- A number up to that of the counted windows fits a register and a counter (41_histogram.md R126). -/
theorem toNat_word_of_le_windows {n : Nat} (h : n ≤ (countedWindows s.ibuf s.inBits w).length) :
    (BitVec.ofNat 32 n).toNat = n :=
  toNat_word_of_le (h.trans (by rw [length_countedWindows]; exact Nat.sub_le _ _)) s.inLen.isLt

/-- A value of a width up to 32 fits a register (00_scope.md R4). -/
theorem toNat_word_of_lt_two_pow {v : Nat} (hw : w ≤ 32) (hv : v < 2 ^ w) : (BitVec.ofNat 32 v).toNat = v :=
  toNat_word_of_le (Nat.le_refl v) (hv.trans_le (Nat.pow_le_pow_right Nat.two_pos hw))

/-- A visible counter after HIST holds the count of its index; an index that is no value of the width has none
(41_histogram.md R125). -/
theorem toNat_histCounter_putHist {k : Nat} (hk : k < 2 ^ s.params.histVisW) :
    ((putHist w (countedWindows s.ibuf s.inBits w) s).histCounter k).toNat =
      if k < 2 ^ w then occurrences s.ibuf s.inBits w k else 0 := by
  rw [State.histCounter, putHist_histMem, read_histMemOf, if_pos hk, toNat_word_of_le_windows List.count_le_length,
    count_eq_occurrences]
  split
  · rfl
  · exact occurrences_eq_zero_of_le (by omega)

/-- HIST_ZEROVAL after HIST (41_histogram.md R124). -/
theorem histZeroval_putHist (hw : w ≤ 32) :
    (HasAbsent s.ibuf s.inBits w →
        IsFirstAbsent s.ibuf s.inBits w (putHist w (countedWindows s.ibuf s.inBits w) s).histZeroval.toNat) ∧
      (¬ HasAbsent s.ibuf s.inBits w → (putHist w (countedWindows s.ibuf s.inBits w) s).histZeroval = 0#32) := by
  rw [← hasZero_iff_hasAbsent, putHist_histZeroval]
  refine ⟨fun h => ?_, fun h => if_neg h⟩
  rw [if_pos h, toNat_word_of_lt_two_pow hw h]
  exact isFirstAbsent_firstAbsent ((hasZero_iff_hasAbsent _ _ _).1 h)

end

/-- Settles O26: the registers hold the selections over the counted windows, all of which fit them. -/
theorem histCompletes : Obligations.HistCompletes := by
  intro s w hmaxw hlow hhigh
  have hw : w ≤ 32 := hhigh.trans hmaxw
  have hmax : (BitVec.ofNat 32 (maxCount (countedWindows s.ibuf s.inBits w))).toNat = _ :=
    toNat_word_of_le_windows (maxCount_le_length _)
  have hmaxval : (BitVec.ofNat 32 (mostFreq (countedWindows s.ibuf s.inBits w))).toNat = _ :=
    toNat_word_of_lt_two_pow hw (mostFreq_countedWindows_lt _ _ _)
  obtain ⟨hzero, hnozero⟩ := histZeroval_putHist (s := s) hw
  refine ⟨_, exec_hist_of_widthLegal ⟨hlow, hhigh⟩, rfl, ?width, rfl, ?nodata, ?zfound, ?sum, ?max, ?maxval, hzero,
    hnozero, fun k hk => toNat_histCounter_putHist hk, ?regs, inMemKept_of_eq rfl, outMemKept_of_eq rfl, rfl, rfl, rfl⟩
  case width =>
    show (BitVec.ofNat 6 w).toNat = w
    rw [BitVec.toNat_ofNat, Nat.mod_eq_of_lt (by omega)]
  case nodata =>
    show decide ((countedWindows s.ibuf s.inBits w).length = 0) = true ↔ _
    rw [length_countedWindows, decide_eq_true_iff, Nat.sub_eq_zero_iff_le]
  case zfound => exact decide_eq_true_iff.trans (hasZero_iff_hasAbsent _ _ _)
  case sum => exact (toNat_word_of_le_windows (Nat.le_refl _)).trans (length_countedWindows _ _ _)
  case max => exact hmax.symm ▸ isMaxCount_maxCount _ _ _
  case maxval =>
    show IsLeast {p | _ ∧ _ = (BitVec.ofNat 32 (maxCount _)).toNat} (BitVec.ofNat 32 (mostFreq _)).toNat
    rw [hmax, hmaxval]
    exact isLeast_mostFreq _ _ _
  case regs => exact (regsKept_putHist _ _ _).trans (regsKept_complete _ _) (by simp) (by simp)

end Sys2Proof.Machine
end

section
/-! PROOFS. The size of an output: its header, and the body with every match replaced (43_encoder.md R165, R169), and why
a width with no data cannot reduce (42_width_selector.md R151). -/

namespace Sys2Proof.Machine

@[simp] theorem length_header (vv vw rv rw : Nat) : (header vv vw rv rw).length = 10 + vw + rw := by
  simp only [header, List.length_append, length_bitsMsb]
  omega

section
variable (b : Nat → Bool) (len vv : Nat) {vw : Nat}

/-- The scan from `i` copies some bits and replaces the others, `vw` bits to a match. -/
theorem length_encodeBody (hvw : 1 ≤ vw) (repl : List Bool) (fuel : Nat) {i : Nat} (hi : i ≤ len) :
    ∃ copied, (encodeBody b len vv vw repl fuel i).1.length =
        (encodeBody b len vv vw repl fuel i).2 * repl.length + copied ∧
      (encodeBody b len vv vw repl fuel i).2 * vw + copied = len - i := by
  induction fuel generalizing i with
  | zero => exact ⟨len - i, by simp [encodeBody]⟩
  | succ fuel ih =>
    rw [encodeBody]
    split
    case isTrue hfull =>
      split
      case isTrue =>
        obtain ⟨copied, hlen, hbits⟩ := ih hfull
        exact ⟨copied, by rw [List.length_append, hlen, Nat.succ_mul]; omega, by rw [Nat.succ_mul]; omega⟩
      case isFalse =>
        obtain ⟨copied, hlen, hbits⟩ := ih (i := i + 1) (by omega)
        exact ⟨copied + 1, by simp only [List.length_cons, hlen]; omega, by dsimp only; omega⟩
    case isFalse => exact ⟨len - i, by simp⟩

/-- An output is the header, a replacement for each match, and the bits of the input outside the matches
(43_encoder.md R165, R169). -/
theorem length_encodeImage (hvw : 1 ≤ vw) (rv rw : Nat) :
    ∃ copied, (encodeImage b len vv vw rv rw).1.length =
        10 + vw + rw + (encodeImage b len vv vw rv rw).2 * rw + copied ∧
      (encodeImage b len vv vw rv rw).2 * vw + copied = len := by
  obtain ⟨copied, hlen, hbits⟩ := length_encodeBody b len vv hvw (bitsMsb rv rw) len (Nat.zero_le len)
  rw [length_bitsMsb] at hlen
  refine ⟨copied, ?_, hbits⟩
  simp only [encodeImage, List.length_append, length_header, hlen]
  omega

theorem matches_encodeImage_le (hvw : 1 ≤ vw) (rv rw : Nat) : (encodeImage b len vv vw rv rw).2 ≤ len := by
  obtain ⟨copied, -, hbits⟩ := length_encodeImage b len vv hvw rv rw
  calc (encodeImage b len vv vw rv rw).2
    _ ≤ (encodeImage b len vv vw rv rw).2 * vw := Nat.le_mul_of_pos_right _ hvw
    _ ≤ len := by omega

/-- A replacement no wider than the victim adds at most the header (43_encoder.md R169). -/
theorem length_encodeImage_le (hvw : 1 ≤ vw) (rv : Nat) {rw : Nat} (hrw : rw ≤ vw) :
    (encodeImage b len vv vw rv rw).1.length ≤ 10 + vw + rw + len := by
  obtain ⟨copied, hlen, hbits⟩ := length_encodeImage b len vv hvw rv rw
  have hmatches := Nat.mul_le_mul_left (encodeImage b len vv vw rv rw).2 hrw
  omega

end

/-- Settles O34: the header alone is longer than such an input. -/
theorem noDataWidthsNeverReduce : Obligations.NoDataWidthsNeverReduce := by
  intro b len vv vw rv rw _ _ hnodata
  calc len
    _ < (header vv vw rv rw).length := by rw [length_header]; omega
    _ ≤ (encodeImage b len vv vw rv rw).1.length := by rw [encodeImage, List.length_append]; exact Nat.le_add_right _ _

end Sys2Proof.Machine
end

section
/-! PROOFS. Mode A: the escape and the best pattern it returns (42_width_selector.md R140 to R145), and ESCSEARCH. -/

namespace Sys2Proof.Machine

/-! ### The escape -/

section
variable {s : State} {w : Nat}

/-- The widths that Mode A's loop reaches are those it examines (42_width_selector.md R142, R143). -/
theorem examined_iff_reached :
    Examined s w ↔ Reached s.ibuf s.inBits 1 w ∧ w < 1 + s.maxw.toNat := by
  simp only [Examined, Reached, hasZero_iff_hasAbsent]
  constructor
  · rintro ⟨hlow, hhigh, hdata, hnarrower⟩
    exact ⟨⟨hlow, hdata, hnarrower⟩, by omega⟩
  · rintro ⟨⟨hlow, hdata, hnarrower⟩, hhigh⟩
    exact ⟨hlow, by omega, hdata, hnarrower⟩

/-- There is one escape at most: the narrowest width with an absent value, and its lowest one. -/
theorem IsEscape.unique {w' e e' : Nat} (h : IsEscape s w e) (h' : IsEscape s w' e') : w = w' ∧ e = e' := by
  obtain ⟨⟨hlow, -, -, hnarrower⟩, hfirst⟩ := h
  obtain ⟨⟨hlow', -, -, hnarrower'⟩, hfirst'⟩ := h'
  have hw : w = w' := by
    rcases Nat.lt_trichotomy w w' with hlt | heq | hgt
    · exact absurd ⟨e, hfirst.1⟩ (hnarrower' w hlow hlt)
    · exact heq
    · exact absurd ⟨e', hfirst'.1⟩ (hnarrower w' hlow' hgt)
  subst hw
  exact ⟨rfl, hfirst.unique hfirst'⟩

theorem isEscape_of_modeA {p : Pattern} (h : s.modeA.escape = some p) : IsEscape s p.width p.value := by
  obtain ⟨hsome, -, -⟩ := modeALoop_spec s.ibuf s.inBits s.maxw.toNat 1 { count := 0, width := 0, value := 0 }
  obtain ⟨hreached, hhigh, hzero, hvalue⟩ := hsome p h
  rw [hvalue]
  exact ⟨examined_iff_reached.2 ⟨hreached, hhigh⟩,
    isFirstAbsent_firstAbsent ((hasZero_iff_hasAbsent _ _ _).1 hzero)⟩

/-- Mode A returns no escape exactly where there is none (42_width_selector.md R142, R143, R145). -/
theorem modeA_escape_eq_none_iff : s.modeA.escape = none ↔ NoEscape s := by
  constructor
  · intro h w hw
    obtain ⟨-, hnone, -⟩ := modeALoop_spec s.ibuf s.inBits s.maxw.toNat 1 { count := 0, width := 0, value := 0 }
    obtain ⟨hreached, hhigh⟩ := examined_iff_reached.1 hw
    rw [← hasZero_iff_hasAbsent]
    exact hnone h w hreached hhigh
  · intro h
    rw [Option.eq_none_iff_forall_ne_some]
    intro p hp
    obtain ⟨hexamined, hfirst⟩ := isEscape_of_modeA hp
    exact h p.width hexamined ⟨p.value, hfirst.1⟩

/-- Mode A returns the escape where there is one (42_width_selector.md R142). -/
theorem modeA_escape_of_isEscape {e : Nat} (h : IsEscape s w e) : s.modeA.escape = some ⟨w, e⟩ := by
  cases hp : s.modeA.escape with
  | none => exact absurd ⟨e, h.2.1⟩ (modeA_escape_eq_none_iff.1 hp w h.1)
  | some p =>
    obtain ⟨hw, he⟩ := (isEscape_of_modeA hp).unique h
    rw [← hw, ← he]

/-- A width field holds a width of at most 32 as it is (00_scope.md R4). -/
theorem toNat_width_of_le (hw : w ≤ 32) : (BitVec.ofNat 6 w).toNat = w := by
  rw [BitVec.toNat_ofNat, Nat.mod_eq_of_lt (by omega)]

/-- The registers ESC_W and ESC_VAL hold the escape as it is. -/
theorem toNat_escape_registers {e : Nat} (hmaxw : s.maxw.toNat ≤ 32) (h : IsEscape s w e) :
    (putModeA s.modeA s).escW.toNat = w ∧ (putModeA s.modeA s).escVal.toNat = e := by
  rw [putModeA_escW, putModeA_escVal, modeA_escape_of_isEscape h]
  obtain ⟨⟨-, hw, -, -⟩, ⟨he, -⟩, -⟩ := h
  exact ⟨toNat_width_of_le (hw.trans hmaxw), toNat_word_of_lt_two_pow (hw.trans hmaxw) he⟩

end

/-! ### ESCSEARCH -/

section
variable {s : State}

theorem exec_escsearch_of_none (h : s.modeA.escape = none) :
    exec .escsearch s = .next (complete .noEscapeFound (putModeA s.modeA s)) := by
  simp [exec, execEscsearch, h, raiseError]

theorem exec_escsearch_of_some {p : Pattern} (h : s.modeA.escape = some p) :
    exec .escsearch s = .next (complete .success (putModeA s.modeA s)) := by
  simp [exec, execEscsearch, h, succeed]

/-- ESCSEARCH leaves the registers outside Mode A's results and STATUS as they are (42_width_selector.md R142). -/
theorem regsKept_escsearch (e : ErrorCode) (s : State) :
    RegsKept [.status, .histW, .escW, .escVal, .bestW, .bestVal, .bestCount] s (complete e (putModeA s.modeA s)) :=
  (regsKept_putModeA s.modeA s).trans (regsKept_complete e _) (by simp) (by simp)

end

/-- Settles O27: Mode A returns that escape, and the registers are wide enough for it. -/
theorem escsearchFindsEscape : Obligations.EscsearchFindsEscape := by
  intro s w e hmaxw hescape
  obtain ⟨hwidth, hvalue⟩ := toNat_escape_registers hmaxw hescape
  exact ⟨_, exec_escsearch_of_some (modeA_escape_of_isEscape hescape), rfl, hwidth, hvalue, rfl,
    regsKept_escsearch .success s, inMemKept_of_eq rfl, outMemKept_of_eq rfl, rfl, rfl, rfl⟩

/-- Settles O28: Mode A returns no escape; with an empty IBUF no width has data. -/
theorem escsearchFindsNone : Obligations.EscsearchFindsNone := by
  refine ⟨fun s hno => ?_, fun s hempty w ⟨_, _, hdata, _⟩ => ?_⟩
  · have hnone : s.modeA.escape = none := modeA_escape_eq_none_iff.2 hno
    refine ⟨_, exec_escsearch_of_none hnone, rfl, ?_, ?_, rfl, regsKept_escsearch .noEscapeFound s,
      inMemKept_of_eq rfl, outMemKept_of_eq rfl, rfl, rfl, rfl⟩
    · rw [complete_escW, putModeA_escW, hnone]; rfl
    · rw [complete_escVal, putModeA_escVal, hnone]; rfl
  · omega

/-! ### The best pattern -/

section
variable {s : State}

theorem maxCount_pos_of_data (b : Nat → Bool) {len w : Nat} (hdata : w < len) :
    0 < maxCount (countedWindows b len w) := by
  refine (maxCount_attained fun hnil => ?_).1
  have hlen := length_countedWindows b len w
  rw [hnil, List.length_nil] at hlen
  omega

theorem occurrences_le_maxCount (b : Nat → Bool) (len w p : Nat) :
    occurrences b len w p ≤ maxCount (countedWindows b len w) := by
  rw [← count_eq_occurrences]
  exact count_le_maxCount _ p

/-- Mode A's best pattern is the one that 42_width_selector.md R144 describes: every examined width has a count above 0,
so the initial 0 stays only where no width is examined. -/
theorem bestIs_modeA (s : State) : BestIs s s.modeA.best.width s.modeA.best.value s.modeA.best.count := by
  obtain ⟨-, -, hbest⟩ := modeALoop_spec s.ibuf s.inBits s.maxw.toNat 1 { count := 0, width := 0, value := 0 }
  change BestOver _ _ _ _ s.modeA.best at hbest
  simp only [← examined_iff_reached] at hbest
  rcases hbest with ⟨hzero, hnone⟩ | ⟨-, hexamined, hcount, hvalue, hgreatest, hnarrowest⟩
  · refine .inl ⟨fun w hw => ?_, by rw [hzero], by rw [hzero], by rw [hzero]⟩
    have hpos := maxCount_pos_of_data s.ibuf hw.2.2.1
    have hle : _ ≤ 0 := hnone w hw
    omega
  · have hleast := isLeast_mostFreq s.ibuf s.inBits s.modeA.best.width
    rw [← hcount, ← hvalue] at hleast
    refine .inr ⟨⟨⟨_, hexamined, _, hleast.1⟩, ?_⟩, ⟨⟨hexamined, _, hleast.1⟩, ?_⟩, hleast⟩
    · rintro _ ⟨w, hw, p, -, rfl⟩
      exact (occurrences_le_maxCount _ _ _ p).trans (hgreatest w hw)
    · rintro w ⟨hw, p, -, hp⟩
      exact hnarrowest w hw (Nat.le_antisymm (hgreatest w hw) (hp ▸ occurrences_le_maxCount _ _ _ p))

/-- No count of Mode A exceeds the length of IBUF. -/
theorem modeA_best_count_le (s : State) : s.modeA.best.count ≤ s.inBits := by
  rcases bestIs_modeA s with ⟨-, -, -, hzero⟩ | ⟨⟨⟨w, -, p, -, hp⟩, -⟩, -, -⟩
  · omega
  · rw [← hp, ← count_eq_occurrences]
    exact List.count_le_length.trans (by rw [length_countedWindows]; exact Nat.sub_le _ _)

/-- What a completion of either search has in BEST_*, and when its code is NoEscapeFound (42_width_selector.md R142,
R150). -/
theorem search_results {i : Instr} {t : State} (hi : i = .escsearch ∨ i = .vicsearch) (h : exec i s = .next t) :
    t.bestW = BitVec.ofNat 6 s.modeA.best.width ∧ t.bestVal = BitVec.ofNat 32 s.modeA.best.value ∧
      t.bestCount = BitVec.ofNat 32 s.modeA.best.count ∧
      (t.status.code = .noEscapeFound → s.modeA.escape = none) := by
  rcases hi with rfl | rfl
  · rcases exec_cases h with ⟨hnone, rfl⟩ | ⟨-, rfl⟩
    · exact ⟨rfl, rfl, rfl, fun _ => hnone⟩
    · exact ⟨rfl, rfl, rfl, nofun⟩
  · rcases exec_cases h with ⟨hnone, rfl⟩ | ⟨e, -, ⟨c, x, n, -, rfl⟩ | ⟨r, -, rfl⟩⟩
    · exact ⟨rfl, rfl, rfl, fun _ => hnone⟩
    · exact ⟨rfl, rfl, rfl, nofun⟩
    · exact ⟨rfl, rfl, rfl, nofun⟩

end

/-- Settles O29: both searches write Mode A's best pattern, and the registers are wide enough for it. -/
theorem searchesKeepBest : Obligations.SearchesKeepBest := by
  intro i s t hmaxw hi hexec
  obtain ⟨hw, hv, hc, -⟩ := search_results hi hexec
  obtain ⟨hwidth, hvalue⟩ := modeA_best_bounds s
  have hw6 : t.bestW.toNat = s.modeA.best.width := by rw [hw, toNat_width_of_le (hwidth.trans hmaxw)]
  have hv32 : t.bestVal.toNat = s.modeA.best.value := by rw [hv, toNat_word_of_lt_two_pow (hwidth.trans hmaxw) hvalue]
  have hc32 : t.bestCount.toNat = s.modeA.best.count := by
    rw [hc, toNat_word_of_le (modeA_best_count_le s) s.inLen.isLt]
  rw [hw6, hv32, hc32]
  exact bestIs_modeA s

/-! ### The no-data guard -/

section
variable {s : State}

/-- With fewer windows than values, some value is absent (42_width_selector.md R143). -/
theorem hasAbsent_of_few_windows (b : Nat → Bool) {len w : Nat} (h : len - w < 2 ^ w) : HasAbsent b len w :=
  (hasZero_iff_hasAbsent b len w).1 (hasZero_of_length_lt (by rwa [length_countedWindows]))

/-- Where there is no escape, no width with data has an absent value: the narrowest one that had would be examined. -/
theorem NoEscape.not_hasAbsent (h : NoEscape s) {w : Nat} (hlow : 1 ≤ w) (hhigh : w ≤ s.maxw.toNat)
    (hdata : w < s.inBits) : ¬ HasAbsent s.ibuf s.inBits w := by
  induction w using Nat.strong_induction_on with
  | h w ih => exact h w ⟨hlow, hhigh, hdata, fun w' hlow' hlt => ih w' hlt hlow' (by omega) (by omega)⟩

/-- Without an escape every width has data: at `L - 1`, the widest with data, one window is counted and some value is
absent (42_width_selector.md R143). -/
theorem NoEscape.maxw_lt_inBits (h : NoEscape s) (hlen : 2 ≤ s.inBits) : s.maxw.toNat < s.inBits := by
  by_contra hguard
  have hwindows : s.inBits - (s.inBits - 1) < 2 ^ (s.inBits - 1) := by
    have := Nat.one_lt_two_pow (n := s.inBits - 1) (by omega)
    omega
  exact h.not_hasAbsent (w := s.inBits - 1) (by omega) (by omega) (by omega) (hasAbsent_of_few_windows _ hwindows)

end

/-- Settles O30: without an escape `NoEscape.maxw_lt_inBits` gives every width data, and so `NoEscape.not_hasAbsent`
speaks of every width. -/
theorem noDataGuardNeverFires : Obligations.NoDataGuardNeverFires := by
  intro s hlen
  have hdata : s.modeA.escape = none → s.maxw.toNat < s.inBits := fun h =>
    (modeA_escape_eq_none_iff.1 h).maxw_lt_inBits (by omega)
  refine ⟨hdata, fun i t hi hexec hcode => ?_, fun h w hlow hhigh => ?_, fun h => ?_⟩
  · obtain ⟨-, -, -, hnone⟩ := search_results hi hexec
    exact hdata (hnone hcode)
  · exact (modeA_escape_eq_none_iff.1 h).not_hasAbsent hlow hhigh (hhigh.trans_lt (hdata h))
  · exact modeA_escape_eq_none_iff.2 fun w ⟨hlow, hhigh, _, _⟩ => h w hlow hhigh

end Sys2Proof.Machine
end

section
/-! PROOFS. Mode B: the candidates it evaluates and the one it returns (42_width_selector.md R150 to R153), and
VICSEARCH. -/

namespace Sys2Proof.Machine

/-! ### The widths evaluated -/

section
variable {b : Nat → Bool} {len w : Nat}

theorem isMaxCount_iff {c : Nat} : IsMaxCount b len w c ↔ c = maxCount (countedWindows b len w) :=
  ⟨fun h => h.unique (isMaxCount_maxCount b len w), fun h => h ▸ isMaxCount_maxCount b len w⟩

theorem isMostFreq_iff {v : Nat} : IsMostFreq b len w v ↔ v = mostFreq (countedWindows b len w) := by
  simp only [IsMostFreq, isMaxCount_iff]
  exact ⟨fun h => h.unique (isLeast_mostFreq b len w), fun h => h ▸ isLeast_mostFreq b len w⟩

end

section
variable {s : State} {e : Pattern}

/-- Mode B evaluates the widths with data from MAXW down to the one above the escape's, each with its most frequent value
as the victim (42_width_selector.md R150, R151). -/
theorem evaluated_iff {v mv n : Nat} {x : List Bool} :
    Evaluated s e.width e.value v mv x n ↔
      (e.width + 1 ≤ v ∧ v < e.width + 1 + (s.maxw.toNat - e.width) ∧ v < s.inBits) ∧
        mv = mostFreq (countedWindows s.ibuf s.inBits v) ∧
        encodeImage s.ibuf s.inBits mv v e.value e.width = (x, n) := by
  simp only [Evaluated, isMostFreq_iff]
  constructor
  · rintro ⟨hlow, hhigh, hdata, hmv, himage⟩
    exact ⟨⟨by omega, by omega, hdata⟩, hmv, himage⟩
  · rintro ⟨⟨hlow, hhigh, hdata⟩, hmv, himage⟩
    exact ⟨by omega, by omega, hdata, hmv, himage⟩

/-- The width determines the rest of an evaluation. -/
theorem Evaluated.unique {w0 ev v mv mv' n n' : Nat} {x x' : List Bool} (h : Evaluated s w0 ev v mv x n)
    (h' : Evaluated s w0 ev v mv' x' n') : mv = mv' ∧ x = x' ∧ n = n' := by
  obtain ⟨-, -, -, hmv, himage⟩ := h
  obtain ⟨-, -, -, hmv', himage'⟩ := h'
  obtain rfl : mv = mv' := (isMostFreq_iff.1 hmv).trans (isMostFreq_iff.1 hmv').symm
  exact ⟨rfl, Prod.mk.inj (himage.symm.trans himage')⟩

/-- The candidate at an evaluated width. -/
theorem Evaluated.candidateAt_eq {v mv n : Nat} {x : List Bool} (h : Evaluated s e.width e.value v mv x n) :
    candidateAt s.ibuf s.inBits e v = { delta := imageDelta s.inBits x, victim := { width := v, value := mv } } := by
  obtain ⟨-, rfl, himage⟩ := evaluated_iff.1 h
  rw [candidateAt, himage]

theorem evaluated_candidateAt {v : Nat}
    (hv : e.width + 1 ≤ v ∧ v < e.width + 1 + (s.maxw.toNat - e.width) ∧ v < s.inBits) :
    ∃ mv x n, Evaluated s e.width e.value v mv x n :=
  ⟨_, _, _, evaluated_iff.2 ⟨hv, rfl, rfl⟩⟩

/-- An output of Mode B has no more matches than IBUF has bits, and is longer than IBUF by its header at most: the victim
is wider than the escape (43_encoder.md R165, R169). -/
theorem Evaluated.size_le {w0 ev v mv n : Nat} {x : List Bool} (h : Evaluated s w0 ev v mv x n) :
    n ≤ s.inBits ∧ x.length ≤ 10 + v + w0 + s.inBits := by
  obtain ⟨hwide, -, -, -, himage⟩ := h
  have hmatches := matches_encodeImage_le s.ibuf s.inBits mv (vw := v) (by omega) ev w0
  have hlen := length_encodeImage_le s.ibuf s.inBits mv (vw := v) (by omega) ev (rw := w0) (by omega)
  rw [himage] at hmatches hlen
  exact ⟨hmatches, hlen⟩

/-! ### What the scan returns -/

/-- An accepted candidate is that of the widest evaluated width with an output shorter than the input (42_width_selector.md
R150, R153). -/
theorem modeB_accepted_spec {c : Candidate} {x : List Bool} {n : Nat} (h : s.modeB e = .accepted c x n) :
    Evaluated s e.width e.value c.victim.width c.victim.value x n ∧ c.delta = imageDelta s.inBits x ∧
      x.length < s.inBits ∧
      ∀ v mv y k, c.victim.width < v → Evaluated s e.width e.value v mv y k → s.inBits ≤ y.length := by
  obtain ⟨haccepted, -⟩ := modeBLoop_spec s.ibuf s.inBits e (e.width + 1) (s.maxw.toNat - e.width) none
  obtain ⟨v, hlow, hhigh, hdata, rfl, hneg, himage, hwider⟩ := haccepted c x n h
  have heval : Evaluated s e.width e.value v (mostFreq (countedWindows s.ibuf s.inBits v)) x n :=
    evaluated_iff.2 ⟨⟨hlow, hhigh, hdata⟩, rfl, himage⟩
  rw [heval.candidateAt_eq] at hneg ⊢
  refine ⟨heval, rfl, by simp only [imageDelta] at hneg; omega, fun v' mv' y k hlt heval' => ?_⟩
  obtain ⟨⟨-, hhigh', hdata'⟩, -, -⟩ := evaluated_iff.1 heval'
  have hdelta := hwider v' hlt hhigh' hdata'
  rw [heval'.candidateAt_eq] at hdelta
  simp only [imageDelta] at hdelta
  omega

/-- `c` is the closest candidate: of the smallest delta over the evaluated widths, the widest on a tie
(42_width_selector.md R152). -/
def IsClosest (s : State) (e : Pattern) (c : Candidate) : Prop :=
  (∃ x n, Evaluated s e.width e.value c.victim.width c.victim.value x n ∧ c.delta = imageDelta s.inBits x) ∧
    ∀ v mv x n, Evaluated s e.width e.value v mv x n →
      c.delta ≤ imageDelta s.inBits x ∧ (c.delta = imageDelta s.inBits x → v ≤ c.victim.width)

/-- Without an accepted candidate no evaluated width reduces, and Mode B returns the closest candidate, or none where no
width is evaluated (42_width_selector.md R152). -/
theorem modeB_notBeneficial_spec {r : Option Candidate} (h : s.modeB e = .notBeneficial r) :
    (∀ v mv x n, Evaluated s e.width e.value v mv x n → s.inBits ≤ x.length) ∧
      ((r = none ∧ ∀ v mv x n, ¬ Evaluated s e.width e.value v mv x n) ∨ ∃ c, r = some c ∧ IsClosest s e c) := by
  obtain ⟨-, hnot⟩ := modeBLoop_spec s.ibuf s.inBits e (e.width + 1) (s.maxw.toNat - e.width) none
  obtain ⟨hdelta, hclosest⟩ := hnot r h
  refine ⟨fun v mv x n heval => ?_, ?_⟩
  · obtain ⟨⟨hlow, hhigh, hdata⟩, -, -⟩ := evaluated_iff.1 heval
    have hv := hdelta v hlow hhigh hdata
    rw [heval.candidateAt_eq] at hv
    simp only [imageDelta] at hv
    omega
  · rcases hclosest with ⟨hnone, hempty⟩ | ⟨v, hv, hsome, -, hleast, hwidest⟩
    · refine .inl ⟨hnone, fun v mv x n heval => ?_⟩
      obtain ⟨c, hc, -⟩ := hempty v (evaluated_iff.1 heval).1
      cases hc
    · obtain ⟨mv, x, n, heval⟩ := evaluated_candidateAt hv
      rw [heval.candidateAt_eq] at hsome hleast hwidest
      refine .inr ⟨_, hsome, ⟨x, n, heval, rfl⟩, fun v' mv' x' n' heval' => ?_⟩
      have hv' := (evaluated_iff.1 heval').1
      have hleast' := hleast v' hv'
      have hwidest' := hwidest v' hv'
      rw [heval'.candidateAt_eq] at hleast' hwidest'
      exact ⟨hleast', fun htie => hwidest' htie.symm⟩

end

/-! ### VICSEARCH -/

section
variable {s : State}

theorem exec_vicsearch_of_none (h : s.modeA.escape = none) :
    exec .vicsearch s = .next (complete .noEscapeFound (putCandidate none (putModeA s.modeA s))) := by
  simp [exec, execVicsearch, h, raiseError]

theorem exec_vicsearch_of_accepted {e : Pattern} {c : Candidate} {x : List Bool} {n : Nat}
    (he : s.modeA.escape = some e) (h : s.modeB e = .accepted c x n) :
    exec .vicsearch s = .next (complete .success (putCandidate (some c) (putImage x n (putModeA s.modeA s)))) := by
  simp [exec, execVicsearch, he, h, succeed]

theorem exec_vicsearch_of_notBeneficial {e : Pattern} {r : Option Candidate} (he : s.modeA.escape = some e)
    (h : s.modeB e = .notBeneficial r) :
    exec .vicsearch s =
      .next (complete .noBeneficialSubstitution (putCandidate r (putOriginal (putModeA s.modeA s)))) := by
  simp [exec, execVicsearch, he, h, raiseError]

/-- VICSEARCH leaves the registers outside its write set and STATUS as they are (20_memory.md R71). -/
theorem regsKept_vicsearch {t : State} (h : exec .vicsearch s = .next t) :
    RegsKept [.status, .histW, .escW, .escVal, .bestW, .bestVal, .bestCount, .vicW, .vicVal, .outLen, .matchCount,
      .delta, .closestDelta] s t := by
  obtain ⟨hregs, -, -⟩ := exec_writeSetKept h
  intro r hr
  refine hregs r ?_ fun hstatus => hr (by simp [hstatus])
  simp_all [writeSet, searchWrites, outputWrites]

/-- No command touches IN_MEM, the build or the port (20_memory.md R71; 40_bitbuffer.md R111). -/
theorem exec_keeps_inMem_outside {i : Instr} {t : State} (h : exec i s = .next t) :
    InMemKept s t ∧ OutsideKept s t := by
  obtain ⟨e, u, rfl, hframe⟩ := exec_eq_complete h
  exact ⟨inMemKept_of_eq hframe.inMem, hframe.params, hframe.turns, hframe.rdata⟩

/-- A register holds a delta of less than 31 bits as it is (10_state.md R43). -/
theorem toInt_deltaWord {d : Int} (hlow : -2 ^ 31 ≤ d) (hhigh : d < 2 ^ 31) : (deltaWord d).toInt = d :=
  BitVec.toInt_ofInt_eq_self (by decide) (by simpa using hlow) (by simpa using hhigh)

theorem State.Inv.maxw_le (hinv : s.Inv) : s.maxw.toNat ≤ 32 := hinv.maxwHigh.trans hinv.legal.1.2

/-- The delta of an output that Mode B evaluates fits its register: IBUF has at most `2^30` bits and the header at most
74 (00_scope.md R3; 43_encoder.md R165). -/
theorem Evaluated.toInt_delta (hinv : s.Inv) {w0 ev v mv n : Nat} {x : List Bool} (h : Evaluated s w0 ev v mv x n) :
    (deltaWord (imageDelta s.inBits x)).toInt = (x.length : Int) - s.inBits := by
  have hmaxw := hinv.maxw_le
  have hcap : s.params.inCapBytes ≤ 2 ^ 27 := hinv.legal.2.2.1.2
  have hbits : s.inBits ≤ 8 * s.params.inCapBytes := hinv.inLenCap
  obtain ⟨-, hlen⟩ := h.size_le
  obtain ⟨hwide, hhigh, -, -, -⟩ := h
  exact toInt_deltaWord (by simp only [imageDelta]; omega) (by simp only [imageDelta]; omega)

/-- VIC_W and VIC_VAL hold a victim that Mode B evaluates as it is. -/
theorem Evaluated.toNat_victim (hinv : s.Inv) {w0 ev v mv n : Nat} {x : List Bool} (h : Evaluated s w0 ev v mv x n) :
    (BitVec.ofNat 6 v).toNat = v ∧ (BitVec.ofNat 32 mv).toNat = mv := by
  obtain ⟨-, hhigh, -, ⟨⟨hmv, -⟩, -⟩, -⟩ := h
  exact ⟨PatternFits.toNat_width hinv.legal ⟨hhigh.trans hinv.maxwHigh, hmv⟩,
    toNat_word_of_lt_two_pow (hhigh.trans hinv.maxw_le) hmv⟩

/-- VIC_* and CLOSEST_DELTA hold the closest candidate as it is (42_width_selector.md R152). -/
theorem IsClosest.registers (hinv : s.Inv) {e : Pattern} {c : Candidate} (h : IsClosest s e c) (u : State) :
    (∃ x n, Evaluated s e.width e.value (putCandidate (some c) u).vicW.toNat
          (putCandidate (some c) u).vicVal.toNat x n ∧
        (putCandidate (some c) u).closestDelta.toInt = (x.length : Int) - s.inBits) ∧
      ∀ v mv x n, Evaluated s e.width e.value v mv x n →
        (putCandidate (some c) u).closestDelta.toInt ≤ (x.length : Int) - s.inBits ∧
        ((putCandidate (some c) u).closestDelta.toInt = (x.length : Int) - s.inBits →
          v ≤ (putCandidate (some c) u).vicW.toNat) := by
  obtain ⟨⟨x, n, heval, hdelta⟩, hleast⟩ := h
  obtain ⟨hvicW, hvicVal⟩ := heval.toNat_victim hinv
  have hclosest : (deltaWord c.delta).toInt = (x.length : Int) - s.inBits := by rw [hdelta, heval.toInt_delta hinv]
  rw [hdelta] at hleast
  simp only [putCandidate_vicW, putCandidate_vicVal, putCandidate_closestDelta, Option.elim_some, hvicW,
    hvicVal, hclosest]
  exact ⟨⟨x, n, heval, rfl⟩, hleast⟩

/-- `OBUF <- IBUF` in a state with the input of `s` (42_width_selector.md R152). -/
theorem obufIs_putOriginal (s : State) : ObufIs (putOriginal s) (slice s.ibuf 0 s.inBits) :=
  obufIs_congr rfl rfl (obufIs_putObuf (slice s.ibuf 0 s.inBits) s (by rw [length_slice]; exact s.inLen.isLt))

end

/-- Settles O33: without an escape VICSEARCH writes Mode A's results and no candidate. -/
theorem vicsearchFindsNoEscape : Obligations.VicsearchFindsNoEscape := by
  intro s hno
  have hnone : s.modeA.escape = none := modeA_escape_eq_none_iff.2 hno
  refine ⟨_, exec_vicsearch_of_none hnone, rfl, ?escW, ?escVal, rfl, rfl, rfl, rfl, ?regs, inMemKept_of_eq rfl,
    outMemKept_of_eq rfl, rfl, rfl, rfl⟩
  case escW => rw [complete_escW, putCandidate_escW, putModeA_escW, hnone]; rfl
  case escVal => rw [complete_escVal, putCandidate_escVal, putModeA_escVal, hnone]; rfl
  case regs =>
    exact ((regsKept_putModeA _ _).trans (regsKept_putCandidate none _) (by simp) (by simp)).trans
      (regsKept_complete _ _) (fun _ hr => hr) (by simp)

/-- Settles O31: Mode B accepts this width and no other, for a wider one does not reduce and a narrower one comes after
it. -/
theorem vicsearchAccepts : Obligations.VicsearchAccepts := by
  intro s w0 e v mv x n hinv hescape heval hshort hwider
  have he := modeA_escape_of_isEscape hescape
  obtain ⟨hescW, hescVal⟩ := toNat_escape_registers hinv.maxw_le hescape
  cases hb : s.modeB ⟨w0, e⟩ with
  | notBeneficial r =>
    obtain ⟨hlong, -⟩ := modeB_notBeneficial_spec hb
    exact absurd (hlong v mv x n heval) (by omega)
  | accepted c y k =>
    obtain ⟨heval', hdelta, hshort', hwider'⟩ := modeB_accepted_spec hb
    have hwidth : c.victim.width = v := by
      rcases Nat.lt_trichotomy c.victim.width v with hlt | heq | hgt
      · exact absurd (hwider' v mv x n hlt heval) (by omega)
      · exact heq
      · exact absurd (hwider _ _ y k hgt heval') (by omega)
    rw [hwidth] at heval'
    obtain ⟨rfl, rfl, rfl⟩ := heval.unique heval'
    obtain ⟨hbits, hin, -, -⟩ := inBits_le_capacities hinv
    obtain ⟨hvicW, hvicVal⟩ := heval.toNat_victim hinv
    have hcount : (BitVec.ofNat 32 n).toNat = n := toNat_word_of_le heval.size_le.1 s.inLen.isLt
    have hexec := exec_vicsearch_of_accepted he hb
    refine ⟨_, hexec, rfl, hescW, hescVal, ?vicW, hvicVal, ?obuf, hcount,
      heval.toInt_delta hinv, congrArg deltaWord hdelta, rfl, regsKept_vicsearch hexec,
      exec_keeps_inMem_outside hexec⟩
    case vicW => exact hwidth ▸ hvicW
    case obuf => exact obufIs_congr rfl rfl (obufIs_putObuf x (putModeA s.modeA s) (by omega))

/-- Settles O32: Mode B accepts no width, since none reduces, so it returns the closest candidate or none. -/
theorem vicsearchNotBeneficial : Obligations.VicsearchNotBeneficial := by
  intro s w0 e hinv hescape hlong
  have he := modeA_escape_of_isEscape hescape
  obtain ⟨hescW, hescVal⟩ := toNat_escape_registers hinv.maxw_le hescape
  cases hb : s.modeB ⟨w0, e⟩ with
  | accepted c x n =>
    obtain ⟨heval, -, hshort, -⟩ := modeB_accepted_spec hb
    exact absurd (hlong _ _ x n heval) (by omega)
  | notBeneficial r =>
    have hexec := exec_vicsearch_of_notBeneficial he hb
    obtain ⟨-, hr⟩ := modeB_notBeneficial_spec hb
    refine ⟨_, hexec, rfl, hescW, hescVal, obufIs_congr rfl rfl (obufIs_putOriginal (putModeA s.modeA s)), rfl, rfl,
      ?nonneg, ?none, ?closest, rfl, regsKept_vicsearch hexec, exec_keeps_inMem_outside hexec⟩
    all_goals rcases hr with ⟨rfl, hnone⟩ | ⟨c, rfl, hc⟩
    case nonneg.inl => exact (toInt_deltaWord (d := 0) (by decide) (by decide)).ge
    case nonneg.inr =>
      obtain ⟨⟨x, n, heval, hdelta⟩, -⟩ := hc.registers hinv (putOriginal (putModeA s.modeA s))
      have hx := hlong _ _ x n heval
      rw [complete_closestDelta, hdelta]
      omega
    case none.inl => exact fun _ => ⟨rfl, rfl, rfl⟩
    case none.inr =>
      obtain ⟨⟨x, n, heval, -⟩, -⟩ := hc
      exact fun hnone => absurd heval (hnone _ _ x n)
    case closest.inl => exact fun v mv x n heval => absurd heval (hnone v mv x n)
    case closest.inr =>
      obtain ⟨hattained, hleast⟩ := hc.registers hinv (putOriginal (putModeA s.modeA s))
      exact fun v mv x n heval => ⟨hattained, hleast v mv x n heval⟩

end Sys2Proof.Machine
end

section
/-! PROOFS. What an output holds: its size, its matches and the place of every bit (43_encoder.md R164 to R167, R169,
R170), with no reference to the machine's state. -/

namespace Sys2Proof.Machine

/-! ### Bit sequences by their digits -/

theorem bitsMsb_eq_digitsMsb (v n : Nat) : bitsMsb v n = digitsMsb v n :=
  List.ext_getElem (by simp [bitsMsb, digitsMsb]) fun k _ _ => by
    simp [bitsMsb, digitsMsb, Nat.testBit_eq_decide_div_mod_eq, beq_eq_decide]

theorem header_eq_headerBits (vv vw rv rw : Nat) : header vv vw rv rw = headerBits vv vw rv rw := by
  simp only [header, headerBits, bitsMsb_eq_digitsMsb]

theorem slice_eq_bitsBetween (b : Nat → Bool) (i j : Nat) : slice b i (j - i) = bitsBetween b i j :=
  List.ext_getElem (by simp [bitsBetween]) fun k _ _ => by simp [slice, bitsBetween]

@[simp] theorem bitsBetween_self (b : Nat → Bool) (i : Nat) : bitsBetween b i i = [] := by
  rw [← slice_eq_bitsBetween, Nat.sub_self]
  rfl

theorem bitsBetween_of_lt (b : Nat → Bool) {i j : Nat} (h : i < j) :
    bitsBetween b i j = b i :: bitsBetween b (i + 1) j := by
  have hcount : j - i = j - (i + 1) + 1 := by omega
  rw [← slice_eq_bitsBetween, ← slice_eq_bitsBetween, hcount, slice_succ]

/-! ### The size of an output -/

/-- Settles O35: by `length_encodeImage`, the copied bits being those outside the matches. -/
theorem imageSize : Obligations.ImageSize := by
  intro b len vv vw rv rw hvw
  obtain ⟨copied, hlength, hbits⟩ := length_encodeImage b len vv hvw rv rw
  refine ⟨length_header vv vw rv rw, fun _ _ _ => ?_, by omega, by omega, ?_⟩
  · rw [length_header]
    omega
  · have hbitsInt : ((encodeImage b len vv vw rv rw).2 : Int) * vw + copied = len := mod_cast hbits
    rw [hlength]
    push_cast
    linarith

/-! ### Short buffers -/

section
variable {b : Nat → Bool} {len vv vw i : Nat}

/-- Where no full window is left the rest is the tail (43_encoder.md R166). -/
theorem encodeBody_of_no_window (h : len < i + vw) (repl : List Bool) (fuel : Nat) :
    encodeBody b len vv vw repl fuel i = (bitsBetween b i len, 0) := by
  rw [← slice_eq_bitsBetween]
  cases fuel with
  | zero => rfl
  | succ fuel => rw [encodeBody, if_neg (Nat.not_le.2 h)]

end

/-- Settles O37: no start has a full window, and the header makes the result longer. -/
theorem shortBufferCopied : Obligations.ShortBufferCopied := by
  intro b len vv vw rv rw hshort
  have himage : encodeImage b len vv vw rv rw = (header vv vw rv rw ++ slice b 0 len, 0) := by
    rw [encodeImage, encodeBody_of_no_window (by omega), ← slice_eq_bitsBetween, Nat.sub_zero]
  refine ⟨himage, ?_⟩
  rw [himage, List.length_append, length_header, length_slice]
  omega

/-! ### The matches -/

section
variable {b : Nat → Bool} {len vv vw i : Nat} {starts : List Nat}

/-- `starts` are the greedy matches from position `i` on: victims that do not overlap, with none left outside them
(43_encoder.md R167). -/
structure GreedyFrom (b : Nat → Bool) (len vv vw i : Nat) (starts : List Nat) : Prop where
  apart : starts.Pairwise (fun j k => j + vw ≤ k)
  victim : ∀ j ∈ starts, i ≤ j ∧ j + vw ≤ len ∧ window b j vw = vv
  greedy : ∀ k, i ≤ k → k + vw ≤ len → (∀ j ∈ starts, ¬ (j ≤ k ∧ k < j + vw)) → window b k vw ≠ vv

theorem greedyFrom_nil (h : len < i + vw) : GreedyFrom b len vv vw i [] where
  apart := .nil
  victim := nofun
  greedy k hk hfull := by omega

/-- A victim at `i` is a match, and the next one starts behind it. -/
theorem GreedyFrom.match_at (hfull : i + vw ≤ len) (hvictim : window b i vw = vv)
    (h : GreedyFrom b len vv vw (i + vw) starts) : GreedyFrom b len vv vw i (i :: starts) where
  apart := .cons (fun j hj => (h.victim j hj).1) h.apart
  victim := by
    refine List.forall_mem_cons.2 ⟨⟨Nat.le_refl i, hfull, hvictim⟩, fun j hj => ?_⟩
    obtain ⟨hlow, hj⟩ := h.victim j hj
    exact ⟨by omega, hj⟩
  greedy k hlow hk houtside := by
    obtain ⟨hbehind, houtside⟩ := List.forall_mem_cons.1 houtside
    exact h.greedy k (by omega) hk houtside

/-- A position without the victim is no match, so the matches are those from the next position on. -/
theorem GreedyFrom.copy_at (hother : window b i vw ≠ vv) (h : GreedyFrom b len vv vw (i + 1) starts) :
    GreedyFrom b len vv vw i starts where
  apart := h.apart
  victim j hj := by
    obtain ⟨hlow, hj⟩ := h.victim j hj
    exact ⟨by omega, hj⟩
  greedy k hlow hk houtside := by
    rcases Nat.eq_or_lt_of_le hlow with rfl | hlt
    · exact hother
    · exact h.greedy k hlt hk houtside

theorem spliced_match (b : Nat → Bool) (len vw : Nat) (repl : List Bool) (i : Nat) (starts : List Nat) :
    spliced b len vw repl i (i :: starts) = repl ++ spliced b len vw repl (i + vw) starts := by
  rw [spliced, bitsBetween_self, List.nil_append]

theorem spliced_copy (repl : List Bool) (hi : i < len) (hstarts : ∀ j ∈ starts, i < j) :
    spliced b len vw repl i starts = b i :: spliced b len vw repl (i + 1) starts := by
  cases starts with
  | nil => exact bitsBetween_of_lt b hi
  | cons j rest =>
    rw [spliced, spliced, bitsBetween_of_lt b (hstarts j List.mem_cons_self), List.cons_append, List.cons_append]

/-- The scan from `i` replaces the greedy matches from there on; with `fuel` for every bit left it reaches the end. -/
theorem encodeBody_eq_spliced (hvw : 1 ≤ vw) (repl : List Bool) {fuel : Nat} (hfuel : len ≤ i + fuel) :
    ∃ starts, GreedyFrom b len vv vw i starts ∧
      encodeBody b len vv vw repl fuel i = (spliced b len vw repl i starts, starts.length) := by
  induction fuel generalizing i with
  | zero =>
    have hend : len < i + vw := by omega
    exact ⟨[], greedyFrom_nil hend, encodeBody_of_no_window hend repl 0⟩
  | succ fuel ih =>
    by_cases hfull : i + vw ≤ len
    · by_cases hvictim : window b i vw = vv
      · obtain ⟨starts, hgreedy, hbody⟩ := ih (i := i + vw) (by omega)
        refine ⟨i :: starts, hgreedy.match_at hfull hvictim, ?_⟩
        rw [encodeBody, if_pos hfull, if_pos hvictim, hbody, spliced_match]
        rfl
      · obtain ⟨starts, hgreedy, hbody⟩ := ih (i := i + 1) (by omega)
        refine ⟨starts, hgreedy.copy_at hvictim, ?_⟩
        have hsplice := spliced_copy (b := b) (vw := vw) repl (by omega : i < len) fun j hj => (hgreedy.victim j hj).1
        rw [encodeBody, if_pos hfull, if_neg hvictim, hbody, hsplice]
    · have hend := Nat.not_le.1 hfull
      exact ⟨[], greedyFrom_nil hend, encodeBody_of_no_window hend repl _⟩

end

/-- Settles O36: the scan starts at 0 with fuel for every bit. -/
theorem matchesAreGreedy : Obligations.MatchesAreGreedy := by
  intro b len vv vw rv rw hvw
  obtain ⟨starts, hgreedy, hbody⟩ :=
    encodeBody_eq_spliced (b := b) (vv := vv) hvw (bitsMsb rv rw) (Nat.le_add_left len 0)
  have himage : encodeImage b len vv vw rv rw =
      (headerBits vv vw rv rw ++ spliced b len vw (digitsMsb rv rw) 0 starts, starts.length) := by
    rw [encodeImage, hbody, header_eq_headerBits, bitsMsb_eq_digitsMsb]
  rw [himage]
  exact ⟨starts, rfl, hgreedy.apart, fun j hj => (hgreedy.victim j hj).2, fun k => hgreedy.greedy k (Nat.zero_le k), rfl⟩

end Sys2Proof.Machine
end

section
/-! PROOFS. ENCODE (43_encoder.md R168, R171): its results on each side of the capacity check, and the header read back
from OBUF (R163, R164). -/

namespace Sys2Proof.Machine

section
variable {s : State} {vw rw : Nat}

/-! ### The completion of ENCODE on each side of its last check -/

/-- The output of an ENCODE with these widths in the state `s`, and its match count. -/
def State.image (s : State) (vw rw : Nat) : List Bool × Nat :=
  encodeImage s.ibuf s.inBits s.valA.toNat vw s.valB.toNat rw

theorem exec_encode_of_fits (hwidths : widthLegal s vw ∧ widthLegal s rw)
    (hvalues : valueLegal s.valA.toNat vw ∧ valueLegal s.valB.toNat rw)
    (hfit : (s.image vw rw).1.length ≤ s.params.outCapBits) :
    exec (.encode vw rw) s = .next (complete .success (putImage (s.image vw rw).1 (s.image vw rw).2 s)) :=
  ((if_pos hwidths).trans (if_pos hvalues)).trans (if_neg (Nat.not_lt.2 hfit))

theorem exec_encode_of_not_fits (hwidths : widthLegal s vw ∧ widthLegal s rw)
    (hvalues : valueLegal s.valA.toNat vw ∧ valueLegal s.valB.toNat rw)
    (hlong : s.params.outCapBits < (s.image vw rw).1.length) :
    exec (.encode vw rw) s = .next (complete .capacityExceeded (putTooLong s)) :=
  ((if_pos hwidths).trans (if_pos hvalues)).trans (if_pos hlong)

/-- An ENCODE that ends with code 0 passed all its checks. -/
theorem encode_of_success {t : State} (h : exec (.encode vw rw) s = .next t) (hcode : t.status.code = .success) :
    (widthLegal s vw ∧ widthLegal s rw) ∧ (valueLegal s.valA.toNat vw ∧ valueLegal s.valB.toNat rw) ∧
      (s.image vw rw).1.length ≤ s.params.outCapBits ∧
      t = complete .success (putImage (s.image vw rw).1 (s.image vw rw).2 s) := by
  rcases exec_cases h with ⟨-, rfl⟩ | ⟨hwidths, ⟨-, rfl⟩ | ⟨hvalues, _, rfl, ⟨-, rfl⟩ | ⟨hfit, rfl⟩⟩⟩
  · cases hcode
  · cases hcode
  · cases hcode
  · exact ⟨hwidths, hvalues, hfit, rfl⟩

/-- An ENCODE that ends with CapacityExceeded has legal widths and an output that does not fit. -/
theorem encode_of_capacityExceeded {t : State} (h : exec (.encode vw rw) s = .next t)
    (hcode : t.status.code = .capacityExceeded) :
    (widthLegal s vw ∧ widthLegal s rw) ∧ s.params.outCapBits < (s.image vw rw).1.length := by
  rcases exec_cases h with ⟨-, rfl⟩ | ⟨hwidths, ⟨-, rfl⟩ | ⟨-, _, rfl, ⟨hlong, -⟩ | ⟨-, rfl⟩⟩⟩
  · cases hcode
  · cases hcode
  · exact ⟨hwidths, hlong⟩
  · cases hcode

/-! ### The results of ENCODE -/

/-- An output that fits is OBUF after `putImage`: the capacity is below `2^32` (00_scope.md R3). -/
theorem obufIs_putImage (hinv : s.Inv) {x : List Bool} (hfit : x.length ≤ s.params.outCapBits) (n : Nat) :
    ObufIs (putImage x n s) x := by
  obtain ⟨-, -, -, hcap⟩ := inBits_le_capacities hinv
  exact obufIs_congr rfl rfl (obufIs_putObuf x s (by omega))

/-- DELTA holds the delta of an output that fits as it is (10_state.md R43). -/
theorem toInt_delta_of_fits (hinv : s.Inv) {x : List Bool} (hfit : x.length ≤ s.params.outCapBits) :
    (deltaWord (imageDelta s.inBits x)).toInt = (x.length : Int) - s.inBits := by
  obtain ⟨-, -, ⟨-, hin⟩, -, hout⟩ := hinv.legal
  have hbits : s.inBits ≤ 8 * s.params.inCapBytes := hinv.inLenCap
  exact toInt_deltaWord (by simp only [imageDelta]; omega) (by simp only [imageDelta]; omega)

/-- What every ENCODE leaves alone: all registers but its results and STATUS, IN_MEM, HIST_MEM, the build and the port
(20_memory.md R71). -/
theorem encode_frame {t : State} (h : exec (.encode vw rw) s = .next t) :
    RegsKept [.status, .outLen, .matchCount, .delta] s t ∧ InMemKept s t ∧ HistMemKept s t ∧ OutsideKept s t := by
  obtain ⟨hregs, -, hhist⟩ := exec_writeSetKept h
  obtain ⟨hin, houtside⟩ := exec_keeps_inMem_outside h
  refine ⟨fun r hr => hregs r ?_ fun hstatus => hr (by simp [hstatus]), hin, histMemKept_of_eq (hhist 0 rfl), houtside⟩
  simp_all [writeSet, outputWrites]

end

/-- Settles O38: the registers hold the output's count and delta as they are, the delta by O35. -/
theorem encodeCompletes : Obligations.EncodeCompletes := by
  intro s vw rw hinv hvw hvw' hrw hrw' hva hvb hfit
  have hexec := exec_encode_of_fits ⟨⟨hvw, hvw'⟩, hrw, hrw'⟩ ⟨hva, hvb⟩ hfit
  have hcount : (BitVec.ofNat 32 (s.image vw rw).2).toNat = (s.image vw rw).2 :=
    toNat_word_of_le (matches_encodeImage_le _ _ _ hvw _ _) s.inLen.isLt
  obtain ⟨-, -, -, -, hdelta⟩ := imageSize s.ibuf s.inBits s.valA.toNat vw s.valB.toNat rw hvw
  refine ⟨_, hexec, rfl, obufIs_congr rfl rfl (obufIs_putImage hinv hfit (s.image vw rw).2), hcount, ?delta,
    encode_frame hexec⟩
  case delta =>
    show (deltaWord (imageDelta s.inBits (s.image vw rw).1)).toInt =
      10 + vw + rw - ((BitVec.ofNat 32 (s.image vw rw).2).toNat : Int) * (vw - rw)
    rw [hcount]
    exact (toInt_delta_of_fits hinv hfit).trans hdelta

/-! ### The header in OBUF -/

/-- A field of a bit sequence in OBUF reads back as a window at its place (00_scope.md R6, R7). -/
theorem ObufIs.window_field {t : State} {x before : List Bool} {v n i : Nat} (h : ObufIs t x)
    (hfield : before ++ bitsMsb v n <+: x) (hplace : before.length = i) (hv : v < 2 ^ n) : window t.obuf i n = v := by
  obtain ⟨after, rfl⟩ := hfield
  obtain ⟨-, hbits, -⟩ := h
  subst hplace
  refine window_of_bitsMsb hv fun k hk => ?_
  have hbit := hbits (before.length + k) (by simp only [List.length_append, length_bitsMsb]; omega)
  rw [List.append_assoc, List.getElem?_append_right (Nat.le_add_right _ _), Nat.add_sub_cancel_left,
    List.getElem?_append_left (by rw [length_bitsMsb]; exact hk), getElem?_bitsMsb, if_pos hk] at hbit
  exact (Option.some.inj hbit).symm

/-- The four fields of an output in OBUF read back, each at its place (43_encoder.md R164). -/
theorem ObufIs.window_header {t : State} {vv vw rv rw : Nat} {body : List Bool}
    (h : ObufIs t (header vv vw rv rw ++ body)) (hvw : vw ≤ 32) (hvv : vv < 2 ^ vw) (hrw : rw ≤ 32) (hrv : rv < 2 ^ rw) :
    window t.obuf 0 5 = vw - 1 ∧ window t.obuf 5 vw = vv ∧ window t.obuf (5 + vw) 5 = rw - 1 ∧
      window t.obuf (10 + vw) rw = rv := by
  have hfield4 : bitsMsb (vw - 1) 5 ++ bitsMsb vv vw ++ bitsMsb (rw - 1) 5 ++ bitsMsb rv rw <+:
      header vv vw rv rw ++ body := List.prefix_append _ _
  have hfield3 := (List.prefix_append _ _).trans hfield4
  have hfield2 := (List.prefix_append _ _).trans hfield3
  have hfield1 : [] ++ bitsMsb (vw - 1) 5 <+: _ := (List.prefix_append _ _).trans hfield2
  refine ⟨h.window_field hfield1 rfl (by omega), h.window_field hfield2 (length_bitsMsb _ _) hvv,
    h.window_field hfield3 ?_ (by omega), h.window_field hfield4 ?_ hrv⟩ <;>
  simp only [List.length_append, length_bitsMsb]
  omega

/-- Settles O39: a successful ENCODE leaves its output in OBUF, which begins with the header. -/
theorem headerReadsBack : Obligations.HeaderReadsBack := by
  intro s t vw rw hinv hexec hcode
  obtain ⟨⟨⟨-, hvw⟩, -, hrw⟩, ⟨hva, hvb⟩, hfit, rfl⟩ := encode_of_success hexec hcode
  have hobuf := obufIs_putImage hinv hfit (s.image vw rw).2
  exact ObufIs.window_header (obufIs_congr rfl rfl hobuf) (hvw.trans hinv.maxw_le) hva (hrw.trans hinv.maxw_le) hvb

/-! ### The capacity -/

/-- Settles O40: OUT_MEM has room for IBUF and the longest header, and a replacement no wider than its victim adds no
more than the header. -/
theorem encodeCapacity : Obligations.EncodeCapacity := by
  refine ⟨fun s vw rw hvw hvw' hrw hrw' hva hvb hlong => ?_, fun s t vw rw hinv hexec hcode => ?_⟩
  · have hexec := exec_encode_of_not_fits ⟨⟨hvw, hvw'⟩, hrw, hrw'⟩ ⟨hva, hvb⟩ hlong
    exact ⟨_, hexec, rfl, rfl, rfl, rfl, encode_frame hexec⟩
  · obtain ⟨⟨⟨hvw, hvw'⟩, -, -⟩, hlong⟩ := encode_of_capacityExceeded hexec hcode
    by_contra hnarrow
    have hlength := length_encodeImage_le s.ibuf s.inBits s.valA.toNat hvw s.valB.toNat (Nat.not_lt.1 hnarrow)
    have hmaxw := hinv.maxw_le
    have hbits : s.inBits ≤ 8 * s.params.inCapBytes := hinv.inLenCap
    obtain ⟨-, -, -, hcap, -⟩ := hinv.legal
    rw [State.image] at hlong
    omega

end Sys2Proof.Machine
end

section
/-! PROOFS. Completions with an error code, illegal words, the interrupt output, and the order of a step's inputs
(60_exceptions.md R181 to R183, R185, R187, R188, R195; 30_encoding.md R94). -/

namespace Sys2Proof.Machine

variable {s t : State}

/-! ### Which codes a step can bring -/

/-- Settles O11: the codes of `exec_cases`, command by command. -/
theorem codesOfEachCommand : Obligations.CodesOfEachCommand := by
  intro i s t hexec
  cases i with
  | nop =>
    have ht : t = complete .success s := exec_cases hexec
    rw [ht]
    rfl
  | load =>
    rcases exec_cases hexec with ⟨-, rfl⟩ | ⟨-, rfl⟩
    · exact .inr rfl
    · exact .inl rfl
  | getbit src =>
    rcases exec_cases hexec with ⟨-, rfl⟩ | ⟨-, rfl⟩
    · exact .inr rfl
    · exact .inl rfl
  | hist w =>
    rcases exec_cases hexec with ⟨-, rfl⟩ | ⟨-, rfl⟩
    · exact .inl rfl
    · exact .inr rfl
  | escsearch =>
    rcases exec_cases hexec with ⟨-, rfl⟩ | ⟨-, rfl⟩
    · exact .inr rfl
    · exact .inl rfl
  | vicsearch =>
    rcases exec_cases hexec with ⟨-, rfl⟩ | ⟨_, -, ⟨_, _, _, -, rfl⟩ | ⟨_, -, rfl⟩⟩
    · exact .inr (.inl rfl)
    · exact .inl rfl
    · exact .inr (.inr rfl)
  | encode vw rw =>
    rcases exec_cases hexec with ⟨-, rfl⟩ | ⟨-, ⟨-, rfl⟩ | ⟨-, _, -, ⟨-, rfl⟩ | ⟨-, rfl⟩⟩⟩
    · exact .inr (.inl rfl)
    · exact .inr (.inr (.inl rfl))
    · exact .inr (.inr (.inr rfl))
    · exact .inl rfl

/-- No other command has code 1 in its list, and GETBIT has it only on the failing side of its check (40_bitbuffer.md
R114, R115). -/
theorem getbit_of_hostViolation {i : Instr} (hexec : exec i s = .next t) (hviol : t.hostViolation) :
    ∃ src, i = .getbit src ∧ (sourceBuffer s src).1 ≤ s.argIndex.toNat := by
  have hcodes := codesOfEachCommand i s t hexec
  cases i with
  | getbit src =>
    rcases exec_cases hexec with ⟨hk, -⟩ | ⟨-, rfl⟩
    · exact ⟨src, rfl, hk⟩
    · cases hviol
  | nop | load | hist | escsearch | vicsearch | encode => simp [hviol] at hcodes

/-- A host write leaves CODE as it is, but for an acceptance, which clears it (20_memory.md R70). -/
theorem code_hostWrite_cases (a d : Word) (be : BitVec 4) (s : State) :
    (hostWrite a d be s).status.code = s.status.code ∨ (hostWrite a d be s).status.code = .success := by
  rcases hostWrite_cases a d be s with h | ⟨-, h⟩ | ⟨r, -, -, hreg⟩ | ⟨m, -, -, h⟩
  · exact .inl (by rw [h])
  · exact .inl (by rw [h, setHaz_status])
  · rcases hreg with ⟨-, h⟩ | ⟨-, h⟩ | ⟨-, ⟨-, h⟩ | ⟨-, h⟩ | ⟨-, h⟩ | ⟨-, h⟩ | ⟨-, h⟩ | ⟨-, h⟩⟩ <;> rw [h]
    -- the acceptance, then the write to MAXW
    case inr.inr.inl => exact .inr rfl
    case inr.inr.inr.inl => exact .inl (by rw [writeMaxw_status])
    all_goals exact .inl rfl
  · exact .inl (by rw [h, inWordWrite_status])

/-- An input brings no error code: it keeps CODE or clears it. -/
theorem code_perform_cases (x : Input) (s : State) :
    (perform x s).status.code = s.status.code ∨ (perform x s).status.code = .success := by
  cases x with
  | read a => exact .inl (congrArg Status.code (hostRead_status_eq a s))
  | write a d be => exact code_hostWrite_cases a d be s
  | reset => exact .inr rfl

/-- Settles O17: inputs bring no error code, an illegal word brings code 5, and of the commands only GETBIT brings
code 1. -/
theorem onlyGetbitOutOfRangeViolates : Obligations.OnlyGetbitOutOfRangeViolates := by
  intro s t hstep hviol
  rcases step_cases hstep with ⟨u, rest, -, -, rfl⟩ | ⟨hbusy, i, hcmd, hexec⟩ | ⟨-, -, rfl⟩ | ⟨-, -, rfl⟩
  · rcases code_perform_cases u.input { s with turns := rest } with hkept | hclear
    · exact .inl (hkept.symm.trans hviol)
    · cases hclear.symm.trans hviol
  · obtain ⟨src, rfl, hindex⟩ := getbit_of_hostViolation hexec hviol
    cases src with
    | ibuf => exact .inr ⟨hbusy, .inl ⟨hcmd, hindex⟩⟩
    | obuf => exact .inr ⟨hbusy, .inr ⟨hcmd, hindex⟩⟩
  · cases hviol
  · exact .inl hviol

/-! ### The input that a step performs -/

theorem dueInput_eq_some {u : Turn} {rest : List Turn} (hturns : s.turns = u :: rest)
    (hdue : s.status.busy = false ∨ u.late = false) : dueInput s = some (u.input, { s with turns := rest }) := by
  have hnotWaiting : (u.late && s.status.busy) = false := by rcases hdue with h | h <;> simp [h]
  simp [dueInput, hturns, hnotWaiting]

theorem dueInput_of_no_turns (hturns : s.turns = []) : dueInput s = none := by simp [dueInput, hturns]

/-- Settles O7: a due input is the step, and without one the idle block has nothing to do. -/
theorem stepPerformsPendingInput : Obligations.StepPerformsPendingInput :=
  ⟨fun _ _ _ hturns hdue => by rw [step, dueInput_eq_some hturns hdue],
    fun _ hturns hidle => by simp [step, dueInput_of_no_turns hturns, hidle]⟩

/-! ### Illegal words -/

/-- An illegal word in flight, its completion due, completes with code 5 (30_encoding.md R94; 60_exceptions.md R182). -/
theorem step_eq_illegal {why : Illegal} (hbusy : s.status.busy = true) (hlate : ∀ u ∈ s.turns.head?, u.late = true)
    (hcmd : decode s.cmd = .error why) : step s = .next (complete .illegalCommand s) := by
  simp [step, dueInput_eq_none hbusy hlate, hbusy, engineStep, fetchWord, hcmd, illegalStep, raiseError]

/-- An illegal word is no search word, so its acceptance keeps HVALID (20_memory.md R70). -/
theorem accept_of_illegal {c : Word} {why : Illegal} (hc : decode c = .error why) (s : State) :
    accept c s = { s with cmd := c, status := s.status.accept c } := by
  have hsearch : isSearchWord c = false := by simp [isSearchWord, hc]
  simp [accept, hsearch]

/-- An idle full-strobe write to CMD is the acceptance of the word (20_memory.md R70). -/
theorem hostWrite_cmd_idle {a : Word} (hloc : locOf s.params a = .reg .cmd) (hidle : s.status.busy = false)
    (c : Word) : hostWrite a c 0xF#4 s = accept c s := (hostWrite_reg hloc c).trans (unlessBusy_idle hidle _)

/-- CMD is the register at offset 0x018 (10_state.md R23). -/
theorem locOf_cmd {a : Word} (hword : a.toNat / 4 = 0x018 / 4) (p : Params) : locOf p a = .reg .cmd := by
  have hoffset : Reg.offset .cmd = 0x018 := by decide
  exact locOf_reg (by omega) (by omega)

/-- Settles O12: the acceptance leaves the illegal word in flight, and its completion writes STATUS only. -/
theorem illegalWordCompletes : Obligations.IllegalWordCompletes := by
  refine ⟨fun s why => step_eq_illegal, fun s a c why hword hidle hlate hc => ?_⟩
  have hcompletes : step (accept c s) = .next (complete .illegalCommand (accept c s)) := step_eq_illegal rfl hlate hc
  rw [hostWrite_cmd_idle (locOf_cmd hword _) hidle, hcompletes, accept_of_illegal hc]
  rfl

/-! ### The interrupt output -/

/-- Every completion sets DONE, so IRQ follows IE (60_exceptions.md R187). -/
@[simp] theorem irq_complete (e : ErrorCode) (s : State) : (complete e s).irq = s.ie := Bool.and_true _

/-- Acceptance clears DONE (20_memory.md R70). -/
@[simp] theorem irq_accept (c : Word) (s : State) : (accept c s).irq = false := Bool.and_false _

@[simp] theorem irq_setHaz (s : State) : (setHaz s).irq = s.irq := rfl

/-- A 1 written to DONE clears it (10_state.md R29). -/
theorem irq_regWrite_status {d : Word} (hbit : d.getLsbD 1 = true) (s : State) :
    (regWrite d s .status).irq = false := by
  simp [State.irq, regWrite, Status.writeOneToClear, hbit]

/-- A 0 written to CTRL.IE masks DONE (10_state.md R28). -/
theorem irq_regWrite_ctrl {d : Word} (hbit : d.getLsbD 0 = false) (s : State) : (regWrite d s .ctrl).irq = false := by
  rw [State.irq, regWrite, hbit, Bool.false_and]

/-- Settles O56: a completion sets DONE and keeps IE; each of the three writes clears one of the two. -/
theorem irqLevel : Obligations.IrqLevel := by
  refine ⟨fun i s t hexec => ?_, fun s t why hbusy hlate hcmd hstep => ?_, fun s a d hloc hbit => ?_,
    fun s a d hloc hbit => ?_, fun s a d hloc hidle => ?_, irq_setHaz⟩
  · obtain ⟨e, u, rfl, hframe⟩ := exec_eq_complete hexec
    rw [irq_complete, hframe.ie]
  · obtain rfl := Host.Outcome.next.inj ((step_eq_illegal hbusy hlate hcmd).symm.trans hstep)
    exact irq_complete _ s
  · rw [hostWrite_reg hloc, irq_regWrite_status hbit]
  · rw [hostWrite_reg hloc, irq_regWrite_ctrl hbit]
  · rw [hostWrite_cmd_idle hloc hidle, irq_accept]

end Sys2Proof.Machine
end

section
/-! PROOFS. Commands on an empty input: what each of them does before the first LOAD (70_reset_and_hazards.md R214). -/

namespace Sys2Proof.Machine

section
variable {s : State}

/-! ### An empty buffer, for any state -/

/-- HIST of an empty IBUF counts no window (41_histogram.md R124). -/
theorem hist_of_empty (hempty : s.inBits = 0) (hmaxw : s.maxw.toNat ≤ 32) {w : Nat} (hlow : 1 ≤ w)
    (hhigh : w ≤ s.maxw.toNat) :
    ∃ t, exec (.hist w) s = .next t ∧ t.histW.nodata = true ∧ t.histSum = 0#32 ∧ t.status.code = .success := by
  obtain ⟨t, hexec, hstatus, -, -, hnodata, -, hsum, -⟩ := histCompletes s w hmaxw hlow hhigh
  rw [hempty] at hnodata hsum
  have hsum : t.histSum.toNat = (0#32).toNat := hsum.trans (Nat.zero_sub w)
  exact ⟨t, hexec, hnodata.2 (Nat.zero_le w), BitVec.eq_of_toNat_eq hsum, congrArg Status.code hstatus⟩

/-- Without an escape neither search finds one (42_width_selector.md R142, R150). -/
theorem search_of_noEscape (hno : NoEscape s) {i : Instr} (hi : i = .escsearch ∨ i = .vicsearch) :
    ∃ t, exec i s = .next t ∧ t.status.code = .noEscapeFound := by
  have hnone : s.modeA.escape = none := modeA_escape_eq_none_iff.2 hno
  rcases hi with rfl | rfl
  · exact ⟨_, exec_escsearch_of_none hnone, rfl⟩
  · exact ⟨_, exec_vicsearch_of_none hnone, rfl⟩

/-- The output of an empty IBUF is its header (43_encoder.md R166, R170). -/
theorem image_of_empty (hempty : s.inBits = 0) {vw : Nat} (hvw : 1 ≤ vw) (rw : Nat) :
    (s.image vw rw).1 = header s.valA.toNat vw s.valB.toNat rw := by
  obtain ⟨himage, -⟩ := shortBufferCopied s.ibuf 0 s.valA.toNat vw s.valB.toNat rw hvw
  rw [State.image, hempty, himage]
  exact List.append_nil _

/-- OUT_MEM of a legal build has room for the longest header (00_scope.md R3; 43_encoder.md R165). -/
theorem length_header_le_capacity (hinv : s.Inv) {vw rw : Nat} (hvw : vw ≤ s.maxw.toNat) (hrw : rw ≤ s.maxw.toNat)
    (vv rv : Nat) : (header vv vw rv rw).length ≤ s.params.outCapBits := by
  have hmaxw := hinv.maxw_le
  obtain ⟨-, -, -, hcap, -⟩ := hinv.legal
  rw [length_header]
  omega

/-- ENCODE of an empty IBUF with legal operands gives the header alone (43_encoder.md R168). -/
theorem encode_of_empty (hinv : s.Inv) (hempty : s.inBits = 0) {vw rw : Nat} (hvw : widthLegal s vw)
    (hrw : widthLegal s rw) (hva : valueLegal s.valA.toNat vw) (hvb : valueLegal s.valB.toNat rw) :
    ∃ t, exec (.encode vw rw) s = .next t ∧ t.status.code = .success ∧
      ObufIs t (header s.valA.toNat vw s.valB.toNat rw) := by
  have himage := image_of_empty hempty hvw.1 rw
  have hfit : (s.image vw rw).1.length ≤ s.params.outCapBits :=
    himage ▸ length_header_le_capacity hinv hvw.2 hrw.2 _ _
  have hobuf := obufIs_putImage hinv hfit (s.image vw rw).2
  exact ⟨_, exec_encode_of_fits ⟨hvw, hrw⟩ ⟨hva, hvb⟩ hfit, rfl, himage ▸ obufIs_congr rfl rfl hobuf⟩

/-- GETBIT of either buffer, both of them empty, fails at every index (40_bitbuffer.md R114). -/
theorem getbit_of_empty (hin : s.inBits = 0) (hout : s.outLen = 0#32) (src : Src) :
    ∃ t, exec (.getbit src) s = .next t ∧ t.status.code = .indexOutOfRange := by
  have hlength : (sourceBuffer s src).1 = 0 := by
    cases src with
    | ibuf => exact hin
    | obuf => exact congrArg BitVec.toNat hout
  exact ⟨_, exec_getbit_of_le src (hlength ▸ Nat.zero_le _), rfl⟩

/-! ### Right after a reset -/

/-- Asserting reset brings the invariant from any state of a legal build, one without it included. -/
theorem inv_assertReset_of_legal (hp : s.params.legal) : (assertReset s).Inv := { inv_resetWith hp s.draws with }

/-- A reset empties IBUF (10_state.md R33, R53). -/
theorem inBits_assertReset (s : State) : (assertReset s).inBits = 0 := rfl

/-- A reset empties OBUF (10_state.md R42, R53). -/
theorem outLen_assertReset (s : State) : (assertReset s).outLen = 0#32 := rfl

end

/-- Settles O58: both buffers are empty after a reset, and VAL_A, VAL_B and ARG_INDEX touch neither a buffer nor the
invariant. -/
theorem commandsBeforeLoad : Obligations.CommandsBeforeLoad := by
  rintro s0 _ hp rfl
  have hinv : (assertReset s0).Inv := inv_assertReset_of_legal hp
  have hin := inBits_assertReset s0
  have hout := outLen_assertReset s0
  refine ⟨fun w hlow hhigh => hist_of_empty hin hinv.maxw_le hlow hhigh,
    fun i hi => search_of_noEscape (escsearchFindsNone.2 _ hin) hi,
    fun vv rv vw rw hvw hvw' hrw hrw' hva hvb => ?encode, fun src k => ?getbit⟩
  case encode =>
    have hinv' : { assertReset s0 with valA := vv, valB := rv }.Inv := { hinv with }
    exact encode_of_empty hinv' hin ⟨hvw, hvw'⟩ ⟨hrw, hrw'⟩ hva hvb
  case getbit => exact getbit_of_empty (s := { assertReset s0 with argIndex := k }) hin hout src

end Sys2Proof.Machine
end
